-- ==== Sys2Proof/Word.lean ====
section
/-! DEFINITION. The data widths of the engine: bytes and 32-bit register words (spec/00_scope.md R10,
spec/20_memory.md R63). -/

namespace Sys2Proof

/-- A byte, 8 bits (R10): a source byte, a Huffman symbol, one `TBL_CNT` or `TBL_SYM` entry. -/
abbrev Byte := BitVec 8

/-- A 32-bit register word of the register window (R22), also a two's-complement coefficient or
DC predictor (R33, R34). -/
abbrev Word := BitVec 32

/-- The 64 coefficients of one block in decode order (R34). -/
abbrev Block := Vector Word 64

end Sys2Proof
end

