-- ==== Sys2Proof/Config.lean ====
section
/-! DEFINITION. What an implementation fixes: the OPEN parameters of spec/00_scope.md R8 as plain data with
the constraints R8 puts on them, and the byte an unlisted source address reads as. -/

namespace Sys2Proof

/-- The OPEN parameters of R8. A machine has one value of this type for its whole life (`State.params`);
no step changes it, so a statement about every state is a statement about every choice of them. -/
structure Params where
  /-- `ARY_LOG2`, written `b`: bits taken per level of a lookup tree. -/
  aryLog2 : Nat
  /-- `CAP_MAX`: most bytes from the one holding the read position to the write end. -/
  capMax : Nat
  /-- `CHUNK`: most source bytes of one refill batch (one more when the last is 0xFF). -/
  chunk : Nat
  /-- `LOW_WATER`: the byte count below which `topUp` refills. -/
  lowWater : Nat
  /-- `NODE_MAX`: nodes in one table's arena. -/
  nodeMax : Nat
  deriving DecidableEq, Repr

/-- `ceil(x / b)`, the number of `b`-bit levels that hold `x` bits. -/
def ceilDiv (x b : Nat) : Nat := (x + b - 1) / b

/-- The most nodes one table can need for a branching factor `2^b`: `1 + 256 * (ceil(16 / b) - 1)` (R8, R146). -/
def nodeBound (b : Nat) : Nat := 1 + 256 * (ceilDiv 16 b - 1)

/-- The constraints of R8 on the OPEN parameters. -/
abbrev Params.ok (p : Params) : Prop :=
  1 ≤ p.aryLog2 ∧ p.aryLog2 ≤ 8 ∧ 1 ≤ p.chunk ∧ 249 ≤ p.lowWater ∧
  p.lowWater + p.chunk - 1 ≤ p.capMax ∧ p.capMax < 2 ^ 28 ∧ nodeBound p.aryLog2 ≤ p.nodeMax

/-- The parameters of `State.reset`. DESIGN CHOICE, log entry 1: the fixed values spec/92_eei_decisions.md offers
a model ("may take `b = 1` ..., `CHUNK = 1`, `LOW_WATER = 249`, `CAP_MAX = 249`") and the least `NODE_MAX` for them. -/
def Params.least : Params :=
  { aryLog2 := 1, capMax := 249, chunk := 1, lowWater := 249, nodeMax := 3841 }

/-- `NBITS_MAX` (R8): the largest `n` of one `nextBits(n)`. -/
def nbitsMax : Nat := 25

/-- `N_SYM_MAX` (R8): most codes in one table. -/
def nSymMax : Nat := 256

/-- `LEN_MAX` (R8): the longest codeword. -/
def lenMax : Nat := 16

/-- What a source index that the host has not written reads as. DESIGN CHOICE, log entry 2: the spec says only that
`SRC` is present up to `SRC_LEN`. -/
def srcUnwritten : Byte := 0#8

end Sys2Proof
end

