-- ==== Sys2Proof/Machine/State.lean ====
section
/-! DEFINITION. The state of the machine: every element spec/10_state.md names (R20 to R42), the source space of the
host, the fixed parameters, and three fields of the model's own (`unit`, `script`, `lastRead`). -/

namespace Sys2Proof.Machine

/-- `STATUS.STATE` (R26). -/
inductive Mode
  /-- 0: no scan started since reset. -/
  | idle
  /-- 1: a scan is started and not finished. -/
  | active
  /-- 2: every MCU of the scan is decoded. -/
  | done
  /-- 3: a fault is recorded. -/
  | fault
  deriving DecidableEq, Repr

/-- The faults of the engine (R260). The engine goes on after each: raising one is a next state in `Mode.fault`. -/
inductive Err
  | streamExhausted
  | huffmanLookupFailed
  | malformedByteStuffing
  | tableConstructionError
  | coefIndexOverflow
  | reservedSymbol
  | allocFailure
  | badCommand
  deriving DecidableEq, Repr

/-- One triple `(code, len, sym)` of a table (R37, R141): the codeword is `code` written as `len` bits. -/
structure CodeEntry where
  code : Nat
  len : Nat
  sym : Byte
  deriving DecidableEq, Repr

mutual
/-- A child slot of a tree node (R144). -/
inductive Slot
  /-- Unassigned. -/
  | null
  /-- A decoded symbol with its stored code length. -/
  | leaf (sym : Byte) (len : Nat)
  /-- An inner node, given by its child slots: the arena's node ids are hidden state (R39, R146). -/
  | node (children : Slots)
  deriving DecidableEq, Repr
/-- The child slots of one node, in index order (R144). -/
inductive Slots
  | nil
  | cons (s : Slot) (rest : Slots)
  deriving DecidableEq, Repr
end

/-- `TBL[s]` (R37). -/
structure Table where
  valid : Bool
  codes : List CodeEntry
  /-- The root's child slots. -/
  tree : Slots
  deriving DecidableEq, Repr

/-- A table that is not valid: `codes` empty, and the tree, which nothing reads then, empty too (R42). -/
def Table.empty : Table := { valid := false, codes := [], tree := .nil }

/-- The source space `SRC`: (index, byte) pairs with rising indices, none equal to what an unlisted index reads as. -/
abbrev Memory := List Host.Cell

/-- Where the next code comes from. Between two commands it is `idle` (a command is atomic to the host, R68); the other
values are the places inside DECODE_BLOCK and REFILL at which a stream code is fetched and acted upon, so that the
stream codes of the opcode table are instructions a step can run. The model's own field, log entry 4. -/
inductive Activity
  /-- The next step is the next host access. -/
  | idle
  /-- A refill batch that may still examine `left` source bytes (R172). -/
  | refill (left : Nat)
  /-- `decodeBlock(c)` at its DC symbol (R193). -/
  | dc (c : Fin 4)
  /-- `decodeBlock(c)` at an AC symbol with running index `k` (R194, R24 (c)). -/
  | ac (c : Fin 4) (k : Nat)
  deriving DecidableEq, Repr

/-- The width of a register access (R66). -/
inductive Width
  | byte
  | half
  | word
  deriving DecidableEq, Repr

/-- What the outside does to the engine between two commands: the host's accesses (R23, R93), its changes of the source
space (R73), a consumer's read of `OUT` (R38), and hardware reset (R290). -/
inductive Access
  /-- A host read of a register. -/
  | read (w : Width) (offset : Nat)
  /-- A host write of a register; a write of `CMD` executes a command. -/
  | write (w : Width) (offset : Nat) (value : Word)
  /-- The source space now holds these bytes from index 0 and nothing else (`.src`, R93). -/
  | source (bytes : List Byte)
  /-- The host changes one source byte (R73, R299). -/
  | poke (index : Word) (value : Byte)
  /-- The consumer reads `OUT[i][k]` (R38). -/
  | readOut (i k : Nat)
  /-- Hardware reset (R290). -/
  | hardwareReset
  deriving DecidableEq, Repr

/-- The state. -/
structure State where
  /-- The OPEN parameters of R8, fixed for the machine. -/
  params : Params
  /-- `STATUS.STATE`, R26. -/
  mode : Mode
  /-- `STATUS.EOE`, R35. -/
  eoe : Bool
  /-- `ERR.CODE`, R27. -/
  err : Byte
  /-- `ERR_MCU`, R27. -/
  errMcu : Word
  /-- `ERR_LOC`, R27: `CH` in bits [9:8], `BLK` in bits [7:0]. -/
  errLoc : BitVec 10
  /-- `RESULT`, R28. -/
  result : Word
  /-- `MCU_COUNT`, R29. -/
  mcuCount : Word
  /-- `MCU_STOP`, R29. -/
  mcuStop : Word
  /-- `NUM_CH`, R29. -/
  numCh : BitVec 3
  /-- `CH_CFG[c]`, R29: `BLOCKS` [7:0], `DC_ID` [9:8], `AC_ID` [11:10]. -/
  chCfg : Vector (BitVec 12) 4
  /-- `MCU_IDX`, R30. -/
  mcuIdx : Word
  /-- `CH_IDX`, R30. Inside RUN it takes the values 0 to `NUM_CH` (R228). -/
  chIdx : Nat
  /-- `BLK_IDX`, R30. Inside RUN it takes the values 0 to `BLOCKS` (R228). -/
  blkIdx : Nat
  /-- `OUT_COUNT`, R30. -/
  outCount : Word
  /-- `CUR.data`, R31. -/
  curData : List Byte
  /-- `CUR.pos`, R31, in bits from the start of `CUR.data`. -/
  curPos : Nat
  /-- `CUR.backable`, R31. -/
  curBackable : Nat
  /-- `BITPOS`, R32. -/
  bitpos : Word
  /-- `PRED[c]`, R33. -/
  pred : Vector Word 4
  /-- `COEF[k]`, R34. -/
  coef : Block
  /-- `SRC_POS`, R35. -/
  srcPos : Word
  /-- `SRC_LEN`, R35. -/
  srcLen : Word
  /-- `TBL_CNT[L]` at index `L - 1`, R36. -/
  tblCnt : Vector Byte 16
  /-- `TBL_SYM[i]`, R36. -/
  tblSym : Vector Byte 256
  /-- `TBL[s]`, R37. -/
  tbl : Vector Table 8
  /-- `OUT`, R38, first block first. -/
  out : List Block
  /-- `SRC`, the host's source space, R35 and R60. -/
  src : Memory
  /-- Where the next code comes from; the model's own, log entry 4. -/
  unit : Activity
  /-- The accesses the outside is still to make, next one first; the model's own, log entry 5. -/
  script : List Access
  /-- What the last read returned; the model's own, log entry 5. -/
  lastRead : Word
  deriving DecidableEq, Repr

/-- The machine right after reset, the table of R42. The source space, the script and the last value read are not the
engine's; they start empty, empty and 0. -/
def State.reset : State :=
  { params := Params.least
    mode := .idle
    eoe := false
    err := 0#8
    errMcu := 0#32
    errLoc := 0#10
    result := 0#32
    mcuCount := 0#32
    mcuStop := 0#32
    numCh := 0#3
    chCfg := Vector.replicate 4 0#12
    mcuIdx := 0#32
    chIdx := 0
    blkIdx := 0
    outCount := 0#32
    curData := []
    curPos := 0
    curBackable := 0
    bitpos := 0#32
    pred := Vector.replicate 4 0#32
    coef := Vector.replicate 64 0#32
    srcPos := 0#32
    srcLen := 0#32
    tblCnt := Vector.replicate 16 0#8
    tblSym := Vector.replicate 256 0#8
    tbl := Vector.replicate 8 Table.empty
    out := []
    src := []
    unit := .idle
    script := []
    lastRead := 0#32 }

/-- Why a step of the model stops. No fault of the engine is here: those are next states (R270). -/
inductive Fault
  /-- Raised by the ten stream codes (EOB, ZRL, RUNSIZE, ACRSVD, DCSIZE, DCRSVD, STUFF, EOI, MARKER, BADESC) when the unit
  that acts upon the code is not waiting for one. The spec gives a stream code no meaning there; no step reaches it,
  since a step presents a code only to the unit that is waiting. Safe: the model stops. -/
  | codeOutsideUnit
  deriving DecidableEq, Repr

/-- Why a step has no meaning. -/
inductive Refusal
  /-- An instruction without a meaning yet, by its mnemonic; raised by arms of `exec` only. Safe. -/
  | notModelled (mnemonic : String)
  /-- Raised by a host access of another width than 32 bits, at an offset that is not a multiple of 4, or at an unmapped
  offset; R66 and R278 say that a model refuses it. Safe: the model stops. -/
  | badRegisterAccess
  /-- Raised by a consumer's read outside `OUT[0 .. OUT_COUNT-1][0 .. 63]`, which does not exist (R60). Safe. -/
  | badOutIndex
  deriving DecidableEq, Repr

end Sys2Proof.Machine
end

