-- ==== Sys2Proof/Machine/Ops.lean ====
section
/-! DEFINITION. The shared operations: outcomes of an operation (spec/00_scope.md R12), the source space, the bit
cursor (spec/40_bitcursor.md), the fault entry (spec/60_exceptions.md R270) and the reset of the engine. -/

namespace Sys2Proof.Machine

/-- What an operation returns (R12): a value, or a fault, with the state at that moment. Every write made before a
fault stays made (R271). -/
inductive Res (α : Type) where
  | ok (a : α) (s : State)
  | raised (e : Err) (s : State)

/-- Sequencing (R12): when the first operation raises, the caller ends too. -/
def Res.bind {α β : Type} (r : Res α) (f : α → State → Res β) : Res β :=
  match r with
  | .ok a s => f a s
  | .raised e s => .raised e s

/-! ### The fault entry -/

/-- The number of a fault (R260). -/
def Err.code : Err → Byte
  | .streamExhausted => 1#8
  | .huffmanLookupFailed => 2#8
  | .malformedByteStuffing => 3#8
  | .tableConstructionError => 4#8
  | .coefIndexOverflow => 5#8
  | .reservedSymbol => 6#8
  | .allocFailure => 7#8
  | .badCommand => 8#8

/-- `CH` in bits [9:8] and `BLK` in bits [7:0], the layout of `ERR_LOC` and `LOOP_POS` (R27, R30). -/
def locWord (ch blk : Nat) : BitVec 10 := BitVec.ofNat 2 ch ++ BitVec.ofNat 8 blk

/-- `raise X`, the fault entry, the same for every fault (R270). The command ends, so no unit is left at work. -/
def raise (e : Err) (s : State) : State :=
  { s with
    err := e.code
    errMcu := s.mcuIdx
    errLoc := locWord s.chIdx s.blkIdx
    mode := .fault
    unit := .idle }

/-- The end of a command: the state it left, or the fault entry in the state it left. -/
def finish (r : Res Unit) : Host.Outcome State Fault Refusal :=
  match r with
  | .ok _ s => .next s
  | .raised e s => .next (raise e s)

/-- Admission of a command that needs one of the states `ok` (R220): in FAULT it is ignored (R273), in a state that
does not admit it it raises `BadCommand`, else its effect is performed. -/
def command (ok : Mode → Bool) (effect : State → Res Unit) (s : State) : Host.Outcome State Fault Refusal :=
  if s.mode = .fault then .next s
  else if ok s.mode then finish (effect s)
  else finish (.raised .badCommand s)

/-- Admitted in IDLE, ACTIVE and DONE (R220). -/
def anyState : Mode → Bool
  | .idle | .active | .done => true
  | .fault => false

/-- Admitted in ACTIVE only: RUN (R220). -/
def activeOnly : Mode → Bool
  | .active => true
  | .idle | .done | .fault => false

/-- Reset of the engine (R290, R222): every element of R42 takes its reset value; the source space, the parameters and
the outside's own state are not the engine's. -/
def resetEngine (s : State) : State :=
  { State.reset with params := s.params, src := s.src, script := s.script, lastRead := s.lastRead }

/-! ### The source space -/

/-- The byte at a source index; an unlisted index reads as `srcUnwritten`. -/
def Memory.read : Memory → Nat → Byte
  | [], _ => srcUnwritten
  | (b, v) :: rest, a => if b = a then v else Memory.read rest a

/-- Write one byte, keeping the canonical form: rising indices, no entry equal to what an unlisted index reads as. -/
def Memory.write : Memory → Nat → Byte → Memory
  | [], a, x => if x = srcUnwritten then [] else [(a, x)]
  | (b, v) :: rest, a, x =>
    if a < b then (if x = srcUnwritten then (b, v) :: rest else (a, x) :: (b, v) :: rest)
    else if a = b then (if x = srcUnwritten then rest else (a, x) :: rest)
    else (b, v) :: Memory.write rest a x

/-- The source space that holds the given bytes from index `a` on and nothing else. -/
def Memory.ofBytes : Nat → List Byte → Memory
  | _, [] => []
  | a, x :: rest => if x = srcUnwritten then Memory.ofBytes (a + 1) rest else (a, x) :: Memory.ofBytes (a + 1) rest

/-- All indices are at least `lo` and rise strictly, and no entry is equal to what an unlisted index reads as. -/
def Memory.wfFrom : Nat → Memory → Bool
  | _, [] => true
  | lo, (b, v) :: rest => decide (lo ≤ b) && decide (v ≠ srcUnwritten) && Memory.wfFrom (b + 1) rest

/-- The canonical form of the source space. -/
def Memory.wf (m : Memory) : Bool := Memory.wfFrom 0 m

/-- `SRC[i]` for a register value `i` (R35). -/
def srcByte (s : State) (i : Word) : Byte := Memory.read s.src i.toNat

/-! ### The bit cursor -/

/-- `bitAt(d, q)`: bit `q` of a byte sequence, each byte from bit 7 down (R10, R61). -/
def bitAt (d : List Byte) (q : Nat) : Nat := ((d.getD (q / 8) 0#8).toNat >>> (7 - q % 8)) % 2

/-- The `n` bits of `d` from position `q` on as an unsigned number, the first bit the most significant (R113). -/
def bitsAt (d : List Byte) (q : Nat) : Nat → Nat
  | 0 => 0
  | n + 1 => 2 * bitsAt d q n + bitAt d (q + n)

/-- `avail`, the unread bits (R31, R110). -/
def avail (s : State) : Nat := 8 * s.curData.length - s.curPos

/-- `tail`, the bytes from the one holding the read position to the write end (R31, R110). -/
def tail (s : State) : Nat := s.curData.length - s.curPos / 8

/-- `eof()` (R118). -/
def eof (s : State) : Bool := avail s == 0

/-- The next `n` unread bits as a number, the read position unmoved. -/
def peek (s : State) (n : Nat) : Nat := bitsAt s.curData s.curPos n

/-- The read position moves forward by `n` bits: `CUR.pos`, `CUR.backable` and `BITPOS` all rise by `n` (R32, R113). -/
def advance (n : Nat) (s : State) : State :=
  { s with
    curPos := s.curPos + n
    curBackable := s.curBackable + n
    bitpos := s.bitpos + BitVec.ofNat 32 n }

/-- The read position moves back by `n` bits (R116). -/
def rewind (n : Nat) (s : State) : State :=
  { s with
    curPos := s.curPos - n
    curBackable := s.curBackable - n
    bitpos := s.bitpos - BitVec.ofNat 32 n }

/-- New content and position of the cursor; the rewind window closes. -/
def setCursor (data : List Byte) (pos : Nat) (s : State) : State :=
  { s with curData := data, curPos := pos, curBackable := 0 }

/-- `append(bs)` (R111): the whole bytes already consumed are dropped, the new bytes follow the unread tail. -/
def append (bs : List Byte) (s : State) : Res Unit :=
  if tail s + bs.length ≤ s.params.capMax then
    .ok () (setCursor (s.curData.drop (s.curPos / 8) ++ bs) (s.curPos - 8 * (s.curPos / 8)) s)
  else .raised .allocFailure s

/-- `nextBits(n)` (R113). -/
def nextBits (n : Nat) (s : State) : Res Nat :=
  if n ≤ avail s then .ok (peek s n) (advance n s) else .raised .streamExhausted s

/-- `backBits(n)` (R116). -/
def backBits (n : Nat) (s : State) : Res Unit :=
  if n ≤ s.curBackable then .ok () (rewind n s) else .raised .badCommand s

/-- The bits from the read position to the next byte boundary, 0 to 7 (R119). -/
def padding (s : State) : Nat := (8 - s.curPos % 8) % 8

/-- `align()` (R119). -/
def alignCursor (s : State) : State := advance (padding s) s

/-- The cursor emptied, `BITPOS` kept: the cursor part of RESYNC (R227). -/
def emptyCursor (s : State) : State := setCursor [] 0 s

/-- `clear()` (R120): the cursor emptied and `BITPOS` zeroed. -/
def clearCursor (s : State) : State := { emptyCursor s with bitpos := 0#32 }

end Sys2Proof.Machine
end

