-- ==== Sys2Proof/Machine/Flags.lean ====
section
/-! DEFINITION. The read-back words: `STATUS`, `TBL_VALID`, `CUR_AVAIL`, `CUR_BIT` and `LOOP_POS` are computed from the
state and not stored (spec/10_state.md R26, R30, R32, R37, R40). -/

namespace Sys2Proof.Machine

/-- The number of `STATUS.STATE` (R26). -/
def Mode.code : Mode → BitVec 2
  | .idle => 0#2
  | .active => 1#2
  | .done => 2#2
  | .fault => 3#2

/-- `STATUS` (R26): `EOE` in bit 3, `EOF` in bit 2, `STATE` in bits [1:0]. -/
def statusWord (s : State) : Word :=
  0#28 ++ BitVec.ofBool s.eoe ++ BitVec.ofBool (eof s) ++ s.mode.code

/-- `TBL_VALID` (R37): bit `s` is `TBL[s].valid`. -/
def tblValidWord (s : State) : Word :=
  0#24 ++ BitVec.ofBool s.tbl[7].valid ++ BitVec.ofBool s.tbl[6].valid ++ BitVec.ofBool s.tbl[5].valid ++
  BitVec.ofBool s.tbl[4].valid ++ BitVec.ofBool s.tbl[3].valid ++ BitVec.ofBool s.tbl[2].valid ++
  BitVec.ofBool s.tbl[1].valid ++ BitVec.ofBool s.tbl[0].valid

/-- `CUR_AVAIL` (R32). -/
def curAvailWord (s : State) : Word := BitVec.ofNat 32 (avail s)

/-- `CUR_BIT` (R32). -/
def curBitWord (s : State) : Word := BitVec.ofNat 32 (s.curPos % 8)

/-- `LOOP_POS` (R30). -/
def loopPosWord (s : State) : Word := 0#22 ++ locWord s.chIdx s.blkIdx

end Sys2Proof.Machine
end

