-- ==== Sys2Proof/Syntax.lean ====
section
/-! DEFINITION. The instructions: one constructor for each of the 25 rows of spec/opcode_table.json, that is the 15
commands (spec/30_encoding.md R81), the six symbol classes (R88) and the four escape pairs (R90). -/

namespace Sys2Proof

/-- One instruction of the engine. The first fifteen are what the host writes to `CMD`; the six symbol classes are
what the block decoder is told to do by a decoded symbol; the four escape pairs are what the refiller is told to do by
`0xFF` and the byte after it. -/
inductive Instr
  /-- NOP, R221. -/
  | nop
  /-- RESET, R222. -/
  | reset
  /-- CLEAR, R120. -/
  | clear
  /-- APPEND `x`, R112. -/
  | append (x : Byte)
  /-- NEXTBITS `n`, R114: legal `n` is 1 to 25. -/
  | nextbits (n : Nat)
  /-- BACKBITS `n`, R117: legal `n` is 0 to 25. -/
  | backbits (n : Nat)
  /-- ALIGN, R119. -/
  | align
  /-- LOAD_TABLE `s`, R143: the selector `4*t + id`. -/
  | loadTable (sel : Fin 8)
  /-- DECODE_SYM `s`, R154. -/
  | decodeSym (sel : Fin 8)
  /-- REFILL, R178. -/
  | refill
  /-- DECODE_BLOCK `c`, R201: the channel. -/
  | decodeBlock (c : Fin 4)
  /-- START_SCAN, R223. -/
  | startScan
  /-- RUN, R228. -/
  | run
  /-- PRED_RESET, R226. -/
  | predReset
  /-- RESYNC, R227. -/
  | resync
  /-- ACSYM `0x00`, end of block, R195. -/
  | eob
  /-- ACSYM `0xF0`, sixteen zeros, R196. -/
  | zrl
  /-- ACSYM `R,S` with `S` not 0, R197. -/
  | runsize (r s : Fin 16)
  /-- ACSYM `R,0` with `R` in 1 to 14, reserved, R198. -/
  | acrsvd (r : Fin 16)
  /-- DCSYM 0 to 15, R193. -/
  | dcsize (s : Fin 16)
  /-- DCSYM above 15, reserved, R193. -/
  | dcrsvd (sym : Byte)
  /-- `FF 00`, R171. -/
  | stuff
  /-- `FF D9`, R175. -/
  | eoi
  /-- `FF x` for the other marker bytes `x`, R175. -/
  | marker (x : Byte)
  /-- `FF FF`, R176. -/
  | badesc
  deriving DecidableEq, Repr

end Sys2Proof
end

