-- ==== Sys2Proof/WellFormed.lean ====
section
/-! DEFINITION. Which terms of `Instr` are instructions of the engine: the operand ranges of spec/30_encoding.md
R81, R83, R88 and R90. -/

namespace Sys2Proof

/-- The operand ranges. A selector and a channel are in range by their type (R82); the ranges left are the bit counts
of NEXTBITS and BACKBITS (R83), the nibbles of RUNSIZE and ACRSVD and the byte of DCRSVD (R88), and the second byte of
MARKER (R90), where `FF D9` is the row EOI. -/
def Instr.wf : Instr → Bool
  | .nextbits n => decide (1 ≤ n) && decide (n ≤ nbitsMax)
  | .backbits n => decide (n ≤ nbitsMax)
  | .runsize _ s => decide (s ≠ 0)
  | .acrsvd r => decide (1 ≤ r.val) && decide (r.val ≤ 14)
  | .dcrsvd sym => decide (16 ≤ sym.toNat)
  | .marker x => decide (1 ≤ x.toNat) && decide (x.toNat ≤ 254) && decide (x ≠ 0xD9#8)
  | .nop | .reset | .clear | .append _ | .align | .loadTable _ | .decodeSym _ | .refill | .decodeBlock _
  | .startScan | .run | .predReset | .resync | .eob | .zrl | .dcsize _ | .stuff | .eoi | .badesc => true

end Sys2Proof
end

