-- ==== Sys2Proof/Decode.lean ====
section
/-! DEFINITION. Decoding and encoding: the command word `CMD32` (spec/30_encoding.md R80 to R83), the symbol formats
`DCSYM` and `ACSYM` (R86 to R88) and the escape pairs `ESC16` (R90). -/

namespace Sys2Proof

/-- Why a word is no instruction. Every reason is the fault `BadCommand` when a command word has it (R83). -/
inductive Reject
  /-- Bits [31:16] of a command word are not 0. -/
  | reservedBits
  /-- `OP` is in 0x0F to 0xFF. -/
  | unknownOpcode
  /-- `ARG` is outside the range R81 gives for `OP`. -/
  | badArgument
  /-- The first byte of a pair is not 0xFF, so the pair is no escape pair. -/
  | notEscape
  deriving DecidableEq, Repr

/-- A code as one of the three instruction streams of the engine presents it. The format is part of the code: a DC and
an AC symbol are both 8 bits, and which of the two a symbol is depends on the table it was decoded with (R86, R87). -/
inductive Code
  /-- The 32-bit word the host writes to `CMD` (R80). -/
  | cmd (w : Word)
  /-- A symbol a DC table decoded to (R86). -/
  | dcSym (b : Byte)
  /-- A symbol an AC table decoded to (R87). -/
  | acSym (b : Byte)
  /-- Two source bytes, the first in bits [15:8] (R90). -/
  | esc (w : BitVec 16)
  deriving DecidableEq, Repr

/-- `OP`, bits [7:0] of a command word (R80). -/
def opField (w : Word) : Byte := w.extractLsb' 0 8

/-- `ARG`, bits [15:8] of a command word (R80). -/
def argField (w : Word) : Byte := w.extractLsb' 8 8

/-- Bits [31:16] of a command word, which must be 0 (R80). -/
def reservedField (w : Word) : BitVec 16 := w.extractLsb' 16 16

/-- A command without argument needs `ARG = 0` (R82). -/
def noArgument (arg : Byte) (i : Instr) : Except Reject Instr :=
  if arg = 0#8 then .ok i else .error .badArgument

/-- `ARG` as the table selector `ARG[2:0]`, with `ARG[7:3] = 0` (R82). -/
def selectorArgument (arg : Byte) (f : Fin 8 → Instr) : Except Reject Instr :=
  if h : arg.toNat < 8 then .ok (f ⟨arg.toNat, h⟩) else .error .badArgument

/-- `ARG` as the channel `ARG[1:0]`, with `ARG[7:2] = 0` (R82). -/
def channelArgument (arg : Byte) (f : Fin 4 → Instr) : Except Reject Instr :=
  if h : arg.toNat < 4 then .ok (f ⟨arg.toNat, h⟩) else .error .badArgument

/-- `ARG` as a bit count `n` with `lo <= n <= 25` (R81, R83). -/
def countArgument (lo : Nat) (arg : Byte) (f : Nat → Instr) : Except Reject Instr :=
  if lo ≤ arg.toNat ∧ arg.toNat ≤ nbitsMax then .ok (f arg.toNat) else .error .badArgument

/-- The opcode map of R81. -/
def decodeOpcode (op arg : Byte) : Except Reject Instr :=
  match op.toNat with
  | 0x00 => noArgument arg .nop
  | 0x01 => noArgument arg .reset
  | 0x02 => noArgument arg .clear
  | 0x03 => .ok (.append arg)
  | 0x04 => countArgument 1 arg .nextbits
  | 0x05 => countArgument 0 arg .backbits
  | 0x06 => noArgument arg .align
  | 0x07 => selectorArgument arg .loadTable
  | 0x08 => selectorArgument arg .decodeSym
  | 0x09 => noArgument arg .refill
  | 0x0A => channelArgument arg .decodeBlock
  | 0x0B => noArgument arg .startScan
  | 0x0C => noArgument arg .run
  | 0x0D => noArgument arg .predReset
  | 0x0E => noArgument arg .resync
  | _ => .error .unknownOpcode

/-- A command word is legal when R83 names no objection: reserved bits, then the opcode, then the argument (R269). -/
def decodeCmd (w : Word) : Except Reject Instr :=
  if reservedField w = 0#16 then decodeOpcode (opField w) (argField w) else .error .reservedBits

/-- `ACSYM` bits [7:4], the zero-run length `R`; `DCSYM` has the same nibbles (R86, R87). -/
def runField (sym : Byte) : Fin 16 := (sym.extractLsb' 4 4).toFin

/-- `ACSYM` and `DCSYM` bits [3:0], the bit length `S` of the magnitude field (R86, R87). -/
def sizeField (sym : Byte) : Fin 16 := (sym.extractLsb' 0 4).toFin

/-- The classes of an AC symbol (R88): `0x00` EOB, `0xF0` ZRL, `S != 0` RUNSIZE, the other fourteen reserved. -/
def acCases {α : Type} (sym : Byte) (eob zrl : α) (runsize : Fin 16 → Fin 16 → α) (acrsvd : Fin 16 → α) : α :=
  if sym = 0x00#8 then eob
  else if sym = 0xF0#8 then zrl
  else if sizeField sym = 0 then acrsvd (runField sym)
  else runsize (runField sym) (sizeField sym)

/-- The classes of a DC symbol (R88): 0 to 15 is a size, anything above is reserved. -/
def dcCases {α : Type} (sym : Byte) (dcsize : Fin 16 → α) (dcrsvd : Byte → α) : α :=
  if runField sym = 0 then dcsize (sizeField sym) else dcrsvd sym

/-- `isMarker(x)`: `0x01 <= x <= 0xFE` (R8, decision D15). -/
def isMarker (x : Byte) : Bool := decide (1 ≤ x.toNat) && decide (x.toNat ≤ 254)

/-- The classes of the byte after a `0xFF` (R90, R171). `0xD9` is the one marker that has a row of its own. -/
def escCases {α : Type} (x : Byte) (stuff eoi : α) (marker : Byte → α) (badesc : α) : α :=
  if x = 0x00#8 then stuff
  else if x = 0xD9#8 then eoi
  else if isMarker x then marker x
  else badesc

/-- An AC symbol as an instruction of the block decoder. -/
def decodeAc (sym : Byte) : Instr := acCases sym .eob .zrl .runsize .acrsvd

/-- A DC symbol as an instruction of the block decoder. -/
def decodeDc (sym : Byte) : Instr := dcCases sym .dcsize .dcrsvd

/-- The byte after a `0xFF` as an instruction of the refiller. -/
def decodeEscByte (x : Byte) : Instr := escCases x .stuff .eoi .marker .badesc

/-- A pair of source bytes as an instruction of the refiller: an escape pair begins with `0xFF` (R90). -/
def decodeEsc (w : BitVec 16) : Except Reject Instr :=
  if w.extractLsb' 8 8 = 0xFF#8 then .ok (decodeEscByte (w.extractLsb' 0 8)) else .error .notEscape

/-- The decoder: total, and every code without a meaning is rejected by name. -/
def decode : Code → Except Reject Instr
  | .cmd w => decodeCmd w
  | .dcSym b => .ok (decodeDc b)
  | .acSym b => .ok (decodeAc b)
  | .esc w => decodeEsc w

/-- The command word with the given `OP` and `ARG` and reserved bits 0 (R80). -/
def cmdWord (op arg : Byte) : Word := 0#16 ++ arg ++ op

/-- The symbol with nibbles `R` and `S` (R87). -/
def symbol (r s : Fin 16) : Byte := BitVec.ofFin (w := 4) r ++ BitVec.ofFin (w := 4) s

/-- The pair `FF x` (R90). -/
def escWord (x : Byte) : BitVec 16 := 0xFF#8 ++ x

/-- The encoder, from the opcode map R81, the symbol classes R88 and the escape pairs R90. -/
def encode : Instr → Code
  | .nop => .cmd (cmdWord 0x00#8 0#8)
  | .reset => .cmd (cmdWord 0x01#8 0#8)
  | .clear => .cmd (cmdWord 0x02#8 0#8)
  | .append x => .cmd (cmdWord 0x03#8 x)
  | .nextbits n => .cmd (cmdWord 0x04#8 (BitVec.ofNat 8 n))
  | .backbits n => .cmd (cmdWord 0x05#8 (BitVec.ofNat 8 n))
  | .align => .cmd (cmdWord 0x06#8 0#8)
  | .loadTable sel => .cmd (cmdWord 0x07#8 (BitVec.ofNat 8 sel.val))
  | .decodeSym sel => .cmd (cmdWord 0x08#8 (BitVec.ofNat 8 sel.val))
  | .refill => .cmd (cmdWord 0x09#8 0#8)
  | .decodeBlock c => .cmd (cmdWord 0x0A#8 (BitVec.ofNat 8 c.val))
  | .startScan => .cmd (cmdWord 0x0B#8 0#8)
  | .run => .cmd (cmdWord 0x0C#8 0#8)
  | .predReset => .cmd (cmdWord 0x0D#8 0#8)
  | .resync => .cmd (cmdWord 0x0E#8 0#8)
  | .eob => .acSym 0x00#8
  | .zrl => .acSym 0xF0#8
  | .runsize r s => .acSym (symbol r s)
  | .acrsvd r => .acSym (symbol r 0)
  | .dcsize s => .dcSym (symbol 0 s)
  | .dcrsvd sym => .dcSym sym
  | .stuff => .esc (escWord 0x00#8)
  | .eoi => .esc (escWord 0xD9#8)
  | .marker x => .esc (escWord x)
  | .badesc => .esc (escWord 0xFF#8)

/-- The code a bare table word of `nbits` bits stands for: 32 bits is a command word, 16 bits an escape pair, and 8 bits
a symbol, read as an AC symbol (log entry 3: eight bits alone do not say which kind of table they came from). -/
def codeOfTableWord (nbits w : Nat) : Option Code :=
  if nbits = 32 then some (.cmd (BitVec.ofNat 32 w))
  else if nbits = 16 then some (.esc (BitVec.ofNat 16 w))
  else if nbits = 8 then some (.acSym (BitVec.ofNat 8 w))
  else none

/-- The instruction the decoder reads from a table word of `nbits` bits, or none where it refuses. -/
def decodeTableWord (nbits w : Nat) : Option Instr :=
  match codeOfTableWord nbits w with
  | some c =>
    match decode c with
    | .ok i => some i
    | .error _ => none
  | none => none

end Sys2Proof
end

