-- ==== Sys2Proof/Machine/Operands.lean ====
section
/-! DEFINITION. Operand forms: the fields of `CH_CFG[c]` and the tables they select (spec/10_state.md R29, spec/43_block.md
R191), and the sign conversion of a magnitude field (R190). -/

namespace Sys2Proof.Machine

/-- `CH_CFG[c].BLOCKS`, bits [7:0] (R29). -/
def chBlocks (cfg : BitVec 12) : Nat := (cfg.extractLsb' 0 8).toNat

/-- `CH_CFG[c].DC_ID`, bits [9:8] (R29). -/
def chDcId (cfg : BitVec 12) : Nat := (cfg.extractLsb' 8 2).toNat

/-- `CH_CFG[c].AC_ID`, bits [11:10] (R29). -/
def chAcId (cfg : BitVec 12) : Nat := (cfg.extractLsb' 10 2).toNat

/-- The table selector `s = 4*t + id` (R37, R82). -/
def selector (t id : Nat) : Fin 8 := Fin.ofNat 8 (4 * t + id)

/-- The selector of the DC table of channel `c` (R191). -/
def dcSel (s : State) (c : Fin 4) : Fin 8 := selector 0 (chDcId s.chCfg[c])

/-- The selector of the AC table of channel `c` (R191). -/
def acSel (s : State) (c : Fin 4) : Fin 8 := selector 1 (chAcId s.chCfg[c])

/-- `CH_CFG[c].BLOCKS` of a channel index; the indices that occur are below 4 (R228). -/
def blocksOf (s : State) (c : Nat) : Nat := chBlocks s.chCfg[Fin.ofNat 4 c]

/-- `B`, the blocks of one MCU: the sum of `CH_CFG[c].BLOCKS` over `c < NUM_CH` (R223). -/
def blocksPerMcu (s : State) : Nat := ((List.range s.numCh.toNat).map (blocksOf s)).sum

/-- `1 <= NUM_CH <= 4` (R223, R228). -/
abbrev numChLegal (s : State) : Prop := 1 ≤ s.numCh.toNat ∧ s.numCh.toNat ≤ 4

/-- `extend(f, S)`, the sign conversion of an `S`-bit magnitude field (R190). -/
def extend (f S : Nat) : Int := if 2 ^ (S - 1) ≤ f then (f : Int) else (f : Int) - (2 ^ S - 1)

/-- A value as a 32-bit two's-complement word: `wrap_32` (R10). -/
def wrap32 (v : Int) : Word := BitVec.ofInt 32 v

end Sys2Proof.Machine
end

