-- ==== Sys2Proof/Machine/Cursor.lean ====
section
/-! DEFINITION. The bit cursor's commands CLEAR, APPEND, NEXTBITS, BACKBITS and ALIGN (spec/40_bitcursor.md). -/

namespace Sys2Proof.Machine

/-- CLEAR (R120). -/
def execClear (s : State) : Host.Outcome State Fault Refusal :=
  command anyState (fun s => .ok () (clearCursor s)) s

/-- APPEND `x` (R112): `append([x])`, no destuffing. -/
def execAppend (x : Byte) (s : State) : Host.Outcome State Fault Refusal :=
  command anyState (append [x]) s

/-- `RESULT <- v` (R28). -/
def setResult (v : Nat) (s : State) : State := { s with result := BitVec.ofNat 32 v }

/-- NEXTBITS `n` (R114): a count outside 1 to 25 is `BadCommand`, else `RESULT <- nextBits(n)`. -/
def execNextbits (n : Nat) (s : State) : Host.Outcome State Fault Refusal :=
  command anyState (fun s =>
    if 1 ≤ n ∧ n ≤ nbitsMax then (nextBits n s).bind fun v s1 => .ok () (setResult v s1)
    else .raised .badCommand s) s

/-- BACKBITS `n` (R117): a count above 25 is `BadCommand`, else `backBits(n)`. -/
def execBackbits (n : Nat) (s : State) : Host.Outcome State Fault Refusal :=
  command anyState (fun s => if n ≤ nbitsMax then backBits n s else .raised .badCommand s) s

/-- ALIGN (R119). -/
def execAlign (s : State) : Host.Outcome State Fault Refusal :=
  command anyState (fun s => .ok () (alignCursor s)) s

end Sys2Proof.Machine
end

