-- ==== Sys2Proof/Machine/Huffman.lean ====
section
/-! DEFINITION. Tables and symbols: code assignment, validation, the lookup tree, the decode contract and the tree walk,
and the commands LOAD_TABLE and DECODE_SYM (spec/41_huffman.md). -/

namespace Sys2Proof.Machine

/-! ### Construction -/

/-- The counts `cnt[1], ..., cnt[16]` of the staging area (R140). -/
def stagedCounts (s : State) : List Nat := s.tblCnt.toList.map BitVec.toNat

/-- The codes of one length: consecutive integers from `code` on, one for each symbol (R141). -/
def levelCodes (code len : Nat) : List Byte → List CodeEntry
  | [] => []
  | y :: ys => { code := code, len := len, sym := y } :: levelCodes (code + 1) len ys

/-- Code assignment (R141) for the lengths `len, len + 1, ...` whose counts are given: the counter is raised once for
each code and doubled between two lengths. -/
def assign (len code : Nat) : List Nat → List Byte → List CodeEntry
  | [], _ => []
  | c :: cs, syms => levelCodes code len (syms.take c) ++ assign (len + 1) (2 * (code + c)) cs (syms.drop c)

/-- Check (b) of R142 at each length in order: `code + cnt[L] <= 2^L`. -/
def countsFit (len code : Nat) : List Nat → Bool
  | [] => true
  | c :: cs => decide (code + c ≤ 2 ^ len) && countsFit (len + 1) (2 * (code + c)) cs

/-! ### The tree -/

/-- The child at an index. -/
def Slots.get : Slots → Nat → Slot
  | .nil, _ => .null
  | .cons s _, 0 => s
  | .cons _ rest, n + 1 => Slots.get rest n

/-- The children with one of them replaced. -/
def Slots.set : Slots → Nat → Slot → Slots
  | .nil, _, _ => .nil
  | .cons _ rest, 0, x => .cons x rest
  | .cons s rest, n + 1, x => .cons s (Slots.set rest n x)

/-- A new node: `n` children, all `Null` (R145). -/
def Slots.fresh : Nat → Slots
  | 0 => .nil
  | n + 1 => .cons .null (Slots.fresh n)

/-- The leaf is put in `n` children from index `i` on, each of which must be `Null` (R145). -/
def fanOut (x : Slot) : Nat → Nat → Slots → Option Slots
  | 0, _, ch => some ch
  | n + 1, i, ch => if ch.get i = .null then fanOut x n (i + 1) (ch.set i x) else none

/-- `insert(code, len, sym)` below one node, of which `rem` code bits are still to be placed (R145); `none` is
`TableConstructionError`. The first argument bounds the levels: a level takes `b` bits. -/
def insertCode (b : Nat) (e : CodeEntry) : Nat → Nat → Slots → Option Slots
  | 0, _, _ => none
  | levels + 1, rem, ch =>
    if b < rem then
      match ch.get (e.code / 2 ^ (rem - b) % 2 ^ b) with
      | .null =>
        (insertCode b e levels (rem - b) (Slots.fresh (2 ^ b))).map
          fun c => ch.set (e.code / 2 ^ (rem - b) % 2 ^ b) (.node c)
      | .node c =>
        (insertCode b e levels (rem - b) c).map
          fun c' => ch.set (e.code / 2 ^ (rem - b) % 2 ^ b) (.node c')
      | .leaf _ _ => none
    else fanOut (.leaf e.sym e.len) (2 ^ (b - rem)) (e.code % 2 ^ rem * 2 ^ (b - rem)) ch

/-- The codes inserted in list order (R145). -/
def insertCodes (b : Nat) : List CodeEntry → Slots → Option Slots
  | [], ch => some ch
  | e :: es, ch =>
    match insertCode b e e.len e.len ch with
    | some ch' => insertCodes b es ch'
    | none => none

/-- `insertAll(codes)` (R145): from a root with all slots `Null`. -/
def insertAll (b : Nat) (codes : List CodeEntry) : Option Slots := insertCodes b codes (Slots.fresh (2 ^ b))

mutual
/-- The inner nodes below a slot (R146). -/
def Slot.nodes : Slot → Nat
  | .null => 0
  | .leaf _ _ => 0
  | .node ch => 1 + Slots.nodes ch
/-- The inner nodes below some children; a table's arena has one node more, the root (R146). -/
def Slots.nodes : Slots → Nat
  | .nil => 0
  | .cons s rest => Slot.nodes s + Slots.nodes rest
end

/-! ### LOAD_TABLE -/

/-- One table of the store replaced (R37). -/
def setTable (sel : Fin 8) (t : Table) (s : State) : State := { s with tbl := s.tbl.set sel t }

/-- The codes a table definition assigns (R141). -/
def stagedCodes (s : State) : List CodeEntry := assign 1 0 (stagedCounts s) s.tblSym.toList

/-- LOAD_TABLE's effect (R143): the table becomes invalid, then checks (a), (b), (c) of R142, then the new table. -/
def loadTable (sel : Fin 8) (s : State) : Res Unit :=
  if (stagedCounts s).sum ≤ nSymMax ∧ countsFit 1 0 (stagedCounts s) = true then
    match insertAll s.params.aryLog2 (stagedCodes s) with
    | some tree => .ok () (setTable sel { valid := true, codes := stagedCodes s, tree := tree } s)
    | none => .raised .tableConstructionError (setTable sel Table.empty s)
  else .raised .tableConstructionError (setTable sel Table.empty s)

/-- LOAD_TABLE `s` (R143). -/
def execLoadTable (sel : Fin 8) (s : State) : Host.Outcome State Fault Refusal :=
  command anyState (loadTable sel) s

/-! ### Decode -/

/-- The codeword is a beginning of the unread bits (R150). -/
def matchesUnread (s : State) (e : CodeEntry) : Bool :=
  decide (e.len ≤ avail s) && decide (peek s e.len = e.code)

/-- The unread bits, all of them, are a proper beginning of the codeword (R150). -/
def extendsUnread (s : State) (e : CodeEntry) : Bool :=
  decide (avail s < e.len) && decide (peek s (avail s) = e.code / 2 ^ (e.len - avail s))

/-- `decode(s)`, the contract (R150). -/
def decodeSymbol (sel : Fin 8) (s : State) : Res Byte :=
  if s.tbl[sel].valid then
    match s.tbl[sel].codes.find? (matchesUnread s) with
    | some e => .ok e.sym (advance e.len s)
    | none =>
      if s.tbl[sel].codes.any (extendsUnread s) then .raised .streamExhausted s
      else .raised .huffmanLookupFailed s
  else .raised .badCommand s

/-- DECODE_SYM `s` (R154). -/
def execDecodeSym (sel : Fin 8) (s : State) : Host.Outcome State Fault Refusal :=
  command anyState (fun s => (decodeSymbol sel s).bind fun sym s1 => .ok () (setResult sym.toNat s1)) s

/-! ### The tree walk, an implementation of the contract -/

/-- Some of `n` children from index `i` on is not `Null` (R152). -/
def anyChild (ch : Slots) : Nat → Nat → Bool
  | 0, _ => false
  | n + 1, i => decide (ch.get i ≠ .null) || anyChild ch n (i + 1)

/-- The short fetch at the end of the data (R152): `r` unread bits, fewer than one level takes. -/
def shortFetch (b : Nat) (ch : Slots) (consumed : Nat) (saved s : State) : Res Byte :=
  let r := avail s
  (if r = 0 then Res.ok 0 s else nextBits r s).bind fun real s1 =>
    match ch.get (real * 2 ^ (b - r)) with
    | .leaf sym len =>
      if len ≤ consumed + r then (backBits (consumed + r - len) s1).bind fun _ s2 => .ok sym s2
      else .raised .streamExhausted saved
    | .null =>
      if anyChild ch (2 ^ (b - r)) (real * 2 ^ (b - r)) then .raised .streamExhausted saved
      else .raised .huffmanLookupFailed saved
    | .node _ => .raised .streamExhausted saved

/-- The tree walk (R151) from one node, `consumed` bits below the root. The first argument bounds the levels: a walk takes
at most `ceil(16 / b)` of them (R147 (d)). -/
def walkFrom (b : Nat) : Nat → Slots → Nat → State → State → Res Byte
  | 0, _, _, saved, _ => .raised .huffmanLookupFailed saved
  | levels + 1, ch, consumed, saved, s =>
    if b ≤ avail s then
      (nextBits b s).bind fun idx s1 =>
        match ch.get idx with
        | .null => .raised .huffmanLookupFailed saved
        | .leaf sym len => (backBits (consumed + b - len) s1).bind fun _ s2 => .ok sym s2
        | .node c => walkFrom b levels c (consumed + b) saved s1
    else shortFetch b ch consumed saved s

/-- `walk(s)` (R151) on the stored tree. -/
def walkSymbol (sel : Fin 8) (s : State) : Res Byte :=
  if s.tbl[sel].valid then walkFrom s.params.aryLog2 (lenMax + 1) s.tbl[sel].tree 0 s s
  else .raised .badCommand s

end Sys2Proof.Machine
end

