-- ==== Sys2Proof/Machine/Refiller.lean ====
section
/-! DEFINITION. The entropy refiller: the escape pairs STUFF, EOI, MARKER and BADESC, the refill batch, `topUp`, and the
command REFILL (spec/42_refiller.md). -/

namespace Sys2Proof.Machine

/-- The refiller moves on by `n` source bytes. -/
def skipSource (n : Nat) (s : State) : State := { s with srcPos := s.srcPos + BitVec.ofNat 32 n }

/-- The end-of-entropy-data condition is observed (R174, R175). -/
def setEoe (s : State) : State := { s with eoe := true }

/-- What the pair `FF 00` at `SRC_POS` does (R171): both bytes are consumed and one data byte `0xFF` is appended. -/
def stuffOp (s : State) : Res Unit := append [0xFF#8] (skipSource 2 s)

/-- What a marker at `SRC_POS` does (R175): `EOE <- 1`, and both its bytes stay unconsumed. -/
def markerOp (s : State) : Res Unit := .ok () (setEoe s)

/-- What the pair `FF FF` at `SRC_POS` does (R176): `MalformedByteStuffing`, `SRC_POS` on the first `0xFF`. -/
def badescOp (s : State) : Res Unit := .raised .malformedByteStuffing s

/-- One turn of the loop of R172 in a batch that may still examine `left + 1` bytes; `none` ends the batch, `some l` lets it
examine `l` more. A `0xFF` is held back until the next byte is seen (R171), and that byte is fetched in this batch
whatever `left` is (R173): `SRC_POS` stays on the `0xFF` until the pair is classified, which leaves the same `SRC_POS` at
every end of the turn as moving it on and back. -/
def refillTurn (left : Nat) (s : State) : Res (Option Nat) :=
  if s.srcPos = s.srcLen then .ok none (setEoe s)
  else if srcByte s s.srcPos ≠ 0xFF#8 then
    (append [srcByte s s.srcPos] (skipSource 1 s)).bind fun _ s1 => .ok (some left) s1
  else if s.srcPos + 1#32 = s.srcLen then .ok none (setEoe s)
  else
    escCases (srcByte s (s.srcPos + 1#32))
      ((stuffOp s).bind fun _ s1 => .ok (some (left - 1)) s1)
      ((markerOp s).bind fun _ s1 => .ok none s1)
      (fun _ => (markerOp s).bind fun _ s1 => .ok none s1)
      ((badescOp s).bind fun _ s1 => .ok none s1)

/-- The loop of R172: the second argument is `CHUNK - n`, the bytes the batch may still examine, and falls at every turn,
so the first argument, which bounds the turns, is enough when it is not smaller. -/
def refillBatch : Nat → Nat → State → Res Unit
  | 0, _, s => .ok () s
  | _ + 1, 0, s => .ok () s
  | turns + 1, left + 1, s =>
    (refillTurn left s).bind fun next s1 =>
      match next with
      | none => .ok () s1
      | some l => refillBatch turns l s1

/-- `refill()` (R172). -/
def refill (s : State) : Res Unit :=
  if s.eoe then .ok () s
  else if s.srcLen < s.srcPos then .raised .badCommand s
  else refillBatch s.params.chunk s.params.chunk s

/-- The loop of `topUp` (R177). A refill that leaves `EOE = 0` appends at least one byte, so `LOW_WATER - tail` turns
are enough. -/
def topUpLoop : Nat → State → Res Unit
  | 0, s => .ok () s
  | turns + 1, s =>
    if s.eoe = false ∧ tail s < s.params.lowWater then (refill s).bind fun _ s1 => topUpLoop turns s1
    else .ok () s

/-- `topUp()` (R177). -/
def topUp (s : State) : Res Unit := topUpLoop (s.params.lowWater - tail s) s

/-- REFILL (R178). -/
def execRefill (s : State) : Host.Outcome State Fault Refusal := command anyState refill s

/-- The refiller acts upon an escape pair that takes two of the bytes its batch may examine; `goesOn` says whether the
batch goes on after it. -/
def onRefiller (goesOn : Bool) (op : State → Res Unit) (s : State) : Host.Outcome State Fault Refusal :=
  match s.unit with
  | .refill left =>
    finish ((op s).bind fun _ s1 =>
      .ok () { s1 with unit := if goesOn && decide (2 < left) then .refill (left - 2) else .idle })
  | .idle | .dc _ | .ac _ _ => .fault .codeOutsideUnit

/-- STUFF (R171). -/
def execStuff (s : State) : Host.Outcome State Fault Refusal := onRefiller true stuffOp s

/-- EOI (R175). -/
def execEoi (s : State) : Host.Outcome State Fault Refusal := onRefiller false markerOp s

/-- MARKER (R175): the engine does not look at which marker it is. -/
def execMarker (_x : Byte) (s : State) : Host.Outcome State Fault Refusal := onRefiller false markerOp s

/-- BADESC (R176). -/
def execBadesc (s : State) : Host.Outcome State Fault Refusal := onRefiller false badescOp s

end Sys2Proof.Machine
end

