-- ==== Sys2Proof/Machine/Block.lean ====
section
/-! DEFINITION. The block decoder and the DC predictor: the symbol classes EOB, ZRL, RUNSIZE, ACRSVD, DCSIZE and DCRSVD,
`decodeBlock`, and the command DECODE_BLOCK (spec/43_block.md). -/

namespace Sys2Proof.Machine

/-- `COEF[k] <- v` (R34). -/
def setCoef (k : Nat) (v : Word) (s : State) : State := { s with coef := s.coef.setIfInBounds k v }

/-- All 64 entries of `COEF` set to 0 (R192). -/
def zeroCoef (s : State) : State := { s with coef := Vector.replicate 64 0#32 }

/-- The DC predictor's transition (R193): `PRED[c] <- wrap_32(PRED[c] + delta)`, and the new value is `COEF[0]`. -/
def storeDc (c : Fin 4) (delta : Int) (s : State) : State :=
  setCoef 0 (wrap32 (s.pred[c].toInt + delta))
    { s with pred := s.pred.set c (wrap32 (s.pred[c].toInt + delta)) }

/-- What a DC symbol of size `S` does (R193). -/
def dcsizeOp (c : Fin 4) (S : Fin 16) (s : State) : Res Unit :=
  if S = 0 then .ok () (storeDc c 0 s)
  else (nextBits S.val s).bind fun f s1 => .ok () (storeDc c (extend f S.val) s1)

/-- What a DC symbol above 15 does (R193). -/
def dcrsvdOp (s : State) : Res Unit := .raised .reservedSymbol s

/-- What EOB does (R195): the block ends, as at a running index of 64 (R194). -/
def eobOp (s : State) : Res Nat := .ok 64 s

/-- What ZRL does at running index `k` (R196, R199); the result is the new running index. -/
def zrlOp (k : Nat) (s : State) : Res Nat :=
  if k + 16 ≤ 64 then .ok (k + 16) s else .raised .coefIndexOverflow s

/-- What RUNSIZE does at running index `k` (R197, R199); the result is the new running index. -/
def runsizeOp (k : Nat) (R S : Fin 16) (s : State) : Res Nat :=
  if k + R.val ≤ 63 then
    (nextBits S.val s).bind fun f s1 => .ok (k + R.val + 1) (setCoef (k + R.val) (wrap32 (extend f S.val)) s1)
  else .raised .coefIndexOverflow s

/-- What a reserved AC symbol does (R198), whatever the running index is. -/
def acrsvdOp (s : State) : Res Nat := .raised .reservedSymbol s

/-- The DC step (R193): one DC symbol and what it does. -/
def dcStep (c : Fin 4) (s : State) : Res Unit :=
  (decodeSymbol (dcSel s c) s).bind fun sym s1 =>
    dcCases sym (fun S => dcsizeOp c S s1) (fun _ => dcrsvdOp s1)

/-- One AC symbol at running index `k` and what it does (R194). -/
def acStep (c : Fin 4) (k : Nat) (s : State) : Res Nat :=
  (decodeSymbol (acSel s c) s).bind fun sym s1 =>
    acCases sym (eobOp s1) (zrlOp k s1) (fun R S => runsizeOp k R S s1) (fun _ => acrsvdOp s1)

/-- The AC loop (R194). Every symbol but EOB raises `k`, so 63 turns are enough from `k = 1` on (R202). -/
def acLoop (c : Fin 4) : Nat → Nat → State → Res Unit
  | 0, _, s => .ok () s
  | turns + 1, k, s => if k ≤ 63 then (acStep c k s).bind fun k' s1 => acLoop c turns k' s1 else .ok () s

/-- Both tables of the channel are valid (R191). -/
def blockTablesValid (c : Fin 4) (s : State) : Bool := s.tbl[dcSel s c].valid && s.tbl[acSel s c].valid

/-- `decodeBlock(c)` (R191). -/
def decodeBlock (c : Fin 4) (s : State) : Res Unit :=
  if blockTablesValid c s then (dcStep c (zeroCoef s)).bind fun _ s1 => acLoop c 63 1 s1
  else .raised .badCommand s

/-- DECODE_BLOCK `c` (R201). -/
def execDecodeBlock (c : Fin 4) (s : State) : Host.Outcome State Fault Refusal := command anyState (decodeBlock c) s

/-- The block decoder acts upon an AC symbol, then waits for the next one unless the block has ended. -/
def onAc (op : Nat → State → Res Nat) (s : State) : Host.Outcome State Fault Refusal :=
  match s.unit with
  | .ac c k =>
    finish ((op k s).bind fun k' s1 => .ok () { s1 with unit := if k' ≤ 63 then .ac c k' else .idle })
  | .idle | .dc _ | .refill _ => .fault .codeOutsideUnit

/-- The block decoder acts upon a DC symbol, then waits for the first AC symbol. -/
def onDc (op : Fin 4 → State → Res Unit) (s : State) : Host.Outcome State Fault Refusal :=
  match s.unit with
  | .dc c => finish ((op c s).bind fun _ s1 => .ok () { s1 with unit := .ac c 1 })
  | .idle | .ac _ _ | .refill _ => .fault .codeOutsideUnit

/-- EOB (R195). -/
def execEob (s : State) : Host.Outcome State Fault Refusal := onAc (fun _ s => eobOp s) s

/-- ZRL (R196). -/
def execZrl (s : State) : Host.Outcome State Fault Refusal := onAc zrlOp s

/-- RUNSIZE (R197). -/
def execRunsize (R S : Fin 16) (s : State) : Host.Outcome State Fault Refusal := onAc (fun k s => runsizeOp k R S s) s

/-- ACRSVD (R198). -/
def execAcrsvd (_R : Fin 16) (s : State) : Host.Outcome State Fault Refusal := onAc (fun _ s => acrsvdOp s) s

/-- DCSIZE (R193). -/
def execDcsize (S : Fin 16) (s : State) : Host.Outcome State Fault Refusal := onDc (fun c s => dcsizeOp c S s) s

/-- DCRSVD (R193). -/
def execDcrsvd (_sym : Byte) (s : State) : Host.Outcome State Fault Refusal := onDc (fun _ s => dcrsvdOp s) s

end Sys2Proof.Machine
end

