-- ==== Sys2Proof/Machine/Loop.lean ====
section
/-! DEFINITION. The MCU loop and the housekeeping commands NOP, RESET, START_SCAN, RUN, PRED_RESET and RESYNC
(spec/44_loop_commands.md). -/

namespace Sys2Proof.Machine

/-- NOP (R221). -/
def execNop (s : State) : Host.Outcome State Fault Refusal := command anyState (fun s => .ok () s) s

/-- RESET (R222), the one command that acts in FAULT too (R273). -/
def execReset (s : State) : Host.Outcome State Fault Refusal := .next (resetEngine s)

/-- `PRED[c] <- 0` for every channel (R226). -/
def zeroPred (s : State) : State := { s with pred := Vector.replicate 4 0#32 }

/-- PRED_RESET (R226). -/
def execPredReset (s : State) : Host.Outcome State Fault Refusal := command anyState (fun s => .ok () (zeroPred s)) s

/-- RESYNC (R227): the cursor emptied and `EOE` cleared; `BITPOS` and `SRC_POS` stay. -/
def resyncCursor (s : State) : State := { emptyCursor s with eoe := false }

/-- RESYNC (R227). -/
def execResync (s : State) : Host.Outcome State Fault Refusal := command anyState (fun s => .ok () (resyncCursor s)) s

/-- What START_SCAN writes once its checks have passed (R223). -/
def beginScan (s : State) : State :=
  { clearCursor (zeroPred s) with
    mcuIdx := 0#32
    chIdx := 0
    blkIdx := 0
    out := []
    outCount := 0#32
    eoe := false
    mode := .active }

/-- START_SCAN's effect (R223). -/
def startScan (s : State) : Res Unit :=
  if numChLegal s ∧ s.mcuCount.toNat * blocksPerMcu s < 2 ^ 32 then .ok () (beginScan s) else .raised .badCommand s

/-- START_SCAN (R223). -/
def execStartScan (s : State) : Host.Outcome State Fault Refusal := command anyState startScan s

/-- The decoded block is appended to `OUT`, whole, and the next block is due (R225, R231). DESIGN CHOICE, log entry 22:
`OUT_COUNT` wraps modulo `2^32` where the host has raised the geometry after START_SCAN's check (R296), and `OUT` grows on. -/
def appendBlock (s : State) : State :=
  { s with out := s.out ++ [s.coef], outCount := s.outCount + 1#32, blkIdx := s.blkIdx + 1 }

/-- The block step (R225). -/
def blockStep (s : State) : Res Unit :=
  (topUp s).bind fun _ s1 =>
    if eof s1 then .raised .streamExhausted s1
    else (decodeBlock (Fin.ofNat 4 s1.chIdx) s1).bind fun _ s2 => .ok () (appendBlock s2)

/-- The next MCU is due (R228). -/
def nextMcu (s : State) : State := { s with mcuIdx := s.mcuIdx + 1#32, chIdx := 0, blkIdx := 0 }

/-- The next channel of this MCU is due (R228). -/
def nextChannel (s : State) : State := { s with chIdx := s.chIdx + 1, blkIdx := 0 }

/-- The loop of RUN (R228); the first argument bounds its turns. -/
def runLoop : Nat → State → Res Unit
  | 0, s => .ok () s
  | turns + 1, s =>
    if s.mcuIdx < s.mcuStop then
      if s.numCh.toNat ≤ s.chIdx then runLoop turns (nextMcu s)
      else if blocksOf s s.chIdx ≤ s.blkIdx then runLoop turns (nextChannel s)
      else (blockStep s).bind fun _ s1 => runLoop turns s1
    else .ok () s

/-- The most turns the loop takes (R303): `(MCU_STOP - MCU_IDX) * (B + NUM_CH + 1)`. -/
def runBound (s : State) : Nat :=
  (s.mcuStop.toNat - s.mcuIdx.toNat) * (blocksPerMcu s + s.numCh.toNat + 1)

/-- The end of RUN (R228): DONE when every MCU is decoded, else a pause in ACTIVE. -/
def endRun (s : State) : State := if s.mcuIdx = s.mcuCount then { s with mode := .done } else s

/-- RUN's effect (R228). -/
def runScan (s : State) : Res Unit :=
  if s.mcuStop ≤ s.mcuCount ∧ numChLegal s then
    (runLoop (runBound s) s).bind fun _ s1 => .ok () (endRun s1)
  else .raised .badCommand s

/-- RUN (R228), admitted in ACTIVE only. -/
def execRun (s : State) : Host.Outcome State Fault Refusal := command activeOnly runScan s

end Sys2Proof.Machine
end

