-- ==== Sys2Proof/Machine/Dispatch.lean ====
section
/-! DEFINITION. One arm per constructor of Instr, each one direct call of the instruction's meaning. -/

namespace Sys2Proof.Machine

def exec (i : Instr) (s : State) : Host.Outcome State Fault Refusal :=
  match i with
  | .nop => Sys2Proof.Machine.execNop s
  | .reset => Sys2Proof.Machine.execReset s
  | .clear => Sys2Proof.Machine.execClear s
  | .append x => Sys2Proof.Machine.execAppend x s
  | .nextbits n => Sys2Proof.Machine.execNextbits n s
  | .backbits n => Sys2Proof.Machine.execBackbits n s
  | .align => Sys2Proof.Machine.execAlign s
  | .loadTable sel => Sys2Proof.Machine.execLoadTable sel s
  | .decodeSym sel => Sys2Proof.Machine.execDecodeSym sel s
  | .refill => Sys2Proof.Machine.execRefill s
  | .decodeBlock c => Sys2Proof.Machine.execDecodeBlock c s
  | .startScan => Sys2Proof.Machine.execStartScan s
  | .run => Sys2Proof.Machine.execRun s
  | .predReset => Sys2Proof.Machine.execPredReset s
  | .resync => Sys2Proof.Machine.execResync s
  | .eob => Sys2Proof.Machine.execEob s
  | .zrl => Sys2Proof.Machine.execZrl s
  | .runsize r n => Sys2Proof.Machine.execRunsize r n s
  | .acrsvd r => Sys2Proof.Machine.execAcrsvd r s
  | .dcsize n => Sys2Proof.Machine.execDcsize n s
  | .dcrsvd sym => Sys2Proof.Machine.execDcrsvd sym s
  | .stuff => Sys2Proof.Machine.execStuff s
  | .eoi => Sys2Proof.Machine.execEoi s
  | .marker x => Sys2Proof.Machine.execMarker x s
  | .badesc => Sys2Proof.Machine.execBadesc s

end Sys2Proof.Machine
end

