-- ==== Sys2Proof/Machine/HostPort.lean ====
section
/-! DEFINITION. What a step is made of: the register window (spec/10_state.md R22, R23), the execution of a command word
(spec/44_loop_commands.md R220), the outside's accesses, and the fetch of a stream code by the unit that is at work. -/

namespace Sys2Proof.Machine

/-! ### The register window -/

/-- The registers of R22. -/
inductive Reg
  | cmd
  | status
  | err
  | errMcu
  | errLoc
  | result
  | mcuCount
  | mcuStop
  | numCh
  | chCfg (c : Fin 4)
  | mcuIdx
  | loopPos
  | outCount
  | pred (c : Fin 4)
  | curAvail
  | curBit
  | bitpos
  | srcPos
  | srcLen
  | tblValid
  /-- `TBL_CNT[L]` with `L = i + 1`. -/
  | tblCnt (i : Fin 16)
  | tblSym (i : Fin 256)
  | coef (k : Fin 64)
  deriving DecidableEq, Repr

/-- The byte offset of a register (R22). -/
def Reg.offset : Reg → Nat
  | .cmd => 0x000
  | .status => 0x004
  | .err => 0x008
  | .errMcu => 0x00C
  | .errLoc => 0x010
  | .result => 0x014
  | .mcuCount => 0x018
  | .mcuStop => 0x01C
  | .numCh => 0x020
  | .chCfg c => 0x024 + 4 * c.val
  | .mcuIdx => 0x034
  | .loopPos => 0x038
  | .outCount => 0x03C
  | .pred c => 0x040 + 4 * c.val
  | .curAvail => 0x050
  | .curBit => 0x054
  | .bitpos => 0x058
  | .srcPos => 0x05C
  | .srcLen => 0x060
  | .tblValid => 0x064
  | .tblCnt i => 0x080 + 4 * i.val
  | .tblSym i => 0x100 + 4 * i.val
  | .coef k => 0x500 + 4 * k.val

/-- The register at word index `j` of the window, that is at offset `4 * j`; the other words are unmapped (R22). -/
def regAtWord (j : Nat) : Option Reg :=
  if j < 9 then [.cmd, .status, .err, .errMcu, .errLoc, .result, .mcuCount, .mcuStop, .numCh][j]?
  else if j < 13 then some (.chCfg (Fin.ofNat 4 (j - 9)))
  else if j < 16 then [.mcuIdx, .loopPos, .outCount][j - 13]?
  else if j < 20 then some (.pred (Fin.ofNat 4 (j - 16)))
  else if j < 26 then [.curAvail, .curBit, .bitpos, .srcPos, .srcLen, .tblValid][j - 20]?
  else if j < 32 then none
  else if j < 48 then some (.tblCnt (Fin.ofNat 16 (j - 32)))
  else if j < 64 then none
  else if j < 320 then some (.tblSym (Fin.ofNat 256 (j - 64)))
  else if j < 384 then some (.coef (Fin.ofNat 64 (j - 320)))
  else none

/-- The register at a byte offset: offsets are multiples of 4 (R22, R66). -/
def regAt (offset : Nat) : Option Reg := if offset % 4 = 0 then regAtWord (offset / 4) else none

/-- The value a host read returns (R22 to R37). Reserved bits read as 0; `CMD` holds no value and reads as 0 (R25). -/
def readReg (s : State) : Reg → Word
  | .cmd => 0#32
  | .status => statusWord s
  | .err => s.err.setWidth 32
  | .errMcu => s.errMcu
  | .errLoc => s.errLoc.setWidth 32
  | .result => s.result
  | .mcuCount => s.mcuCount
  | .mcuStop => s.mcuStop
  | .numCh => s.numCh.setWidth 32
  | .chCfg c => s.chCfg[c].setWidth 32
  | .mcuIdx => s.mcuIdx
  | .loopPos => loopPosWord s
  | .outCount => s.outCount
  | .pred c => s.pred[c]
  | .curAvail => curAvailWord s
  | .curBit => curBitWord s
  | .bitpos => s.bitpos
  | .srcPos => s.srcPos
  | .srcLen => s.srcLen
  | .tblValid => tblValidWord s
  | .tblCnt i => s.tblCnt[i].setWidth 32
  | .tblSym i => s.tblSym[i].setWidth 32
  | .coef k => s.coef[k]

/-- What a host write does to the stored registers (R22, R23): a read/write register stores the bits of the width it
uses, a write to a read-only register is ignored. A write of `CMD` stores nothing; it is `executeWord`. -/
def writeReg (v : Word) (s : State) : Reg → State
  | .mcuCount => { s with mcuCount := v }
  | .mcuStop => { s with mcuStop := v }
  | .numCh => { s with numCh := v.setWidth 3 }
  | .chCfg c => { s with chCfg := s.chCfg.set c (v.setWidth 12) }
  | .srcPos => { s with srcPos := v }
  | .srcLen => { s with srcLen := v }
  | .tblCnt i => { s with tblCnt := s.tblCnt.set i (v.setWidth 8) }
  | .tblSym i => { s with tblSym := s.tblSym.set i (v.setWidth 8) }
  | .cmd | .status | .err | .errMcu | .errLoc | .result | .mcuIdx | .loopPos | .outCount | .pred _ | .curAvail
  | .curBit | .bitpos | .tblValid | .coef _ => s

/-! ### Commands -/

/-- Execution of a command word (R220): in FAULT an illegal word is ignored like any other but RESET (R273); elsewhere an
illegal word raises `BadCommand` (R83); a legal word is executed, its admission with it. -/
def executeWord (w : Word) (s : State) : Host.Outcome State Fault Refusal :=
  match decodeCmd w with
  | .ok i => exec i s
  | .error _ => command anyState (fun s => .raised .badCommand s) s

/-! ### The outside's accesses -/

/-- A host read (R23): the engine does not change, the value goes to the host. -/
def hostRead (w : Width) (offset : Nat) (s : State) : Host.Outcome State Fault Refusal :=
  match w, regAt offset with
  | .word, some r => .next { s with lastRead := readReg s r }
  | .word, none | .byte, _ | .half, _ => .refused .badRegisterAccess

/-- A host write (R23). -/
def hostWrite (w : Width) (offset : Nat) (v : Word) (s : State) : Host.Outcome State Fault Refusal :=
  match w, regAt offset with
  | .word, some r => if r = .cmd then executeWord v s else .next (writeReg v s r)
  | .word, none | .byte, _ | .half, _ => .refused .badRegisterAccess

/-- One access of the outside. A consumer's read is bounded by the blocks `OUT` holds; they are as many as `OUT_COUNT` says
but past `2^32 - 1` blocks (DESIGN CHOICE, log entries 16 and 22). -/
def perform (a : Access) (s : State) : Host.Outcome State Fault Refusal :=
  match a with
  | .read w offset => hostRead w offset s
  | .write w offset v => hostWrite w offset v s
  | .source bytes => .next { s with src := Memory.ofBytes 0 bytes }
  | .poke i v => .next { s with src := Memory.write s.src i.toNat v }
  | .readOut i k =>
    match s.out[i]? with
    | some b => if h : k < 64 then .next { s with lastRead := b[k] } else .refused .badOutIndex
    | none => .refused .badOutIndex
  | .hardwareReset => .next (resetEngine s)

/-! ### Stream codes -/

/-- A decoded symbol presented to the block decoder as an instruction. -/
def presentSymbol (toInstr : Byte → Instr) (r : Res Byte) : Host.Outcome State Fault Refusal :=
  match r with
  | .ok sym s => exec (toInstr sym) s
  | .raised e s => .next (raise e s)

/-- The refiller at work, with `left + 1` bytes it may still examine: an escape pair at `SRC_POS` is presented as an
instruction, anything else is what `refillTurn` does (R171, R172). -/
def refillerTurn (left : Nat) (s : State) : Host.Outcome State Fault Refusal :=
  if s.srcPos ≠ s.srcLen ∧ srcByte s s.srcPos = 0xFF#8 ∧ s.srcPos + 1#32 ≠ s.srcLen then
    exec (decodeEscByte (srcByte s (s.srcPos + 1#32))) s
  else
    finish ((refillTurn left s).bind fun next s1 =>
      .ok () { s1 with
        unit := match next with
          | some (l + 1) => .refill (l + 1)
          | some 0 | none => .idle })

/-- One turn of the unit that is at work: it fetches its next code and the code is executed. -/
def unitTurn (s : State) : Host.Outcome State Fault Refusal :=
  match s.unit with
  | .idle => .next s
  | .refill 0 => .next { s with unit := .idle }
  | .refill (left + 1) => refillerTurn left s
  | .dc c => presentSymbol decodeDc (decodeSymbol (dcSel s c) s)
  | .ac c _ => presentSymbol decodeAc (decodeSymbol (acSel s c) s)

/-- One turn of the outside: the next access of its script. With none left the engine waits (R290). -/
def hostTurn (s : State) : Host.Outcome State Fault Refusal :=
  match s.script with
  | [] => .next s
  | a :: rest => perform a { s with script := rest }

/-! ### Placing a code where the next step fetches it -/

/-- A host write of a command word as the next access. -/
def placeCommand (w : Word) (s : State) : State :=
  { s with unit := .idle, script := .write .word (Reg.offset .cmd) w :: s.script }

/-- A valid table whose only code is `0`, of length 1, for the given symbol. -/
def oneCodeTable (b : Nat) (sym : Byte) : Table :=
  { valid := true
    codes := [{ code := 0, len := 1, sym := sym }]
    tree := (insertAll b [{ code := 0, len := 1, sym := sym }]).getD .nil }

/-- A symbol as the next one the block decoder fetches through the table `sel`: the cursor holds the symbol's codeword and
zeros after it, so a magnitude field is all zeros (log entry 6). -/
def placeSymbol (sel : Fin 8) (sym : Byte) (u : Activity) (s : State) : State :=
  { setCursor [0#8, 0#8, 0#8] 0 (setTable sel (oneCodeTable s.params.aryLog2 sym) s) with unit := u }

/-- A pair of source bytes as the next ones the refiller examines (log entry 6). -/
def placeEscape (w : BitVec 16) (s : State) : State :=
  { s with
    src := Memory.write (Memory.write s.src s.srcPos.toNat (w.extractLsb' 8 8)) (s.srcPos + 1#32).toNat (w.extractLsb' 0 8)
    srcLen := s.srcPos + 2#32
    eoe := false
    unit := .refill 2 }

/-- A code placed where the next step fetches it: a command as the next host write, a symbol in the stream of channel 0,
an escape pair in the source. -/
def placeCode (c : Code) (s : State) : State :=
  match c with
  | .cmd w => placeCommand w s
  | .acSym b => placeSymbol (acSel s 0) b (.ac 0 1) s
  | .dcSym b => placeSymbol (dcSel s 0) b (.dc 0) s
  | .esc w => placeEscape w s

end Sys2Proof.Machine
end

