-- ==== Sys2Proof/Machine/Step.lean ====
section
/-! DEFINITION. The step. The engine takes a step only as the effect of an access from outside (spec/00_scope.md R7); the
one exception is a unit that is at work (`State.unit`), which fetches and acts upon its next stream code. -/

namespace Sys2Proof.Machine

/-- One step. -/
def step (s : State) : Host.Outcome State Fault Refusal :=
  match s.unit with
  | .idle => hostTurn s
  | .refill _ | .dc _ | .ac _ _ => unitTurn s

/-- `s` with a table word of `nbits` bits placed where the next step fetches its instruction. -/
def State.withFetchWord (s : State) (nbits w : Nat) : State :=
  match codeOfTableWord nbits w with
  | some c => placeCode c s
  | none => s

end Sys2Proof.Machine
end

