-- ==== Sys2Proof/Machine/Stream.lean ====
section
/-! DEFINITION. The streams as the spec describes them beside the operations: bit strings (spec/00_scope.md R10), the destuffed
sequence (spec/42_refiller.md R181), the grammar of a block (spec/30_encoding.md R91) and the nesting order of the
loop (spec/44_loop_commands.md R224). -/

namespace Sys2Proof.Machine

/-! ### Bit strings -/

/-- `v` written as `n` bits, the most significant first. -/
def bitsOf : Nat → Nat → List Bool
  | 0, _ => []
  | n + 1, v => v.testBit n :: bitsOf n v

/-- The bit string of a byte sequence (R10). -/
def byteBits (bs : List Byte) : List Bool := bs.flatMap fun x => bitsOf 8 x.toNat

/-- The unread bits of the cursor, from `CUR.pos` to the write end. -/
def unreadBits (s : State) : List Bool := (byteBits s.curData).drop s.curPos

/-- The codeword of a triple: `code` written as `len` bits (R141). -/
def codeBits (e : CodeEntry) : List Bool := bitsOf e.len e.code

/-- The unread part of the cursor's bytes, from the one that holds the read position on. -/
def tailBytes (s : State) : List Byte := s.curData.drop (s.curPos / 8)

/-! ### The laws of the cursor (R122) -/

/-- An append or a read. -/
inductive CursorOp
  | put (bs : List Byte)
  | take (n : Nat)
  deriving DecidableEq, Repr

/-- The bits the reads of a sequence return, each chunk written as exactly `n` bits, and the state at the end; `none` where
an operation faults. -/
def runOps : List CursorOp → State → Option (List Bool × State)
  | [], s => some ([], s)
  | .put bs :: rest, s =>
    match append bs s with
    | .ok _ s1 => runOps rest s1
    | .raised _ _ => none
  | .take n :: rest, s =>
    match nextBits n s with
    | .ok v s1 => (runOps rest s1).map fun (bits, s2) => (bitsOf n v ++ bits, s2)
    | .raised _ _ => none

/-- All the bytes a sequence appends. -/
def putBytes : List CursorOp → List Byte
  | [] => []
  | .put bs :: rest => bs ++ putBytes rest
  | .take _ :: rest => putBytes rest

/-! ### The destuffed sequence (R181) -/

/-- Why a destuffed sequence ends (R181). -/
inductive SourceEnd
  | sourceEnd
  | marker
  | malformed
  deriving DecidableEq, Repr

/-- `destuff(SRC, i)` (R181) over the source bytes from index `i` on: the data bytes, the index where they end, and why. -/
def destuffBytes : List Byte → Nat → List Byte × Nat × SourceEnd
  | [], i => ([], i, .sourceEnd)
  | [x], i => if x = 0xFF#8 then ([], i, .sourceEnd) else ([x], i + 1, .sourceEnd)
  | x :: y :: rest, i =>
    if x = 0xFF#8 then
      if y = 0x00#8 then
        (0xFF#8 :: (destuffBytes rest (i + 2)).1, (destuffBytes rest (i + 2)).2)
      else if isMarker y then ([], i, .marker)
      else ([], i, .malformed)
    else (x :: (destuffBytes (y :: rest) (i + 1)).1, (destuffBytes (y :: rest) (i + 1)).2)

/-- The source bytes at the indices `i` to `i + n - 1`. -/
def sourceBytes (m : Memory) : Nat → Nat → List Byte
  | _, 0 => []
  | i, n + 1 => Memory.read m i :: sourceBytes m (i + 1) n

/-- `destuff(SRC, SRC_POS)` (R181). -/
def destuff (s : State) : List Byte × Nat × SourceEnd :=
  destuffBytes (sourceBytes s.src s.srcPos.toNat (s.srcLen.toNat - s.srcPos.toNat)) s.srcPos.toNat

/-- Several refill batches one after another. -/
def refills : Nat → State → Res Unit
  | 0, s => .ok () s
  | n + 1, s => (refill s).bind fun _ s1 => refills n s1

/-! ### The grammar of a block (R91) -/

/-- An AC item of a block other than EOB: its codeword, and its magnitude field (0 for ZRL). -/
structure AcItem where
  entry : CodeEntry
  field : Nat
  deriving DecidableEq, Repr

/-- The bits of an AC item (R91): the codeword, then for RUNSIZE the `S` bits of the magnitude field. -/
def AcItem.bits (t : AcItem) : List Bool :=
  codeBits t.entry ++ acCases t.entry.sym [] [] (fun _ S => bitsOf S.val t.field) (fun _ => [])

/-- The running index and the coefficients after an AC item met at index `k` (R91, R199); `none` where the item is not
legal there. -/
def AcItem.effect (t : AcItem) (k : Nat) (coef : Block) : Option (Nat × Block) :=
  acCases t.entry.sym none
    (if k + 16 ≤ 64 then some (k + 16, coef) else none)
    (fun R S =>
      if k + R.val ≤ 63 ∧ t.field < 2 ^ S.val then
        some (k + R.val + 1, coef.setIfInBounds (k + R.val) (wrap32 (extend t.field S.val)))
      else none)
    (fun _ => none)

/-- The AC items of a block in order, each met at an index of at most 63. -/
def acEffect : List AcItem → Nat → Block → Option (Nat × Block)
  | [], k, coef => some (k, coef)
  | t :: rest, k, coef =>
    if k ≤ 63 then
      match t.effect k coef with
      | some (k', coef') => acEffect rest k' coef'
      | none => none
    else none

/-- The text of one block (R91). -/
structure BlockText where
  dc : CodeEntry
  /-- The DC magnitude field; 0 when the size is 0. -/
  dcField : Nat
  items : List AcItem
  /-- The EOB codeword, or `none` for a block that ends at index 64. -/
  eob : Option CodeEntry
  deriving DecidableEq, Repr

/-- The bits of a block in the order they are read (R91). -/
def BlockText.bits (t : BlockText) : List Bool :=
  codeBits t.dc ++ bitsOf (sizeField t.dc.sym).val t.dcField ++ t.items.flatMap AcItem.bits ++
  (match t.eob with
    | some e => codeBits e
    | none => [])

/-- The DC difference of a block (R89, R193). -/
def BlockText.delta (t : BlockText) : Int :=
  if sizeField t.dc.sym = 0 then 0 else extend t.dcField (sizeField t.dc.sym).val

/-- The 64 coefficients a block stands for, with a previous predictor `p`, over a DC and an AC code (R91 to R199); `none`
where the text is no block over them. -/
def BlockText.meaning (t : BlockText) (dcCodes acCodes : List CodeEntry) (p : Word) : Option Block :=
  if t.dc ∈ dcCodes ∧ t.dc.sym.toNat ≤ 15 ∧ t.dcField < 2 ^ (sizeField t.dc.sym).val ∧
      (∀ i ∈ t.items, i.entry ∈ acCodes) then
    match acEffect t.items 1 ((Vector.replicate 64 0#32).set 0 (wrap32 (p.toInt + t.delta))) with
    | some (k, coef) =>
      match t.eob with
      | some e => if e ∈ acCodes ∧ e.sym = 0#8 ∧ k ≤ 63 then some coef else none
      | none => if k = 64 then some coef else none
    | none => none
  else none

/-! ### The nesting order of the loop (R224) -/

/-- The blocks of one MCU: channel by channel, and within a channel block by block (R224). -/
def mcuBlocks (s : State) : List (Nat × Nat) :=
  (List.range s.numCh.toNat).flatMap fun c => (List.range (blocksOf s c)).map fun j => (c, j)

/-- Block steps at the given coordinates in order. -/
def runBlocks : List (Nat × Nat) → State → Res Unit
  | [], s => .ok () s
  | (c, j) :: rest, s => (blockStep { s with chIdx := c, blkIdx := j }).bind fun _ s1 => runBlocks rest s1

/-- The blocks of `n` MCUs in order, the coordinates at the start of the next MCU after each. -/
def runMcus : Nat → State → Res Unit
  | 0, s => .ok () s
  | n + 1, s => (runBlocks (mcuBlocks s) s).bind fun _ s1 => runMcus n (nextMcu s1)

end Sys2Proof.Machine
end

