-- ==== Sys2Proof/Machine/Implementation.lean ====
section
/-! DEFINITION. The implementation forms the spec describes beside its contracts: the big-endian word load and the position pair
of the cursor (spec/40_bitcursor.md R113, R116), its physical buffer (R121), and the decoder's read-ahead
(spec/41_huffman.md R155). No meaning of an instruction reads them; statements compare them with the contracts. -/

namespace Sys2Proof.Machine

/-! ### The word load of a cursor read (R62, R113) -/

/-- `kB` bytes from byte `B` on as one big-endian number. -/
def loadWord (d : List Byte) (B : Nat) : Nat → Nat
  | 0 => 0
  | k + 1 => 256 * loadWord d B k + (d.getD (B + k) 0#8).toNat

/-- `kB = ceil((o + n) / 8)`, the bytes a read of `n` bits spans (R67, R113). -/
def bytesSpanned (pos n : Nat) : Nat := (pos % 8 + n + 7) / 8

/-- The value of a read of `n` bits by the word load: `(W mod 2^(8*kB - o)) >> (8*kB - o - n)` (R113). -/
def wordRead (d : List Byte) (pos n : Nat) : Nat :=
  loadWord d (pos / 8) (bytesSpanned pos n) % 2 ^ (8 * bytesSpanned pos n - pos % 8)
    / 2 ^ (8 * bytesSpanned pos n - pos % 8 - n)

/-! ### The position pair (R116) -/

/-- The pair (byte offset, bit offset) after a step back of `n` bits, with the borrow across the byte boundary: the bit
offset is `(o - n) mod 8`, the byte offset falls by `ceil((n - o) / 8)` when `n > o` (R116). -/
def pairBack (B o n : Nat) : Nat × Nat :=
  (if o < n then B - (n - o + 7) / 8 else B, (((o : Int) - (n : Int)) % 8).toNat)

/-! ### The physical buffer (R121) -/

/-- A physical array, the first byte still retained, the read offset and the write end (R39 (a), R121). -/
structure PhysCursor where
  bytes : List Byte
  first : Nat
  readByte : Nat
  readBit : Nat
  writeEnd : Nat
  deriving DecidableEq, Repr

/-- The document's invariants: `0 <= bitOffset < 8`, `readByteOffset <= writeEndOffset <= capacity`, and no bit beyond the
write end is passed (R31, R110). -/
abbrev PhysCursor.ok (p : PhysCursor) : Prop :=
  p.first ≤ p.readByte ∧ p.readBit < 8 ∧ 8 * p.readByte + p.readBit ≤ 8 * p.writeEnd ∧ p.writeEnd ≤ p.bytes.length

/-- The architectural `CUR.data` of a physical state (R121). -/
def PhysCursor.data (p : PhysCursor) : List Byte := (p.bytes.take p.writeEnd).drop p.first

/-- The architectural `CUR.pos` of a physical state (R121). -/
def PhysCursor.pos (p : PhysCursor) : Nat := 8 * (p.readByte - p.first) + p.readBit

/-- What an implementation may do at an append (R121): write in place, move the unread tail to offset 0 first, or allocate a
larger array, whose spare bytes hold anything, and move the tail there. -/
inductive Placement
  | inPlace
  | compact
  | grow (spare : List Byte)
  deriving DecidableEq, Repr

/-- The unread tail of a physical state, the partly read byte included. -/
def PhysCursor.tailBytes (p : PhysCursor) : List Byte := (p.bytes.take p.writeEnd).drop p.readByte

/-- An append on the physical buffer (R121); `none` where the chosen placement has no room. -/
def PhysCursor.append (how : Placement) (bs : List Byte) (p : PhysCursor) : Option PhysCursor :=
  match how with
  | .inPlace =>
    if p.writeEnd + bs.length ≤ p.bytes.length then
      some { p with
        bytes := p.bytes.take p.writeEnd ++ bs ++ p.bytes.drop (p.writeEnd + bs.length)
        first := p.readByte
        writeEnd := p.writeEnd + bs.length }
    else none
  | .compact =>
    if p.tailBytes.length + bs.length ≤ p.bytes.length then
      some
        { bytes := p.tailBytes ++ bs ++ p.bytes.drop (p.tailBytes.length + bs.length)
          first := 0
          readByte := 0
          readBit := p.readBit
          writeEnd := p.tailBytes.length + bs.length }
    else none
  | .grow spare =>
    some
      { bytes := p.tailBytes ++ bs ++ spare
        first := 0
        readByte := 0
        readBit := p.readBit
        writeEnd := p.tailBytes.length + bs.length }

/-! ### The decoder's read-ahead (R155) -/

/-- `decode` by a read-ahead of `min(25, avail)` bits: the bits are pulled, a codeword is looked for among them, and every bit
that was pulled and not consumed is given back (R155). -/
def decodeAhead (sel : Fin 8) (s : State) : Res Byte :=
  if s.tbl[sel].valid then
    let m := min nbitsMax (avail s)
    (if m = 0 then Res.ok 0 s else nextBits m s).bind fun v s1 =>
      match s.tbl[sel].codes.find? fun e => decide (e.len ≤ m) && decide (v / 2 ^ (m - e.len) = e.code) with
      | some e => (backBits (m - e.len) s1).bind fun _ s2 => .ok e.sym s2
      | none =>
        if s.tbl[sel].codes.any fun e => decide (m < e.len) && decide (v = e.code / 2 ^ (e.len - m)) then
          .raised .streamExhausted s
        else .raised .huffmanLookupFailed s
  else .raised .badCommand s

end Sys2Proof.Machine
end

