-- ==== Sys2Proof/Machine/Script.lean ====
section
/-! DEFINITION. Host scripts: the statements and pseudo-instructions of spec/30_encoding.md R93 and R94, their expansion into
accesses, their encoding, and when a script passes (spec/70_reset_and_hazards.md R293). -/

namespace Sys2Proof.Machine

/-- One statement of a host script (R93, R94). DESIGN CHOICE, log entry 23: a byte, a selector or a channel is an operand in its range
(R81), so there is no statement APPEND 256, LOAD_TABLE 8, DECODE_SYM 8, DECODE_BLOCK 4, TABLE 8 or CHAN 4; a bit count is any
number. The word such a mnemonic would be is written by `wr .cmd`. -/
inductive Stmt
  /-- `.src`: the source space holds these bytes. -/
  | src (bytes : List Byte)
  /-- `WR register, value`. -/
  | wr (r : Reg) (v : Word)
  /-- `RD register => expected`. -/
  | rd (r : Reg) (expected : Word)
  /-- A command mnemonic with its argument. -/
  | command (i : Instr)
  /-- `TABLE s, counts, symbols`. -/
  | table (sel : Fin 8) (counts syms : List Byte)
  /-- `CHAN c, blocks, dc, ac`. -/
  | chan (c : Fin 4) (blocks dc ac : Nat)
  /-- `SOURCE pos, len`. -/
  | source (pos len : Word)
  deriving DecidableEq, Repr

/-- A host write of a register, as an access. -/
def writeAccess (r : Reg) (v : Word) : Access := .write .word r.offset v

/-- `OP` and the argument of a command mnemonic (R81, R94); a stream code has none (R95). -/
def commandParts : Instr → Option (Nat × Nat)
  | .nop => some (0x00, 0)
  | .reset => some (0x01, 0)
  | .clear => some (0x02, 0)
  | .append x => some (0x03, x.toNat)
  | .nextbits n => some (0x04, n)
  | .backbits n => some (0x05, n)
  | .align => some (0x06, 0)
  | .loadTable sel => some (0x07, sel.val)
  | .decodeSym sel => some (0x08, sel.val)
  | .refill => some (0x09, 0)
  | .decodeBlock c => some (0x0A, c.val)
  | .startScan => some (0x0B, 0)
  | .run => some (0x0C, 0)
  | .predReset => some (0x0D, 0)
  | .resync => some (0x0E, 0)
  | .eob | .zrl | .runsize _ _ | .acrsvd _ | .dcsize _ | .dcrsvd _ | .stuff | .eoi | .marker _ | .badesc => none

/-- The write of `CMD` a command mnemonic stands for, `WR CMD, OP + (arg << 8)` (R94). The sum is not cut to the 16 bits of `OP` and
`ARG`, so an argument too large for `ARG` sets reserved bits and the word is illegal (R83). DESIGN CHOICE, log entry 23: a
sum that 32 bits do not hold is written modulo `2^32`. -/
def commandAccess (i : Instr) : List Access :=
  match commandParts i with
  | some (op, arg) => [writeAccess .cmd (BitVec.ofNat 32 (op + arg * 2 ^ 8))]
  | none => []

/-- The writes of the counts of a table definition, in increasing length (R94). DESIGN CHOICE, log entry 23: with other than 16
counts, missing ones are 0 and the rest is left out. -/
def countWrites (counts : List Byte) : List Access :=
  (List.finRange 16).map fun i => writeAccess (.tblCnt i) ((counts.getD i.val 0#8).setWidth 32)

/-- The writes of the symbols of a table definition, in increasing index (R94). DESIGN CHOICE, log entry 23: symbols past the
256th are left out. -/
def symbolWrites (syms : List Byte) : List Access :=
  (syms.zipIdx.take 256).map fun (y, i) => writeAccess (.tblSym (Fin.ofNat 256 i)) (y.setWidth 32)

/-- The expansion of a statement (R94). The `CHAN` sum is the rule's own, whatever the operands. DESIGN CHOICE, log entry 23: a sum
that 32 bits do not hold is written modulo `2^32`. -/
def Stmt.expand : Stmt → List Access
  | .src bytes => [.source bytes]
  | .wr r v => [writeAccess r v]
  | .rd r _ => [.read .word r.offset]
  | .command i => commandAccess i
  | .table sel counts syms => countWrites counts ++ symbolWrites syms ++ commandAccess (.loadTable sel)
  | .chan c blocks dc ac => [writeAccess (.chCfg c) (BitVec.ofNat 32 (blocks + dc * 2 ^ 8 + ac * 2 ^ 10))]
  | .source pos len => [writeAccess .srcPos pos, writeAccess .srcLen len]

/-- The encoding of a script: its writes as pairs (offset, value); reads and `.src` have none (R93). -/
def encodeScript (script : List Stmt) : List (Nat × Word) :=
  (script.flatMap Stmt.expand).filterMap fun
    | .write _ offset v => some (offset, v)
    | .read _ _ | .source _ | .poke _ _ | .readOut _ _ | .hardwareReset => none

/-- The accesses performed in order; `none` where the model stops. -/
def performAll : List Access → State → Option State
  | [], s => some s
  | a :: rest, s =>
    match perform a s with
    | .next s' => performAll rest s'
    | .fault _ | .refused _ => none

/-- The state a script ends in, when every `RD` returned the value written after `=>` (R293). -/
def runScript : List Stmt → State → Option State
  | [], s => some s
  | st :: rest, s =>
    match performAll st.expand s with
    | some s' =>
      match st with
      | .rd _ expected => if s'.lastRead = expected then runScript rest s' else none
      | .src _ | .wr _ _ | .command _ | .table _ _ _ | .chan _ _ _ _ | .source _ _ => runScript rest s'
    | none => none

end Sys2Proof.Machine
end

