-- ==== Sys2Proof/Safety.lean ====
section
/-! DEFINITION. What holds of the machine between two steps: the invariants the spec states of each element, gathered in
`Inv`, and the terms the statements use. -/

namespace Sys2Proof.Machine

/-- The bytes from the one at the far end of the rewind window to the write end: what `tail` can grow back to when the read
position moves back (R31, R116). -/
def window (s : State) : Nat := s.curData.length - (s.curPos - s.curBackable) / 8

/-- `CUR.backable <= CUR.pos <= 8*len` and `tail <= CAP_MAX` (R31), the latter wherever in the rewind window the read position
is put back to (DEDUCED from R111 and R116, so that a step keeps it). -/
abbrev cursorOk (s : State) : Prop :=
  s.curBackable ≤ s.curPos ∧ s.curPos ≤ 8 * s.curData.length ∧ tail s ≤ s.params.capMax ∧ window s ≤ s.params.capMax

/-- The codeword `a` is a beginning of the codeword `b`, or equal to it (R147 (a)). -/
abbrev begins (a b : CodeEntry) : Prop := a.len ≤ b.len ∧ b.code / 2 ^ (b.len - a.len) = a.code

/-- A triple in range: `1 <= len <= 16`, `0 <= code < 2^len` (R37). -/
abbrev entryOk (e : CodeEntry) : Prop := 1 ≤ e.len ∧ e.len ≤ lenMax ∧ e.code < 2 ^ e.len

/-- At most 256 triples in range, no codeword a beginning of another (R37, R147 (a)). -/
abbrev codesOk (codes : List CodeEntry) : Prop :=
  codes.length ≤ nSymMax ∧ (∀ e ∈ codes, entryOk e) ∧ codes.Pairwise fun a b => ¬ begins a b ∧ ¬ begins b a

/-- A table of the store: when it is valid, its codes are in order and its tree is the one R145 builds from them (R37). -/
abbrev tableOk (b : Nat) (t : Table) : Prop :=
  t.valid = true → codesOk t.codes ∧ insertAll b t.codes = some t.tree

/-- Between two commands the loop stands at the first block of an MCU unless a fault is recorded, and the fields of
`LOOP_POS` hold the coordinates (R228). -/
abbrev coordinatesOk (s : State) : Prop :=
  s.chIdx < 4 ∧ s.blkIdx < 256 ∧ (s.mode ≠ .fault → s.chIdx = 0 ∧ s.blkIdx = 0)

/-- A fault code is recorded exactly in FAULT, and it is one of 1 to 8 (R26, R27, R260). -/
abbrev errOk (s : State) : Prop := (s.mode = .fault ↔ s.err ≠ 0#8) ∧ s.err.toNat ≤ 8

/-- The AC coefficients lie in `-32767 .. 32767` (R34). -/
abbrev coefOk (s : State) : Prop := ∀ k : Fin 64, k ≠ 0 → -32767 ≤ s.coef[k].toInt ∧ s.coef[k].toInt ≤ 32767

/-- No unit is at work in FAULT, and the block decoder waits for an AC symbol only at an index of 1 to 63 (R194, R270). -/
abbrev unitOk (s : State) : Prop :=
  (s.mode = .fault → s.unit = .idle) ∧ ∀ c k, s.unit = .ac c k → 1 ≤ k ∧ k ≤ 63

/-- The invariant of the machine. -/
structure Inv (s : State) : Prop where
  params : s.params.ok
  source : Memory.wf s.src = true
  cursor : cursorOk s
  tables : ∀ sel : Fin 8, tableOk s.params.aryLog2 s.tbl[sel]
  coordinates : coordinatesOk s
  err : errOk s
  coef : coefOk s
  outCount : s.outCount = BitVec.ofNat 32 s.out.length
  unit : unitOk s

/-- The instructions the host writes to `CMD` (R81). -/
def isCommand : Instr → Bool
  | .nop | .reset | .clear | .append _ | .nextbits _ | .backbits _ | .align | .loadTable _ | .decodeSym _ | .refill
  | .decodeBlock _ | .startScan | .run | .predReset | .resync => true
  | .eob | .zrl | .runsize _ _ | .acrsvd _ | .dcsize _ | .dcrsvd _ | .stuff | .eoi | .marker _ | .badesc => false

/-- Whether a next access resets the engine: hardware reset, or the command word `0x00000001` (R272, R273, R290). -/
def isReset : Access → Bool
  | .hardwareReset => true
  | .write w offset v => decide (w = .word) && decide (offset = 0) && decide (v = 0x00000001#32)
  | .read _ _ | .source _ | .poke _ _ | .readOut _ _ => false

/-- The next access of the outside resets the engine. -/
abbrev resets (s : State) : Prop := ∃ a rest, s.script = a :: rest ∧ isReset a = true

/-- `n` turns of the unit at work, none once it has come to rest. -/
def unitTurns : Nat → State → Host.Outcome State Fault Refusal
  | 0, s => .next s
  | n + 1, s =>
    if s.unit = .idle then .next s
    else match unitTurn s with
      | .next s1 => unitTurns n s1
      | .fault f => .fault f
      | .refused r => .refused r

/-- The offsets of the table of R22: multiples of 4 in its five ranges. -/
abbrev mappedOffset (o : Nat) : Prop :=
  o % 4 = 0 ∧ (o ≤ 0x064 ∨ (0x080 ≤ o ∧ o ≤ 0x0BC) ∨ (0x100 ≤ o ∧ o ≤ 0x4FC) ∨ (0x500 ≤ o ∧ o ≤ 0x5FC))

/-- The bits a read/write register stores, the "width used" of R22; `none` for the read-only registers and `CMD`. -/
def storedBits : Reg → Option Word
  | .mcuCount | .mcuStop | .srcPos | .srcLen => some 0xFFFFFFFF#32
  | .numCh => some 0x7#32
  | .chCfg _ => some 0xFFF#32
  | .tblCnt _ | .tblSym _ => some 0xFF#32
  | .cmd | .status | .err | .errMcu | .errLoc | .result | .mcuIdx | .loopPos | .outCount | .pred _ | .curAvail
  | .curBit | .bitpos | .tblValid | .coef _ => none

/-- `s` with the cursor moved forward by `n` bits, nothing else changed. -/
abbrev movedOn (n : Nat) (s : State) : State :=
  { s with curPos := s.curPos + n, curBackable := s.curBackable + n, bitpos := s.bitpos + BitVec.ofNat 32 n }

/-- `t` is `s` with the bytes `D` appended to the cursor, and nothing else changed but `SRC_POS` and `EOE`: with no byte to append the
cursor is as before; else the whole consumed bytes are dropped, the read position stays inside its byte, and the rewind
window is closed (R111, R297). -/
abbrev refilled (D : List Byte) (s t : State) : Prop :=
  tailBytes t = tailBytes s ++ D ∧
  t = { s with
    curData := if D = [] then s.curData else s.curData.drop (s.curPos / 8) ++ D
    curPos := if D = [] then s.curPos else s.curPos % 8
    curBackable := if D = [] then s.curBackable else 0
    srcPos := t.srcPos, eoe := t.eoe }

/-- Everything a fault entry writes and everything decoding a block writes, put back as in `s`: what is left of `t` is what
neither of the two writes. -/
abbrev restoreBlockWrites (s t : State) : State :=
  { t with
    coef := s.coef, pred := s.pred, curPos := s.curPos, curBackable := s.curBackable, bitpos := s.bitpos
    mode := s.mode, err := s.err, errMcu := s.errMcu, errLoc := s.errLoc, unit := s.unit }

/-- What a scan computes, as far as R232 lists it: the output, the coefficients, the predictors, the loop coordinates,
`BITPOS`, the state and the fault registers. -/
abbrev sameScanResult (t u : State) : Prop :=
  t.out = u.out ∧ t.outCount = u.outCount ∧ t.coef = u.coef ∧ t.pred = u.pred ∧ t.mcuIdx = u.mcuIdx ∧
  t.chIdx = u.chIdx ∧ t.blkIdx = u.blkIdx ∧ t.bitpos = u.bitpos ∧ t.mode = u.mode ∧ t.err = u.err ∧
  t.errMcu = u.errMcu ∧ t.errLoc = u.errLoc

/-- `MCU_IDX * B + (the blocks of the channels before CH_IDX) + BLK_IDX` (R30). -/
def loopCount (s : State) : Nat :=
  s.mcuIdx.toNat * blocksPerMcu s + ((List.range s.chIdx).map (blocksOf s)).sum + s.blkIdx

/-- The instructions that write `RESULT` (R28), RESET apart. -/
def writesResult : Instr → Bool
  | .nextbits _ | .decodeSym _ => true
  | .nop | .reset | .clear | .append _ | .backbits _ | .align | .loadTable _ | .refill | .decodeBlock _ | .startScan
  | .run | .predReset | .resync | .eob | .zrl | .runsize _ _ | .acrsvd _ | .dcsize _ | .dcrsvd _ | .stuff | .eoi
  | .marker _ | .badesc => false

/-- The instructions that write a predictor (R33), RESET apart. -/
def writesPred : Instr → Bool
  | .decodeBlock _ | .startScan | .run | .predReset | .dcsize _ => true
  | .nop | .reset | .clear | .append _ | .nextbits _ | .backbits _ | .align | .loadTable _ | .decodeSym _ | .refill
  | .resync | .eob | .zrl | .runsize _ _ | .acrsvd _ | .dcrsvd _ | .stuff | .eoi | .marker _ | .badesc => false

/-- The instructions that write `COEF` (R34), RESET apart. -/
def writesCoef : Instr → Bool
  | .decodeBlock _ | .run | .runsize _ _ | .dcsize _ => true
  | .nop | .reset | .clear | .append _ | .nextbits _ | .backbits _ | .align | .loadTable _ | .decodeSym _ | .refill
  | .startScan | .predReset | .resync | .eob | .zrl | .acrsvd _ | .dcrsvd _ | .stuff | .eoi | .marker _ | .badesc => false

/-- The instructions that read the source, and so move `SRC_POS` or set `EOE` (R35, R60), RESET apart. -/
def readsSource : Instr → Bool
  | .refill | .run | .stuff | .eoi | .marker _ => true
  | .nop | .reset | .clear | .append _ | .nextbits _ | .backbits _ | .align | .loadTable _ | .decodeSym _
  | .decodeBlock _ | .startScan | .predReset | .resync | .eob | .zrl | .runsize _ _ | .acrsvd _ | .dcsize _ | .dcrsvd _
  | .badesc => false

end Sys2Proof.Machine
end

