-- ==== Sys2Proof/Certificates/Slice0/Obligations.lean ====
section
/-! DEFINITION. The statements for the provers. Each docstring says which rule of the spec it formalises. -/

open Sys2Proof
open Sys2Proof.Machine

/-! ### Encoding and the step -/

/-- R80 to R90: decoding the code of a well-formed instruction gives the instruction back, every operand at every value. -/
def Obligations.DecodeOfEncodeIsIdentity : Prop :=
  ∀ i : Instr, i.wf = true → decode (encode i) = .ok i

/-- R80 to R90: a code that decodes is the code of the instruction it decodes to, and that instruction is well formed. So no
two codes of one format have one meaning and no bit of a code is ignored. -/
def Obligations.DecodedCodeIsTheEncoding : Prop :=
  ∀ (c : Code) (i : Instr), decode c = .ok i → i.wf = true ∧ encode i = c

/-- R81, R88, R90: sample codes, each written out from the spec's encoding, decode to the instruction they stand for. -/
def Obligations.SampleCodesDecode : Prop :=
  decode (.cmd 0x00000000#32) = .ok .nop ∧
  decode (.cmd 0x0000A503#32) = .ok (.append 0xA5#8) ∧
  decode (.cmd 0x00001904#32) = .ok (.nextbits 25) ∧
  decode (.cmd 0x00000005#32) = .ok (.backbits 0) ∧
  decode (.cmd 0x00000507#32) = .ok (.loadTable 5) ∧
  decode (.cmd 0x0000030A#32) = .ok (.decodeBlock 3) ∧
  decode (.cmd 0x0000000C#32) = .ok .run ∧
  decode (.cmd 0x00001A04#32) = .error .badArgument ∧
  decode (.acSym 0x23#8) = .ok (.runsize 2 3) ∧
  decode (.acSym 0xE0#8) = .ok (.acrsvd 14) ∧
  decode (.dcSym 0x0F#8) = .ok (.dcsize 15) ∧
  decode (.esc 0xFFD0#16) = .ok (.marker 0xD0#8)

/-- R83: the illegal command words are exactly those listed. Outside FAULT an illegal word is `BadCommand` and does nothing else;
in FAULT it is ignored; every other word decodes. -/
def Obligations.IllegalCommandWords : Prop :=
  ∀ (w : Word) (s : State),
    let op := w.toNat % 256
    let arg := w.toNat / 256 % 256
    let illegal := w.toNat / 65536 ≠ 0 ∨ 0x0F ≤ op ∨ (op = 0x04 ∧ (arg = 0 ∨ 25 < arg)) ∨ (op = 0x05 ∧ 25 < arg) ∨
      ((op = 0x07 ∨ op = 0x08) ∧ 7 < arg) ∨ (op = 0x0A ∧ 3 < arg) ∨
      ((op < 0x03 ∨ op = 0x06 ∨ op = 0x09 ∨ (0x0B ≤ op ∧ op ≤ 0x0E)) ∧ arg ≠ 0)
    (illegal → s.mode ≠ .fault → executeWord w s = .next (raise .badCommand s)) ∧
    (illegal → s.mode = .fault → executeWord w s = .next s) ∧
    (¬ illegal → ∃ i, decodeCmd w = .ok i)

/-- R7, R23, R25: a step runs the decoded instruction. With no unit at work and a write of a command word as the next access, the
step is `exec` of the instruction the word decodes to, the access being used up. With a unit at work (log entry 4) the
step is `exec` of the stream code the unit fetches, in the state after the fetch. -/
def Obligations.StepRunsDecodedInstruction : Prop :=
  (∀ (s : State) (w : Word) (rest : List Access) (i : Instr),
    s.unit = .idle → s.script = .write .word 0 w :: rest → decodeCmd w = .ok i →
    step s = exec i { s with script := rest }) ∧
  (∀ (s t : State) (c : Fin 4) (sym : Byte),
    s.unit = .dc c → decodeSymbol (dcSel s c) s = .ok sym t → step s = exec (decodeDc sym) t) ∧
  (∀ (s t : State) (c : Fin 4) (k : Nat) (sym : Byte),
    s.unit = .ac c k → decodeSymbol (acSel s c) s = .ok sym t → step s = exec (decodeAc sym) t) ∧
  (∀ (s : State) (left : Nat),
    s.unit = .refill (left + 1) → s.srcPos ≠ s.srcLen → s.srcPos + 1#32 ≠ s.srcLen → srcByte s s.srcPos = 0xFF#8 →
    step s = exec (decodeEscByte (srcByte s (s.srcPos + 1#32))) s)

/-- A placed code is the one the next step fetches. After `withFetchWord` of a word that `decodeTableWord` reads, the step is `exec`
of that instruction: for a command word in the state itself, with no unit at work; for an AC symbol in the state whose
channel 0 decodes it, the codeword consumed; for an escape pair in the state that has the pair at `SRC_POS`. Log entries 3
and 6 (the model's own placement). -/
def Obligations.PlacedWordIsExecuted : Prop :=
  ∀ (s : State) (nbits w : Nat) (i : Instr), Memory.wf s.src = true → decodeTableWord nbits w = some i →
    (nbits = 32 ∨ nbits = 16 ∨ nbits = 8) ∧
    (nbits = 32 → decodeCmd (BitVec.ofNat 32 w) = .ok i ∧ step (s.withFetchWord nbits w) = exec i { s with unit := .idle }) ∧
    (nbits = 16 → decodeEsc (BitVec.ofNat 16 w) = .ok i ∧
      step (s.withFetchWord nbits w) = exec i (placeEscape (BitVec.ofNat 16 w) s) ∧
      { placeEscape (BitVec.ofNat 16 w) s with src := s.src } =
        { s with srcLen := s.srcPos + 2#32, eoe := false, unit := .refill 2 } ∧
      (∀ j : Word, srcByte (placeEscape (BitVec.ofNat 16 w) s) j =
        if j = s.srcPos then BitVec.ofNat 8 (w / 256) else if j = s.srcPos + 1#32 then BitVec.ofNat 8 w else srcByte s j)) ∧
    (nbits = 8 → decodeAc (BitVec.ofNat 8 w) = i ∧
      step (s.withFetchWord nbits w) = exec i (movedOn 1 { s with
        tbl := s.tbl.set (acSel s 0) (oneCodeTable s.params.aryLog2 (BitVec.ofNat 8 w))
        curData := [0#8, 0#8, 0#8], curPos := 0, curBackable := 0, unit := .ac 0 1 }))

/-! ### The register window -/

/-- R66, R278: an access of another width, misaligned or at an unmapped offset is refused; every other access is not, and a read or
a write never stops with a fault. -/
def Obligations.UnmappedAccessIsRefused : Prop :=
  ∀ (w : Width) (o : Nat) (v : Word) (s : State),
    (¬ (w = .word ∧ mappedOffset o) →
      hostRead w o s = .refused .badRegisterAccess ∧ hostWrite w o v s = .refused .badRegisterAccess) ∧
    (w = .word → mappedOffset o →
      (∃ t, hostRead w o s = .next t) ∧
      (∃ t, hostWrite w o v s = .next t ∧ (o ≠ 0 → t.mode = s.mode ∧ t.err = s.err)))

/-- R22, R23, R69: host accesses, in every engine state. A read gives the register's value to the host and changes nothing of the
engine, so a second read gives the same. A write of a register other than `CMD` stores, in a read/write register, the
bits of the width used, so that reading it back gives them and reserved bits read as 0; it changes no other register
and nothing else of the state. A write of a read-only register changes nothing, and a write of `CMD` executes the word. -/
def Obligations.HostAccessesReadAndStore : Prop :=
  ∀ (r : Reg) (v : Word) (s : State),
    hostRead .word r.offset s = .next { s with lastRead := readReg s r } ∧
    (∀ r', readReg { s with lastRead := readReg s r } r' = readReg s r') ∧
    hostWrite .word (Reg.offset .cmd) v s = executeWord v s ∧
    (r ≠ .cmd → ∃ t, hostWrite .word r.offset v s = .next t ∧
      (∀ m, storedBits r = some m → readReg t r = v &&& m) ∧
      (storedBits r = none → t = s) ∧
      (∀ r', r' ≠ r → readReg t r' = readReg s r') ∧
      { t with mcuCount := s.mcuCount, mcuStop := s.mcuStop, numCh := s.numCh, chCfg := s.chCfg, srcPos := s.srcPos,
               srcLen := s.srcLen, tblCnt := s.tblCnt, tblSym := s.tblSym } = s)

/-- R22, R25 to R37: at which offset each register stands and what it reads as: the element of the state it names, zero-extended; and
the values of the computed ones. The value goes to `lastRead`, log entry 5. -/
def Obligations.ReadBackValues : Prop :=
  ∀ s : State,
    let reads (offset : Nat) (v : Word) : Prop := hostRead .word offset s = .next { s with lastRead := v }
    reads 0x000 0#32 ∧ reads 0x004 (readReg s .status) ∧ reads 0x008 (s.err.setWidth 32) ∧ reads 0x00C s.errMcu ∧
    reads 0x010 (s.errLoc.setWidth 32) ∧ reads 0x014 s.result ∧ reads 0x018 s.mcuCount ∧ reads 0x01C s.mcuStop ∧
    reads 0x020 (s.numCh.setWidth 32) ∧ (∀ c : Fin 4, reads (0x024 + 4 * c.val) (s.chCfg[c].setWidth 32)) ∧
    reads 0x034 s.mcuIdx ∧ reads 0x038 (readReg s .loopPos) ∧ reads 0x03C s.outCount ∧
    (∀ c : Fin 4, reads (0x040 + 4 * c.val) s.pred[c]) ∧ reads 0x050 (readReg s .curAvail) ∧
    reads 0x054 (readReg s .curBit) ∧ reads 0x058 s.bitpos ∧ reads 0x05C s.srcPos ∧ reads 0x060 s.srcLen ∧
    reads 0x064 (readReg s .tblValid) ∧ (∀ i : Fin 16, reads (0x080 + 4 * i.val) (s.tblCnt[i].setWidth 32)) ∧
    (∀ i : Fin 256, reads (0x100 + 4 * i.val) (s.tblSym[i].setWidth 32)) ∧
    (∀ k : Fin 64, reads (0x500 + 4 * k.val) s.coef[k]) ∧
    (readReg s .status).toNat =
      (match s.mode with | .idle => 0 | .active => 1 | .done => 2 | .fault => 3) +
      (if s.curPos < 8 * s.curData.length then 0 else 4) + (if s.eoe then 8 else 0) ∧
    (s.chIdx < 4 → s.blkIdx < 256 → (readReg s .loopPos).toNat = 256 * s.chIdx + s.blkIdx) ∧
    (cursorOk s → s.params.ok → (readReg s .curAvail).toNat = 8 * s.curData.length - s.curPos) ∧
    (readReg s .curBit).toNat = s.curPos % 8 ∧
    (∀ j : Fin 8, (readReg s .tblValid).getLsbD j = s.tbl[j].valid) ∧ (readReg s .tblValid).toNat < 256

/-- R73, R93, R299: the host's change of one source byte changes that byte and nothing else; `.src` makes the source space hold the bytes
given and nothing else of the state changes (a byte beyond them then reads as 0, log entry 2). R38, R60, R69: the consumer's
read of a coefficient of a block of `OUT` gives it and changes nothing of the engine. The accesses are the model's own host
side, log entry 5; the premise on `OUT_COUNT` is kept by every step (O13). -/
def Obligations.SourceChangesAreExact : Prop :=
  ∀ s : State, Memory.wf s.src = true →
    (∀ (i : Word) (v : Byte), ∃ t, perform (.poke i v) s = .next t ∧ { t with src := s.src } = s ∧
      ∀ j : Word, srcByte t j = if j = i then v else srcByte s j) ∧
    (∀ bytes : List Byte, ∃ t, perform (.source bytes) s = .next t ∧ { t with src := s.src } = s ∧
      ∀ j : Word, srcByte t j = bytes.getD j.toNat 0#8) ∧
    (s.outCount = BitVec.ofNat 32 s.out.length → ∀ (i k : Nat) (hk : k < 64), i < s.outCount.toNat →
      ∃ b, s.out[i]? = some b ∧ perform (.readOut i k) s = .next { s with lastRead := b[k] })

/-! ### Reset and faults -/

/-- R42, R290: RESET and hardware reset have the same effect, in every engine state: every element takes its reset value, the source
space stays, and with no access left the engine then does nothing. -/
def Obligations.ResetPutsEveryElementToItsValue : Prop :=
  ∀ s : State, perform .hardwareReset s = exec .reset s ∧
    ∃ t, exec .reset s = .next t ∧
      t.mode = .idle ∧ t.eoe = false ∧ eof t = true ∧ t.err = 0#8 ∧ t.errMcu = 0#32 ∧ t.errLoc = 0#10 ∧
      t.result = 0#32 ∧ t.mcuCount = 0#32 ∧ t.mcuStop = 0#32 ∧ t.numCh = 0#3 ∧ (∀ c : Fin 4, t.chCfg[c] = 0#12) ∧
      t.mcuIdx = 0#32 ∧ t.chIdx = 0 ∧ t.blkIdx = 0 ∧ t.outCount = 0#32 ∧
      t.curData = [] ∧ t.curPos = 0 ∧ t.curBackable = 0 ∧ t.bitpos = 0#32 ∧
      (∀ c : Fin 4, t.pred[c] = 0#32) ∧ (∀ k : Fin 64, t.coef[k] = 0#32) ∧ t.srcPos = 0#32 ∧ t.srcLen = 0#32 ∧
      (∀ i : Fin 16, t.tblCnt[i] = 0#8) ∧ (∀ i : Fin 256, t.tblSym[i] = 0#8) ∧
      (∀ sel : Fin 8, t.tbl[sel].valid = false ∧ t.tbl[sel].codes = []) ∧ t.out = [] ∧
      t.src = s.src ∧ t.params = s.params ∧ (s.script = [] → step t = .next t)

/-- The machine right after reset meets the invariant. -/
def Obligations.ResetMeetsInvariant : Prop := Inv State.reset

/-- R31, R34, R37, R228, R260: every step keeps the invariant of the machine, from every state that has it. That `OUT_COUNT` is the
number of blocks modulo `2^32` is log entry 22. -/
def Obligations.StepKeepsInvariant : Prop :=
  ∀ s t : State, Inv s → step s = .next t → Inv t

/-- R270, with the codes of R260: the fault entry writes `ERR`, `ERR_MCU`, `ERR_LOC` and `STATE` and nothing else of the engine; and
whenever an instruction ends in FAULT the coordinates recorded are those at which the loop stands. That `unit` comes to rest is
the model's own, log entry 4; that the fields hold the coordinates modulo 4 and 256 is log entry 15. -/
def Obligations.FaultEntryRecordsCodeAndCoordinates : Prop :=
  (∀ (e : Err) (s : State),
    raise e s =
      { s with
        err := match e with
          | .streamExhausted => 1#8
          | .huffmanLookupFailed => 2#8
          | .malformedByteStuffing => 3#8
          | .tableConstructionError => 4#8
          | .coefIndexOverflow => 5#8
          | .reservedSymbol => 6#8
          | .allocFailure => 7#8
          | .badCommand => 8#8
        errMcu := s.mcuIdx
        errLoc := BitVec.ofNat 10 (s.chIdx % 4 * 256 + s.blkIdx % 256)
        mode := .fault
        unit := .idle }) ∧
  (∀ (i : Instr) (s t : State), s.mode ≠ .fault → exec i s = .next t → t.mode = .fault →
    t.errMcu = t.mcuIdx ∧ t.errLoc = BitVec.ofNat 10 (t.chIdx % 4 * 256 + t.blkIdx % 256) ∧
    1 ≤ t.err.toNat ∧ t.err.toNat ≤ 8 ∧ t.unit = .idle)

/-- R273: in FAULT the word `0x00000001` performs RESET and any other word does nothing at all; host reads and host writes of the other
registers are performed as in any state. -/
def Obligations.OnlyResetActsInFault : Prop :=
  ∀ s : State, s.mode = .fault →
    executeWord 0x00000001#32 s = exec .reset s ∧
    (∀ w : Word, w ≠ 0x00000001#32 → executeWord w s = .next s) ∧
    (∀ i : Instr, isCommand i = true → i ≠ .reset → exec i s = .next s) ∧
    (∀ r : Reg, hostRead .word r.offset s = .next { s with lastRead := readReg s r }) ∧
    (∀ (r : Reg) (v m : Word), storedBits r = some m →
      ∃ t, hostWrite .word r.offset v s = .next t ∧ readReg t r = v &&& m ∧ t.mode = .fault)

/-- R272: a recorded fault is never cleared except by RESET or hardware reset; until then `ERR`, `ERR_MCU` and `ERR_LOC` keep their
values. -/
def Obligations.FaultIsStickyUntilReset : Prop :=
  ∀ s t : State, unitOk s → s.mode = .fault → step s = .next t →
    (¬ resets s → t.mode = .fault ∧ t.err = s.err ∧ t.errMcu = s.errMcu ∧ t.errLoc = s.errLoc) ∧
    (resets s → t.mode = .idle ∧ t.err = 0#8 ∧ t.errMcu = 0#32 ∧ t.errLoc = 0#10)

/-- R303, R220: a step of a machine that meets the invariant never stops, but for a refused access: of a register (R66), or, by the
model's choice of log entry 16, a consumer's read of what is not in `OUT`. -/
def Obligations.StepStopsOnlyAtRefusedAccess : Prop :=
  ∀ s : State, Inv s →
    (∃ t, step s = .next t) ∨
    (s.unit = .idle ∧ ∃ rest,
      (step s = .refused .badRegisterAccess ∧
        ((∃ w o, s.script = .read w o :: rest ∧ ¬ (w = .word ∧ mappedOffset o)) ∨
         (∃ w o v, s.script = .write w o v :: rest ∧ ¬ (w = .word ∧ mappedOffset o)))) ∨
      (step s = .refused .badOutIndex ∧
        ∃ i k, s.script = .readOut i k :: rest ∧ ¬ (i < s.out.length ∧ k < 64)))

/-- A stream code presented to a unit that is not waiting for it stops by name, and changes nothing. Log entry 4: the model's own. -/
def Obligations.StreamCodeOutsideItsUnitStops : Prop :=
  ∀ s : State,
    ((∀ c k, s.unit ≠ .ac c k) →
      exec .eob s = .fault .codeOutsideUnit ∧ exec .zrl s = .fault .codeOutsideUnit ∧
      (∀ r n, exec (.runsize r n) s = .fault .codeOutsideUnit) ∧ (∀ r, exec (.acrsvd r) s = .fault .codeOutsideUnit)) ∧
    ((∀ c, s.unit ≠ .dc c) →
      (∀ n, exec (.dcsize n) s = .fault .codeOutsideUnit) ∧ (∀ y, exec (.dcrsvd y) s = .fault .codeOutsideUnit)) ∧
    ((∀ left, s.unit ≠ .refill left) →
      exec .stuff s = .fault .codeOutsideUnit ∧ exec .eoi s = .fault .codeOutsideUnit ∧
      (∀ x, exec (.marker x) s = .fault .codeOutsideUnit) ∧ exec .badesc s = .fault .codeOutsideUnit)

/-! ### Whole-machine rules about who writes what -/

/-- R28, R33, R34, R35, R36, R37, R38, R41: which instructions may change an element, over every instruction, RESET apart. No instruction
changes the source, the parameters or the outside's own state. `EOE` is set only by those that read the source and cleared
only by START_SCAN and RESYNC (R40). -/
def Obligations.OnlyNamedInstructionsWrite : Prop :=
  ∀ (i : Instr) (s t : State), exec i s = .next t →
    t.params = s.params ∧ t.src = s.src ∧ t.script = s.script ∧ t.lastRead = s.lastRead ∧
    (i ≠ .reset →
      (writesResult i = false ∨ (s.mode ≠ .fault ∧ t.mode = .fault) → t.result = s.result) ∧
      (writesPred i = false → t.pred = s.pred) ∧
      (writesCoef i = false → t.coef = s.coef) ∧
      (readsSource i = false → t.srcPos = s.srcPos ∧ (s.eoe = false → t.eoe = false)) ∧
      (i ≠ .startScan → i ≠ .resync → s.eoe = true → t.eoe = true) ∧
      (∀ sel : Fin 8, i ≠ .loadTable sel → t.tbl[sel] = s.tbl[sel]) ∧
      (i ≠ .run → i ≠ .startScan → t.out = s.out ∧ t.outCount = s.outCount ∧ t.mcuIdx = s.mcuIdx ∧
        t.chIdx = s.chIdx ∧ t.blkIdx = s.blkIdx ∧ (t.mode = s.mode ∨ t.mode = .fault)) ∧
      t.mcuCount = s.mcuCount ∧ t.mcuStop = s.mcuStop ∧ t.numCh = s.numCh ∧ t.chCfg = s.chCfg ∧ t.srcLen = s.srcLen ∧
      t.tblCnt = s.tblCnt ∧ t.tblSym = s.tblSym)

/-! ### The bit cursor -/

/-- R221: NOP writes no state; with a non-zero `ARG` it is `BadCommand`; in FAULT it is ignored. -/
def Obligations.NopWritesNothing : Prop :=
  encode .nop = .cmd 0x00000000#32 ∧
  (∀ s : State, exec .nop s = .next s) ∧
  (∀ (s : State) (arg : Byte), arg ≠ 0#8 →
    executeWord (cmdWord 0x00#8 arg) s = .next (if s.mode = .fault then s else raise .badCommand s))

/-- R112, R111: APPEND puts the byte after the unread tail, whole consumed bytes dropped, and closes the rewind window; it fails only
where the tail and the byte exceed `CAP_MAX`, and then changes nothing. -/
def Obligations.AppendPutsByteAfterUnreadTail : Prop :=
  ∀ (s : State) (x : Byte), s.mode ≠ .fault →
    (s.curData.length - s.curPos / 8 + 1 ≤ s.params.capMax →
      exec (.append x) s =
        .next { s with
          curData := s.curData.drop (s.curPos / 8) ++ [x]
          curPos := s.curPos % 8
          curBackable := 0 }) ∧
    (s.params.capMax < s.curData.length - s.curPos / 8 + 1 → exec (.append x) s = .next (raise .allocFailure s))

/-- R111: the unread bit string after `append(bs)` is the one before it followed by the bits of `bs`; `EOF` becomes 0 and `BITPOS` stays. -/
def Obligations.AppendExtendsUnreadBits : Prop :=
  ∀ (s t : State) (bs : List Byte), s.curPos ≤ 8 * s.curData.length → bs ≠ [] → append bs s = .ok () t →
    unreadBits t = unreadBits s ++ byteBits bs ∧ eof t = false ∧ t.bitpos = s.bitpos ∧ t.curBackable = 0

/-- R114, R113: NEXTBITS returns the next `n` unread bits, first bit most significant, zero-extended in `RESULT`, and moves on by `n`;
with fewer than `n` bits left it is `StreamExhausted` and nothing moves; a count outside 1 to 25 is `BadCommand`. -/
def Obligations.NextbitsReadsMostSignificantFirst : Prop :=
  (∀ n : Nat, encode (.nextbits n) = .cmd (cmdWord 0x04#8 (BitVec.ofNat 8 n))) ∧
  ∀ (s : State) (n : Nat), s.mode ≠ .fault →
    (1 ≤ n → n ≤ 25 → n ≤ avail s →
      ∃ v, v < 2 ^ n ∧ (unreadBits s).take n = bitsOf n v ∧
        exec (.nextbits n) s = .next { movedOn n s with result := BitVec.ofNat 32 v }) ∧
    (1 ≤ n → n ≤ 25 → avail s < n → exec (.nextbits n) s = .next (raise .streamExhausted s)) ∧
    (n = 0 ∨ 25 < n → exec (.nextbits n) s = .next (raise .badCommand s))

/-- R113, R62: the big-endian word load of the bytes a read spans, 1 to 4 of them, gives the value `nextBits` gives. -/
def Obligations.WordLoadGivesTheSameBits : Prop :=
  ∀ (s : State) (n : Nat), 1 ≤ n → n ≤ 25 → n ≤ avail s →
    wordRead s.curData s.curPos n = peek s n ∧ 1 ≤ bytesSpanned s.curPos n ∧ bytesSpanned s.curPos n ≤ 4

/-- R117, R116: BACKBITS moves back by `n` inside the rewind window, in the pair form with the borrow across the byte boundary; outside
the window or with `n > 25` it is `BadCommand` and nothing changes. -/
def Obligations.BackbitsRewindsInsideTheWindow : Prop :=
  (∀ n : Nat, encode (.backbits n) = .cmd (cmdWord 0x05#8 (BitVec.ofNat 8 n))) ∧
  ∀ (s : State) (n : Nat), s.mode ≠ .fault →
    (n ≤ 25 → n ≤ s.curBackable →
      exec (.backbits n) s =
        .next { s with
          curPos := s.curPos - n
          curBackable := s.curBackable - n
          bitpos := s.bitpos - BitVec.ofNat 32 n }) ∧
    (25 < n ∨ s.curBackable < n → exec (.backbits n) s = .next (raise .badCommand s)) ∧
    (n ≤ s.curPos → ((s.curPos - n) / 8, (s.curPos - n) % 8) = pairBack (s.curPos / 8) (s.curPos % 8) n)

/-- R119: ALIGN moves forward to the next byte boundary by 0 to 7 bits and never passes the write end; at a boundary it does nothing. -/
def Obligations.AlignMovesToByteBoundary : Prop :=
  ∀ s : State, s.mode ≠ .fault →
    ∃ p, p < 8 ∧ (s.curPos + p) % 8 = 0 ∧ exec .align s = .next (movedOn p s) ∧
      (s.curPos ≤ 8 * s.curData.length → s.curPos + p ≤ 8 * s.curData.length) ∧
      (s.curPos % 8 = 0 → exec .align s = .next s)

/-- R120: CLEAR empties the cursor and zeroes `BITPOS`; every other element is unchanged, `EOE` and `SRC_POS` among them. -/
def Obligations.ClearEmptiesTheCursor : Prop :=
  encode .clear = .cmd 0x00000002#32 ∧
  ∀ s : State, s.mode ≠ .fault →
    exec .clear s = .next { s with curData := [], curPos := 0, curBackable := 0, bitpos := 0#32 } ∧
    eof { s with curData := [], curPos := 0, curBackable := 0, bitpos := 0#32 } = true

/-- R122 (a): for appends and reads in any order that do not fault, from an empty cursor, the returned chunks are a beginning of the
bits of all appended bytes, and the unread bits are the rest. -/
def Obligations.ReadChunksRebuildAppendedBytes : Prop :=
  ∀ (ops : List CursorOp) (s t : State) (bits : List Bool),
    s.curData = [] → s.curPos = 0 → runOps ops s = some (bits, t) → bits ++ unreadBits t = byteBits (putBytes ops)

/-- R122 (b), (c): `backBits(n)` after `nextBits(n)` restores the cursor exactly; two reads return the split of one read of their sum. -/
def Obligations.ReadsInvertAndSplit : Prop :=
  ∀ (s : State) (n m : Nat),
    (n ≤ avail s → ∃ v t, nextBits n s = .ok v t ∧ backBits n t = .ok () s ∧ nextBits n s = .ok v t) ∧
    (n + m ≤ avail s → ∃ v w t u, nextBits n s = .ok v t ∧ nextBits m t = .ok w u ∧
      nextBits (n + m) s = .ok (v * 2 ^ m + w) u)

/-- R121: whatever an implementation does at an append (write in place, compact, or allocate), the architectural view of the physical
state after it is the one `append` gives, and the physical invariants hold. -/
def Obligations.PhysicalBufferRefinesTheCursor : Prop :=
  ∀ (p q : PhysCursor) (how : Placement) (bs : List Byte) (s t : State),
    p.ok → s.curData = p.data → s.curPos = p.pos → p.append how bs = some q → append bs s = .ok () t →
    q.ok ∧ t.curData = q.data ∧ t.curPos = q.pos

/-! ### Tables and symbols -/

/-- R143, R142: LOAD_TABLE with at most 256 codes and no over-subscribed length makes the table valid, with the codes of R141 and the
tree of R145, whose insertion never finds a taken slot (R142 derives that from R141 and R147); else it is `TableConstructionError` and the table is left
invalid. The other tables and the staging area are untouched. -/
def Obligations.LoadTableBuildsOrInvalidates : Prop :=
  (∀ sel : Fin 8, encode (.loadTable sel) = .cmd (cmdWord 0x07#8 (BitVec.ofNat 8 sel.val))) ∧
  ∀ (s : State) (sel : Fin 8), s.mode ≠ .fault → 1 ≤ s.params.aryLog2 →
    ((stagedCounts s).sum ≤ 256 → countsFit 1 0 (stagedCounts s) = true →
      ∃ tree, insertAll s.params.aryLog2 (stagedCodes s) = some tree ∧
        exec (.loadTable sel) s =
          .next { s with tbl := s.tbl.set sel { valid := true, codes := stagedCodes s, tree := tree } }) ∧
    (256 < (stagedCounts s).sum ∨ countsFit 1 0 (stagedCounts s) = false →
      ∃ t : Table, t.valid = false ∧
        exec (.loadTable sel) s = .next (raise .tableConstructionError { s with tbl := s.tbl.set sel t }))

/-- R147 (a), R37: the codes of an accepted definition are at most 256, of length 1 to 16 and in range, and prefix-free. R141: they are
the canonical ones: the first is all zeros, each next one is the one before it plus one, extended with zeros to its own
length; there are `TBL_CNT[L]` of length `L`; and their symbols are those of `TBL_SYM` in order. -/
def Obligations.AssignedCodesArePrefixFree : Prop :=
  ∀ s : State, (stagedCounts s).sum ≤ 256 → countsFit 1 0 (stagedCounts s) = true →
    codesOk (stagedCodes s) ∧
    (∀ e, (stagedCodes s)[0]? = some e → e.code = 0) ∧
    (∀ (j : Nat) (e e' : CodeEntry), (stagedCodes s)[j]? = some e → (stagedCodes s)[j + 1]? = some e' →
      e.len ≤ e'.len ∧ e'.code = (e.code + 1) * 2 ^ (e'.len - e.len)) ∧
    (∀ i : Fin 16, ((stagedCodes s).countP fun e => e.len = i.val + 1) = s.tblCnt[i].toNat) ∧
    (stagedCodes s).map CodeEntry.sym = s.tblSym.toList.take (stagedCounts s).sum

/-- R150, R154: DECODE_SYM. With a table that is not valid it is `BadCommand`. Else the codeword that is a beginning of the unread bits
gives its symbol and is consumed, exactly its length; with none, it is `StreamExhausted` when the unread bits are a
beginning of a codeword and `HuffmanLookupFailed` otherwise, and the cursor is where it was. -/
def Obligations.DecodeSymMatchesOneCodeword : Prop :=
  (∀ sel : Fin 8, encode (.decodeSym sel) = .cmd (cmdWord 0x08#8 (BitVec.ofNat 8 sel.val))) ∧
  ∀ (s : State) (sel : Fin 8), s.mode ≠ .fault →
    (s.tbl[sel].valid = false → exec (.decodeSym sel) s = .next (raise .badCommand s)) ∧
    (s.tbl[sel].valid = true → codesOk s.tbl[sel].codes →
      (∀ e ∈ s.tbl[sel].codes, codeBits e <+: unreadBits s →
        exec (.decodeSym sel) s = .next { movedOn e.len s with result := BitVec.ofNat 32 e.sym.toNat }) ∧
      ((∀ e ∈ s.tbl[sel].codes, ¬ codeBits e <+: unreadBits s) →
        ((∃ e ∈ s.tbl[sel].codes, unreadBits s <+: codeBits e) →
          exec (.decodeSym sel) s = .next (raise .streamExhausted s)) ∧
        ((∀ e ∈ s.tbl[sel].codes, ¬ unreadBits s <+: codeBits e) →
          exec (.decodeSym sel) s = .next (raise .huffmanLookupFailed s))))

/-- R153: for every valid table, every branching factor and every cursor, the tree walk of R151 and R152 has the outcome of the contract
R150: the same symbol or the same fault, and the same state. -/
def Obligations.TreeWalkEqualsContract : Prop :=
  ∀ (s : State) (sel : Fin 8), 1 ≤ s.params.aryLog2 → s.params.aryLog2 ≤ 8 →
    tableOk s.params.aryLog2 s.tbl[sel] → walkSymbol sel s = decodeSymbol sel s

/-- R155: a decoder that pulls up to 25 bits ahead and gives back what it does not consume has the outcome of the contract. -/
def Obligations.ReadAheadEqualsContract : Prop :=
  ∀ (s : State) (sel : Fin 8), (s.tbl[sel].valid = true → codesOk s.tbl[sel].codes) →
    decodeAhead sel s = decodeSymbol sel s

/-- R146: a table needs at most `1 + 256 * (ceil(16 / b) - 1)` nodes, so construction never fails for want of nodes. -/
def Obligations.TreeFitsTheArena : Prop :=
  ∀ (b : Nat) (codes : List CodeEntry) (tree : Slots), 1 ≤ b → codesOk codes → insertAll b codes = some tree →
    1 + tree.nodes ≤ nodeBound b

/-! ### The refiller -/

/-- R172, R178: REFILL. With `EOE = 1` it does nothing; with `SRC_POS > SRC_LEN` it is `BadCommand`. Else, with room for a batch and no
malformed pair among the bytes it reaches, it ends without a fault: it appends the destuffed bytes up to where it stops, at
most `CHUNK` of them, examines at least `CHUNK` bytes and at most one more, or stops earlier with `EOE = 1` where the
entropy data end. With a malformed pair it reaches it is `MalformedByteStuffing` there, with all the bytes before it
appended (R176). Without room it may end as `AllocFailure` after some bytes that fit, `SRC_POS` having moved past the byte that did
not (R182), as it does at once on a full cursor. It writes nothing else than the cursor, `SRC_POS` and `EOE`; with no byte appended
the cursor is as before, else the read position stays inside its byte and the rewind window is closed (R111, R297). -/
def Obligations.RefillRunsOneBatch : Prop :=
  ∀ s : State, s.mode ≠ .fault →
    (s.eoe = true → exec .refill s = .next s) ∧
    (s.eoe = false → s.srcLen < s.srcPos → exec .refill s = .next (raise .badCommand s)) ∧
    (s.eoe = false → s.srcPos ≤ s.srcLen →
      let malformed := (destuff s).2.2 = .malformed ∧ (destuff s).2.1 < s.srcPos.toNat + s.params.chunk
      let runs := ∃ t D, exec .refill s = .next t ∧ refilled D s t ∧ D.length ≤ s.params.chunk ∧
        destuff s = (D ++ (destuff t).1, (destuff t).2) ∧
        s.srcPos.toNat ≤ t.srcPos.toNat ∧ t.srcPos.toNat ≤ s.srcPos.toNat + s.params.chunk + 1 ∧
        (t.eoe = false → s.srcPos.toNat + s.params.chunk ≤ t.srcPos.toNat) ∧
        (t.eoe = true → D = (destuff s).1 ∧ t.srcPos.toNat = (destuff s).2.1 ∧ (destuff s).2.2 ≠ .malformed)
      let breaks := ∃ u, exec .refill s = .next (raise .malformedByteStuffing u) ∧ refilled (destuff s).1 s u ∧
        u.srcPos.toNat = (destuff s).2.1 ∧ u.eoe = false
      let overflows := ∃ u D x, exec .refill s = .next (raise .allocFailure u) ∧ refilled D s u ∧ u.eoe = false ∧
        D.length < s.params.chunk ∧ s.params.capMax < tail u + 1 ∧ destuff s = (D ++ x :: (destuff u).1, (destuff u).2)
      (tail s + s.params.chunk ≤ s.params.capMax → ¬ malformed → runs) ∧
      (tail s + s.params.chunk ≤ s.params.capMax → malformed → breaks) ∧
      ((¬ malformed ∧ runs) ∨ (malformed ∧ breaks) ∨ overflows)) ∧
    (s.eoe = false → s.srcPos < s.srcLen → srcByte s s.srcPos ≠ 0xFF#8 → 1 ≤ s.params.chunk →
      s.params.capMax < tail s + 1 → exec .refill s = .next (raise .allocFailure { s with srcPos := s.srcPos + 1#32 }))

/-- R181: however the refills are batched, the bytes appended are a beginning of the destuffed sequence; when `EOE` becomes 1 they are all
of it and `SRC_POS` is where it ends; when it ends in a malformed pair the fault is raised there, with all of it
appended. The read position stays inside its byte, an appended byte closes the rewind window, and nothing else changes. -/
def Obligations.RefillsAppendTheDestuffedBytes : Prop :=
  ∀ (n : Nat) (s : State), s.eoe = false → s.srcPos ≤ s.srcLen →
    (∀ t, refills n s = .ok () t →
      ∃ D, D <+: (destuff s).1 ∧ refilled D s t ∧
        (t.eoe = true → D = (destuff s).1 ∧ t.srcPos.toNat = (destuff s).2.1 ∧ (destuff s).2.2 ≠ .malformed)) ∧
    (∀ t, refills n s = .raised .malformedByteStuffing t →
      (destuff s).2.2 = .malformed ∧ refilled (destuff s).1 s t ∧
        t.srcPos.toNat = (destuff s).2.1 ∧ t.eoe = false)

/-- R177, R182: `topUp` leaves at least `LOW_WATER` bytes buffered or `EOE = 1`, and never runs out of room. Whether it ends or faults, it
has only appended bytes to the cursor and moved `SRC_POS` and `EOE`. -/
def Obligations.TopUpReachesLowWaterOrEnd : Prop :=
  ∀ s : State, s.params.ok → s.curPos ≤ 8 * s.curData.length →
    (∀ t, topUp s = .ok () t → (t.eoe = true ∨ s.params.lowWater ≤ tail t) ∧ ∃ D, refilled D s t) ∧
    (∀ t, topUp s ≠ .raised .allocFailure t) ∧
    (∀ e t, topUp s = .raised e t → ∃ D, refilled D s t)

/-- R171: STUFF consumes both bytes of the pair and appends one `0xFF`; the batch goes on while it may examine more bytes. With no room
it is `AllocFailure`, `SRC_POS` having moved already (R182). -/
def Obligations.StuffAppendsOneByte : Prop :=
  ∀ (s : State) (left : Nat), s.unit = .refill left →
    (tail s + 1 ≤ s.params.capMax →
      exec .stuff s =
        .next { s with
          srcPos := s.srcPos + 2#32
          curData := s.curData.drop (s.curPos / 8) ++ [0xFF#8]
          curPos := s.curPos % 8
          curBackable := 0
          unit := if 2 < left then .refill (left - 2) else .idle }) ∧
    (s.params.capMax < tail s + 1 →
      exec .stuff s = .next (raise .allocFailure { s with srcPos := s.srcPos + 2#32 }))

/-- R175: EOI and every other marker end the entropy data the same way: `EOE` becomes 1, both bytes stay unconsumed, nothing is
appended, and the batch ends. -/
def Obligations.MarkerEndsTheEntropyData : Prop :=
  ∀ (s : State) (left : Nat), s.unit = .refill left →
    exec .eoi s = .next { s with eoe := true, unit := .idle } ∧
    ∀ x : Byte, (Instr.marker x).wf = true → exec (.marker x) s = .next { s with eoe := true, unit := .idle }

/-- R176: the pair `FF FF` is `MalformedByteStuffing`, `SRC_POS` on its first byte and `EOE` unchanged; it is the only pair that is
neither stuffing nor a marker. -/
def Obligations.BadEscapeIsMalformedStuffing : Prop :=
  (∀ (s : State) (left : Nat), s.unit = .refill left → exec .badesc s = .next (raise .malformedByteStuffing s)) ∧
  (∀ x : Byte, decodeEscByte x = .badesc ↔ x = 0xFF#8)

/-! ### The block decoder -/

/-- R190: the sign conversion, its range, and that it is the EXTEND procedure the rule names. -/
def Obligations.ExtendIsTheSignConversion : Prop :=
  ∀ f S : Nat, 1 ≤ S → S ≤ 15 → f < 2 ^ S →
    (2 ^ (S - 1) ≤ f → extend f S = f) ∧ (f < 2 ^ (S - 1) → extend f S = (f : Int) - (2 ^ S - 1)) ∧
    ((-(2 ^ S - 1) ≤ extend f S ∧ extend f S ≤ -2 ^ (S - 1)) ∨
      ((2 ^ (S - 1) : Int) ≤ extend f S ∧ extend f S ≤ 2 ^ S - 1)) ∧
    -32767 ≤ extend f S ∧ extend f S ≤ 32767 ∧
    (f < 2 ^ (S - 1) → extend f S = (f : Int) + (-1) * 2 ^ S + 1)

/-- R193: a DC size `S` reads `S` magnitude bits, adds the difference to the channel's predictor in 32-bit two's complement and stores
the new predictor as coefficient 0; with `S = 0` no bit is read and coefficient 0 is the previous predictor; a field cut
short is `StreamExhausted` before anything is written. A DC symbol above 15 is `ReservedSymbol` and writes nothing. -/
def Obligations.DcStepAddsTheDifference : Prop :=
  ∀ (s : State) (c : Fin 4), s.unit = .dc c →
    exec (.dcsize 0) s = .next { s with coef := s.coef.set 0 s.pred[c], unit := .ac c 1 } ∧
    (∀ S : Fin 16, S ≠ 0 → S.val ≤ avail s →
      ∃ f, f < 2 ^ S.val ∧ (unreadBits s).take S.val = bitsOf S.val f ∧
        exec (.dcsize S) s =
          .next { movedOn S.val s with
            pred := s.pred.set c (BitVec.ofInt 32 (s.pred[c].toInt + extend f S.val))
            coef := s.coef.set 0 (BitVec.ofInt 32 (s.pred[c].toInt + extend f S.val))
            unit := .ac c 1 }) ∧
    (∀ S : Fin 16, avail s < S.val → exec (.dcsize S) s = .next (raise .streamExhausted s)) ∧
    (∀ sym : Byte, 16 ≤ sym.toNat →
      decodeDc sym = .dcrsvd sym ∧ exec (.dcrsvd sym) s = .next (raise .reservedSymbol s))

/-- R195, R196: EOB ends the block and writes no coefficient; ZRL raises the running index by 16, reads and stores nothing, and ends the
block at 64; past 64 it is `CoefIndexOverflow`. -/
def Obligations.EobAndZrlMoveOnlyTheIndex : Prop :=
  ∀ (s : State) (c : Fin 4) (k : Nat), s.unit = .ac c k →
    exec .eob s = .next { s with unit := .idle } ∧
    (k < 48 → exec .zrl s = .next { s with unit := .ac c (k + 16) }) ∧
    (k = 48 → exec .zrl s = .next { s with unit := .idle }) ∧
    (48 < k → exec .zrl s = .next (raise .coefIndexOverflow s))

/-- R197, R199: RUNSIZE skips `R` zeros, reads `S` magnitude bits, stores the converted value and moves on by one; at index 64 the block
ends. A run past 63 is `CoefIndexOverflow` before any magnitude bit is read; a field cut short is `StreamExhausted`. -/
def Obligations.RunsizeStoresOneCoefficient : Prop :=
  ∀ (s : State) (c : Fin 4) (k : Nat) (R S : Fin 16), s.unit = .ac c k → S ≠ 0 →
    (k + R.val ≤ 63 → S.val ≤ avail s →
      ∃ f, f < 2 ^ S.val ∧ (unreadBits s).take S.val = bitsOf S.val f ∧
        exec (.runsize R S) s =
          .next { movedOn S.val s with
            coef := s.coef.setIfInBounds (k + R.val) (BitVec.ofInt 32 (extend f S.val))
            unit := if k + R.val = 63 then .idle else .ac c (k + R.val + 1) }) ∧
    (63 < k + R.val → exec (.runsize R S) s = .next (raise .coefIndexOverflow s)) ∧
    (k + R.val ≤ 63 → avail s < S.val → exec (.runsize R S) s = .next (raise .streamExhausted s))

/-- R198: the fourteen AC symbols with `S = 0` and `R` in 1 to 14, and no others, are reserved: `ReservedSymbol` whatever the running
index is. -/
def Obligations.ReservedAcSymbolsFault : Prop :=
  (∀ (s : State) (c : Fin 4) (k : Nat) (R : Fin 16), s.unit = .ac c k →
    exec (.acrsvd R) s = .next (raise .reservedSymbol s)) ∧
  (∀ sym : Byte, (∃ R, decodeAc sym = .acrsvd R) ↔ sym.toNat % 16 = 0 ∧ 1 ≤ sym.toNat / 16 ∧ sym.toNat / 16 ≤ 14)

/-- R91, R191 to R197: when the unread bits begin with the text of a block over the channel's two codes, DECODE_BLOCK decodes exactly
that block: `COEF` is what the text stands for, the predictor is its DC coefficient, and exactly its bits are consumed. -/
def Obligations.DecodeBlockDecodesItsText : Prop :=
  ∀ (s : State) (c : Fin 4) (text : BlockText) (b : Block) (rest : List Bool), s.mode ≠ .fault →
    s.tbl[dcSel s c].valid = true → s.tbl[acSel s c].valid = true →
    codesOk s.tbl[dcSel s c].codes → codesOk s.tbl[acSel s c].codes →
    text.meaning s.tbl[dcSel s c].codes s.tbl[acSel s c].codes s.pred[c] = some b →
    unreadBits s = text.bits ++ rest →
    exec (.decodeBlock c) s = .next { movedOn text.bits.length s with coef := b, pred := s.pred.set c b[0] }

/-- R191, R200, R201: what DECODE_BLOCK may write. With a table of the channel not valid it is `BadCommand` and writes nothing. Else it
ends in the state it began in, the fault registers unchanged, or in FAULT with code 1, 2, 5 or 6; it writes `COEF`, this
channel's predictor, the cursor position and `BITPOS`, which move forward together by as many unread bits as were decoded,
a fault or not (R32, R271), and on a fault the fault registers, and nothing else. That `unit`,
the model's own (log entry 4), comes to rest on a fault is said with it. -/
def Obligations.DecodeBlockWritesOnlyItsBlock : Prop :=
  ∀ (s : State) (c : Fin 4), s.mode ≠ .fault →
    (s.tbl[dcSel s c].valid = false ∨ s.tbl[acSel s c].valid = false →
      exec (.decodeBlock c) s = .next (raise .badCommand s)) ∧
    (s.tbl[dcSel s c].valid = true → s.tbl[acSel s c].valid = true →
      ∃ t, exec (.decodeBlock c) s = .next t ∧
        restoreBlockWrites s t = s ∧
        (∃ m, m ≤ avail s ∧ t.curPos = s.curPos + m ∧ t.curBackable = s.curBackable + m ∧
          t.bitpos = s.bitpos + BitVec.ofNat 32 m) ∧
        (∀ c' : Fin 4, c' ≠ c → t.pred[c'] = s.pred[c']) ∧
        ((t.mode = s.mode ∧ t.err = s.err ∧ t.errMcu = s.errMcu ∧ t.errLoc = s.errLoc ∧ t.unit = s.unit) ∨
          (t.mode = .fault ∧ t.unit = .idle ∧ (t.err = 1#8 ∨ t.err = 2#8 ∨ t.err = 5#8 ∨ t.err = 6#8))))

/-- R202: a decoded block takes at least 2 and at most 1984 bits, and with 1984 unread bits a block never runs out of bits. -/
def Obligations.BlockTakesAtMost1984Bits : Prop :=
  ∀ (s : State) (c : Fin 4), codesOk s.tbl[dcSel s c].codes → codesOk s.tbl[acSel s c].codes →
    (∀ t, decodeBlock c s = .ok () t → s.curPos + 2 ≤ t.curPos ∧ t.curPos ≤ s.curPos + 1984) ∧
    (1984 ≤ avail s → ∀ t, decodeBlock c s ≠ .raised .streamExhausted t)

/-- The stream codes run one by one make up the commands: the unit's turns from the start of a block or of a batch end in the state
DECODE_BLOCK or REFILL ends in (R172, R191; log entry 4). -/
def Obligations.StreamCodesMakeUpTheirCommands : Prop :=
  ∀ s : State, s.mode ≠ .fault → s.unit = .idle →
    (∀ c : Fin 4, s.tbl[dcSel s c].valid = true → s.tbl[acSel s c].valid = true →
      unitTurns 64 { s with coef := Vector.replicate 64 0#32, unit := .dc c } = exec (.decodeBlock c) s) ∧
    (s.eoe = false → s.srcPos ≤ s.srcLen →
      unitTurns (s.params.chunk + 1) { s with unit := .refill s.params.chunk } = exec .refill s)

/-! ### The loop -/

/-- R223: START_SCAN checks `NUM_CH` and the block count, then zeroes the predictors, the coordinates, the output, the cursor, `BITPOS` and
`EOE` and enters ACTIVE, from IDLE, ACTIVE and DONE alike; it writes nothing else. -/
def Obligations.StartScanBeginsAtTheFirstBlock : Prop :=
  encode .startScan = .cmd 0x0000000B#32 ∧
  ∀ s : State, s.mode ≠ .fault →
    let B := ((List.range s.numCh.toNat).map fun c => (s.chCfg[Fin.ofNat 4 c]).toNat % 256).sum
    (1 ≤ s.numCh.toNat → s.numCh.toNat ≤ 4 → s.mcuCount.toNat * B < 2 ^ 32 →
      exec .startScan s =
        .next { s with
          pred := Vector.replicate 4 0#32
          mcuIdx := 0#32, chIdx := 0, blkIdx := 0
          out := [], outCount := 0#32
          curData := [], curPos := 0, curBackable := 0, bitpos := 0#32
          eoe := false
          mode := .active }) ∧
    (¬ (1 ≤ s.numCh.toNat ∧ s.numCh.toNat ≤ 4 ∧ s.mcuCount.toNat * B < 2 ^ 32) →
      exec .startScan s = .next (raise .badCommand s))

/-- R226, R227: PRED_RESET zeroes the four predictors and nothing else; RESYNC empties the cursor and clears `EOE` and leaves `BITPOS`,
`SRC_POS`, the predictors and the coordinates. -/
def Obligations.RestartHooksWriteOnlyTheirState : Prop :=
  encode .predReset = .cmd 0x0000000D#32 ∧ encode .resync = .cmd 0x0000000E#32 ∧
  ∀ s : State, s.mode ≠ .fault →
    exec .predReset s = .next { s with pred := Vector.replicate 4 0#32 } ∧
    exec .resync s = .next { s with curData := [], curPos := 0, curBackable := 0, eoe := false }

/-- R220, R228: RUN needs ACTIVE, `MCU_STOP <= MCU_COUNT` and a legal `NUM_CH`, else it is `BadCommand`; at `MCU_STOP` it decodes nothing;
an MCU without blocks is stepped over. -/
def Obligations.RunChecksAndEmptyRuns : Prop :=
  ∀ s : State,
    (s.mode = .idle ∨ s.mode = .done → exec .run s = .next (raise .badCommand s)) ∧
    (s.mode = .active → ¬ (s.mcuStop ≤ s.mcuCount ∧ 1 ≤ s.numCh.toNat ∧ s.numCh.toNat ≤ 4) →
      exec .run s = .next (raise .badCommand s)) ∧
    (s.mode = .active → s.mcuStop ≤ s.mcuCount → 1 ≤ s.numCh.toNat → s.numCh.toNat ≤ 4 →
      (s.mcuStop ≤ s.mcuIdx →
        exec .run s = .next { s with mode := if s.mcuIdx = s.mcuCount then .done else .active }) ∧
      (s.mcuIdx < s.mcuStop → s.chIdx = 0 → s.blkIdx = 0 → blocksPerMcu s = 0 →
        exec .run s =
          .next { s with mcuIdx := s.mcuStop, mode := if s.mcuStop = s.mcuCount then .done else .active }))

/-- R225, R228, R231: a RUN over one MCU of one block whose text the cursor holds, with no refill due, appends exactly that block to `OUT`
and moves to the next MCU (that `OUT_COUNT` wraps past `2^32 - 1` blocks is log entry 22). R225, R229: where a block is due and the
cursor is at its end after `topUp`, RUN is `StreamExhausted` there, before `COEF` is zeroed or a table is looked at; so it is
at once with `EOE = 1` and no unread bits. -/
def Obligations.RunDecodesAndAppendsABlock : Prop :=
  (∀ s t : State, s.mode = .active → s.mcuStop ≤ s.mcuCount → 1 ≤ s.numCh.toNat → s.numCh.toNat ≤ 4 →
    s.mcuIdx < s.mcuStop → s.chIdx < s.numCh.toNat → s.blkIdx < blocksOf s s.chIdx →
    (topUp s = .ok () t → eof t = true → exec .run s = .next (raise .streamExhausted t)) ∧
    (s.eoe = true → avail s = 0 → exec .run s = .next (raise .streamExhausted s))) ∧
  ∀ (s : State) (text : BlockText) (b : Block) (rest : List Bool), s.mode = .active →
    s.numCh = 1#3 → blocksOf s 0 = 1 → s.chIdx = 0 → s.blkIdx = 0 →
    s.mcuIdx < s.mcuStop → s.mcuIdx + 1#32 = s.mcuStop → s.mcuStop ≤ s.mcuCount →
    s.eoe = true ∨ s.params.lowWater ≤ tail s →
    s.tbl[dcSel s 0].valid = true → s.tbl[acSel s 0].valid = true →
    codesOk s.tbl[dcSel s 0].codes → codesOk s.tbl[acSel s 0].codes →
    text.meaning s.tbl[dcSel s 0].codes s.tbl[acSel s 0].codes s.pred[0] = some b →
    unreadBits s = text.bits ++ rest →
    exec .run s =
      .next { movedOn text.bits.length s with
        coef := b
        pred := s.pred.set 0 b[0]
        out := s.out ++ [b]
        outCount := s.outCount + 1#32
        mcuIdx := s.mcuStop
        mode := if s.mcuStop = s.mcuCount then .done else .active }

/-- R224: RUN is block steps in the order MCU, channel, block: for every MCU from `MCU_IDX` to `MCU_STOP - 1`, every channel below `NUM_CH`
and every block of it, in that nesting, and DONE or a pause at the end. -/
def Obligations.RunFollowsTheNestingOrder : Prop :=
  ∀ s : State, s.mode = .active → s.mcuStop ≤ s.mcuCount → 1 ≤ s.numCh.toNat → s.numCh.toNat ≤ 4 →
    s.chIdx = 0 → s.blkIdx = 0 →
    exec .run s = finish ((runMcus (s.mcuStop.toNat - s.mcuIdx.toNat) s).bind fun _ t => .ok () (endRun t))

/-- R228, R229, R231, R303: how a RUN ends. It always ends: at `MCU_STOP` with both inner coordinates 0, in DONE or paused in ACTIVE, or in
FAULT with the coordinates on the block that faulted; `OUT` has then only grown, and `OUT_COUNT` with it (modulo `2^32`, log
entry 22). -/
def Obligations.RunEndsAtStopOrFault : Prop :=
  ∀ s : State, s.mode = .active → s.mcuStop ≤ s.mcuCount → 1 ≤ s.numCh.toNat → s.numCh.toNat ≤ 4 →
    s.chIdx = 0 → s.blkIdx = 0 → ∃ t, exec .run s = .next t ∧
    (∃ bs, t.out = s.out ++ bs ∧ t.outCount = s.outCount + BitVec.ofNat 32 bs.length) ∧
    ((t.chIdx = 0 ∧ t.blkIdx = 0 ∧ t.mcuIdx = (if s.mcuIdx < s.mcuStop then s.mcuStop else s.mcuIdx) ∧
        t.mode = (if t.mcuIdx = s.mcuCount then .done else .active)) ∨
      (t.mode = .fault ∧ t.mcuIdx < s.mcuStop ∧ t.chIdx < s.numCh.toNat ∧ t.blkIdx < blocksOf s t.chIdx))

/-- R228: a RUN that pauses and a later RUN with a larger `MCU_STOP` do exactly what one RUN does that does not stop in between. -/
def Obligations.PausedRunContinuesUnchanged : Prop :=
  ∀ (s t : State) (stop : Word), s.mode = .active → s.mcuIdx ≤ s.mcuStop → s.mcuStop ≤ stop → stop ≤ s.mcuCount →
    s.chIdx = 0 → s.blkIdx = 0 → exec .run s = .next t → t.mode = .active →
    exec .run { t with mcuStop := stop } = exec .run { s with mcuStop := stop }

/-- R30: `OUT` holds `MCU_IDX * B + (blocks of the channels before CH_IDX) + BLK_IDX` blocks; every command keeps this, while the geometry
stays. -/
def Obligations.OutputCountFollowsCoordinates : Prop :=
  ∀ (i : Instr) (s t : State), isCommand i = true → coordinatesOk s → s.out.length = loopCount s →
    exec i s = .next t → t.out.length = loopCount t

/-- R9, R232: what a RUN computes does not depend on the OPEN parameters, for a source without a malformed pair ahead. -/
def Obligations.ScanResultIndependentOfParameters : Prop :=
  ∀ (s : State) (p q : Params), p.ok → q.ok → s.mode = .active → s.chIdx < 4 →
    s.curPos ≤ 8 * s.curData.length →
    (∀ sel : Fin 8, s.tbl[sel].valid = true → codesOk s.tbl[sel].codes) →
    s.eoe = true ∨ (s.srcPos ≤ s.srcLen ∧ (destuff s).2.2 ≠ .malformed) →
    ∃ t u, exec .run { s with params := p } = .next t ∧ exec .run { s with params := q } = .next u ∧ sameScanResult t u
end

