-- ==== Sys2Proof/Laws/Bits.lean ====
section
/-! SUPPORT. Bit strings: the bits of a number and of a byte sequence, and what a peek of the cursor says of the unread
bits (spec/00_scope.md R10, spec/40_bitcursor.md R113). -/

namespace Sys2Proof.Machine

/-! ### The bits of a number -/

@[simp] theorem length_bitsOf (n v : Nat) : (bitsOf n v).length = n := by
  induction n with
  | zero => rfl
  | succ n ih => simp [bitsOf, ih]

theorem getElem_bitsOf (n v i : Nat) (h : i < (bitsOf n v).length) : (bitsOf n v)[i] = v.testBit (n - 1 - i) := by
  induction n generalizing i with
  | zero => simp at h
  | succ n ih =>
    cases i with
    | zero => simp [bitsOf]
    | succ i =>
      simp only [bitsOf, List.getElem_cons_succ]
      rw [ih]
      congr 1
      omega

theorem bitsOf_append (n m v w : Nat) (hw : w < 2 ^ m) : bitsOf (n + m) (v * 2 ^ m + w) = bitsOf n v ++ bitsOf m w := by
  apply List.ext_getElem (by simp)
  intro i h1 h2
  rw [getElem_bitsOf, List.getElem_append]
  split
  · next h =>
    rw [getElem_bitsOf]
    simp only [length_bitsOf] at h
    rw [Nat.mul_comm, Nat.testBit_two_pow_mul_add _ hw, if_neg (by omega)]
    congr 1
    omega
  · next h =>
    rw [getElem_bitsOf]
    simp only [length_bitsOf] at h h1 ⊢
    rw [Nat.mul_comm, Nat.testBit_two_pow_mul_add _ hw, if_pos (by omega)]
    congr 1
    omega

/-- The first `n` of the `n + m` bits of a number are the bits of its quotient. -/
theorem bitsOf_split (n m v : Nat) : bitsOf (n + m) v = bitsOf n (v / 2 ^ m) ++ bitsOf m (v % 2 ^ m) := by
  rw [← bitsOf_append n m _ _ (Nat.mod_lt _ (Nat.two_pow_pos m)), Nat.div_add_mod']

theorem bitsOf_inj {n v w : Nat} (hv : v < 2 ^ n) (hw : w < 2 ^ n) (h : bitsOf n v = bitsOf n w) : v = w := by
  apply Nat.eq_of_testBit_eq
  intro i
  by_cases hi : i < n
  · have h1 := getElem_bitsOf n v (n - 1 - i) (by simp; omega)
    have h2 := getElem_bitsOf n w (n - 1 - i) (by simp; omega)
    have e : n - 1 - (n - 1 - i) = i := by omega
    rw [e] at h1 h2
    rw [← h1, ← h2]
    simp only [h]
  · rw [Nat.testBit_lt_two_pow (Nat.lt_of_lt_of_le hv (Nat.pow_le_pow_right (by omega) (by omega))),
      Nat.testBit_lt_two_pow (Nat.lt_of_lt_of_le hw (Nat.pow_le_pow_right (by omega) (by omega)))]

/-! ### The bits of a byte sequence -/

@[simp] theorem byteBits_nil : byteBits [] = [] := rfl

@[simp] theorem byteBits_cons (x : Byte) (d : List Byte) : byteBits (x :: d) = bitsOf 8 x.toNat ++ byteBits d := rfl

@[simp] theorem byteBits_append (d e : List Byte) : byteBits (d ++ e) = byteBits d ++ byteBits e := by
  simp [byteBits]

@[simp] theorem length_byteBits (d : List Byte) : (byteBits d).length = 8 * d.length := by
  induction d with
  | nil => rfl
  | cons x d ih => simp [ih]; omega

theorem byteBits_drop (d : List Byte) (k : Nat) : byteBits (d.drop k) = (byteBits d).drop (8 * k) := by
  induction d generalizing k with
  | nil => simp
  | cons x d ih =>
    cases k with
    | zero => simp
    | succ k =>
      have h8 : (bitsOf 8 x.toNat).drop (8 * (k + 1)) = [] := List.drop_of_length_le (by simp)
      have hk : 8 * (k + 1) - 8 = 8 * k := by omega
      rw [List.drop_succ_cons, ih, byteBits_cons, List.drop_append, h8, length_bitsOf, hk, List.nil_append]

/-! ### Single bits of a byte sequence -/

theorem bitAt_lt_two (d : List Byte) (q : Nat) : bitAt d q < 2 := Nat.mod_lt _ (by omega)

theorem bitAt_eq_testBit (d : List Byte) (q : Nat) :
    bitAt d q = ((d.getD (q / 8) 0#8).toNat.testBit (7 - q % 8)).toNat := by
  simp only [bitAt, Nat.testBit, Nat.shiftRight_eq_div_pow, Nat.one_and_eq_mod_two]
  rcases Nat.mod_two_eq_zero_or_one ((d.getD (q / 8) 0#8).toNat / 2 ^ (7 - q % 8)) with h | h <;> rw [h] <;> rfl

theorem getElem_byteBits (d : List Byte) (q : Nat) (h : q < (byteBits d).length) :
    (byteBits d)[q] = decide (bitAt d q = 1) := by
  induction d generalizing q with
  | nil => simp at h
  | cons x d ih =>
    simp only [byteBits_cons, List.getElem_append]
    split
    · next h8 =>
      simp only [length_bitsOf] at h8
      rw [getElem_bitsOf, bitAt_eq_testBit]
      have e1 : q / 8 = 0 := by omega
      have e2 : 8 - 1 - q = 7 - q % 8 := by omega
      rw [e1, e2]
      simp only [List.getD_cons_zero]
      cases x.toNat.testBit (7 - q % 8) <;> rfl
    · next h8 =>
      simp only [length_bitsOf] at h8
      rw [ih]
      have e1 : q / 8 = (q - 8) / 8 + 1 := by omega
      have e2 : q % 8 = (q - 8) % 8 := by omega
      simp only [bitAt, length_bitsOf, e1, e2, List.getD_cons_succ]

theorem bitAt_drop (d : List Byte) (k q : Nat) : bitAt (d.drop k) q = bitAt d (8 * k + q) := by
  have e1 : (8 * k + q) / 8 = k + q / 8 := by omega
  have e2 : (8 * k + q) % 8 = q % 8 := by omega
  simp [bitAt, e1, e2, List.getD_eq_getElem?_getD]

theorem bitAt_append_left (d e : List Byte) (q : Nat) (h : q < 8 * d.length) : bitAt (d ++ e) q = bitAt d q := by
  simp only [bitAt, List.getD_eq_getElem?_getD]
  rw [List.getElem?_append_left (by omega)]

/-! ### Runs of bits -/

theorem bitsAt_lt (d : List Byte) (q n : Nat) : bitsAt d q n < 2 ^ n := by
  induction n with
  | zero => simp [bitsAt]
  | succ n ih =>
    have := bitAt_lt_two d (q + n)
    simp only [bitsAt, Nat.pow_succ]
    omega

/-- A read of a sum is the two reads one after the other. -/
theorem bitsAt_add (d : List Byte) (q n m : Nat) : bitsAt d q (n + m) = bitsAt d q n * 2 ^ m + bitsAt d (q + n) m := by
  induction m with
  | zero => simp [bitsAt]
  | succ m ih =>
    rw [← Nat.add_assoc, bitsAt, ih, bitsAt, Nat.pow_succ, Nat.add_assoc q n m]
    ring

/-- The bits of a peeked number are the bits of the byte sequence. -/
theorem bitsOf_bitsAt (d : List Byte) (q n : Nat) (h : q + n ≤ 8 * d.length) :
    bitsOf n (bitsAt d q n) = ((byteBits d).drop q).take n := by
  induction n with
  | zero => simp [bitsOf]
  | succ n ih =>
    have h1 : bitAt d (q + n) < 2 ^ 1 := by have := bitAt_lt_two d (q + n); omega
    have e : bitsAt d q (n + 1) = bitsAt d q n * 2 ^ 1 + bitAt d (q + n) := by simp [bitsAt]; omega
    rw [e, bitsOf_append n 1 _ _ h1, ih (by omega), List.take_succ_eq_append_getElem (by simp; omega)]
    congr 1
    rw [List.getElem_drop, getElem_byteBits]
    have := bitAt_lt_two d (q + n)
    have : bitAt d (q + n) = 0 ∨ bitAt d (q + n) = 1 := by omega
    rcases this with h | h <;> simp [bitsOf, h]

/-- Peeked numbers are equal when the bits are. -/
theorem bitsAt_eq_of_bits {d e : List Byte} {q r n : Nat} (hd : q + n ≤ 8 * d.length) (he : r + n ≤ 8 * e.length)
    (h : ((byteBits d).drop q).take n = ((byteBits e).drop r).take n) : bitsAt d q n = bitsAt e r n := by
  rw [← bitsOf_bitsAt d q n hd, ← bitsOf_bitsAt e r n he] at h
  exact bitsOf_inj (bitsAt_lt ..) (bitsAt_lt ..) h

/-! ### The unread bits of a state -/

@[simp] theorem length_unreadBits (s : State) : (unreadBits s).length = avail s := by
  simp [unreadBits, avail]

theorem peek_lt (s : State) (n : Nat) : peek s n < 2 ^ n := bitsAt_lt ..

theorem pos_add_le_of_avail {s : State} {n : Nat} (hn : n ≤ avail s) (h0 : n ≠ 0) : s.curPos + n ≤ 8 * s.curData.length := by
  unfold avail at hn
  omega

/-- The first `n` unread bits are the bits of the number peeked. -/
theorem take_unreadBits (s : State) (n : Nat) (hn : n ≤ avail s) : (unreadBits s).take n = bitsOf n (peek s n) := by
  by_cases h0 : n = 0
  · subst h0; simp [bitsOf]
  · rw [peek, bitsOf_bitsAt _ _ _ (pos_add_le_of_avail hn h0), unreadBits]

/-- The number peeked is the one whose bits the unread bits begin with. -/
theorem peek_eq_iff (s : State) (n v : Nat) (hn : n ≤ avail s) (hv : v < 2 ^ n) :
    peek s n = v ↔ bitsOf n v <+: unreadBits s := by
  rw [List.prefix_iff_eq_take, length_bitsOf, take_unreadBits s n hn]
  constructor
  · rintro rfl; rfl
  · intro h; exact bitsOf_inj (peek_lt ..) hv h.symm

/-- A codeword matches when the unread bits begin with it (R150). -/
theorem matchesUnread_iff (s : State) (e : CodeEntry) (he : e.code < 2 ^ e.len) :
    matchesUnread s e = true ↔ codeBits e <+: unreadBits s := by
  simp only [matchesUnread, Bool.and_eq_true, decide_eq_true_eq, codeBits]
  constructor
  · rintro ⟨h1, h2⟩
    exact (peek_eq_iff s e.len e.code h1 he).1 h2
  · intro h
    have h1 : e.len ≤ avail s := by simpa using h.length_le
    exact ⟨h1, (peek_eq_iff s e.len e.code h1 he).2 h⟩

/-- The unread bits are a proper beginning of a codeword (R150). -/
theorem extendsUnread_iff (s : State) (e : CodeEntry) (he : e.code < 2 ^ e.len) :
    extendsUnread s e = true ↔ unreadBits s <+: codeBits e ∧ avail s < e.len := by
  simp only [extendsUnread, Bool.and_eq_true, decide_eq_true_eq, codeBits]
  rw [and_comm]
  refine and_congr_left fun hlt => ?_
  obtain ⟨m, hm⟩ : ∃ m, e.len = avail s + m := ⟨e.len - avail s, by omega⟩
  have hv : e.code / 2 ^ m < 2 ^ avail s := by
    rw [Nat.div_lt_iff_lt_mul (Nat.two_pow_pos m), ← Nat.pow_add, ← hm]
    exact he
  rw [hm, Nat.add_sub_cancel_left, bitsOf_split, peek_eq_iff s _ _ (Nat.le_refl _) hv]
  constructor
  · intro h
    rw [h.eq_of_length (by simp)]
    exact List.prefix_append ..
  · intro h
    have h1 := List.prefix_of_prefix_length_le h (List.prefix_append ..) (by simp)
    rw [h1.eq_of_length (by simp)]

/-- What is left of the unread bits when the read position has moved on. -/
theorem drop_unreadBits (s t : State) (n : Nat) (hd : t.curData = s.curData) (hp : t.curPos = s.curPos + n) :
    unreadBits t = (unreadBits s).drop n := by
  simp [unreadBits, hd, hp]

/-- The unread bits split at a read. -/
theorem unreadBits_eq (s : State) (n : Nat) (hn : n ≤ avail s) :
    unreadBits s = bitsOf n (peek s n) ++ (unreadBits s).drop n := by
  rw [← take_unreadBits s n hn, List.take_append_drop]

/-- The unread bits begin inside the byte that holds the read position. -/
theorem unreadBits_eq_tailBytes (s : State) : unreadBits s = (byteBits (tailBytes s)).drop (s.curPos % 8) := by
  rw [tailBytes, byteBits_drop, List.drop_drop, unreadBits]
  congr 1
  omega

@[simp] theorem length_tailBytes (s : State) : (tailBytes s).length = tail s := by
  simp [tailBytes, tail]

end Sys2Proof.Machine
end

