-- ==== Sys2Proof/Laws/State.lean ====
section
/-! SUPPORT. The state and its updates: one lemma per field per named update, true by `rfl`. -/

namespace Sys2Proof.Machine

variable (s : State)

/-! ### `raise` -/

@[simp] theorem raise_params (e : Err) : (raise e s).params = s.params := rfl
@[simp] theorem raise_mode (e : Err) : (raise e s).mode = .fault := rfl
@[simp] theorem raise_eoe (e : Err) : (raise e s).eoe = s.eoe := rfl
@[simp] theorem raise_err (e : Err) : (raise e s).err = e.code := rfl
@[simp] theorem raise_errMcu (e : Err) : (raise e s).errMcu = s.mcuIdx := rfl
@[simp] theorem raise_errLoc (e : Err) : (raise e s).errLoc = locWord s.chIdx s.blkIdx := rfl
@[simp] theorem raise_result (e : Err) : (raise e s).result = s.result := rfl
@[simp] theorem raise_mcuCount (e : Err) : (raise e s).mcuCount = s.mcuCount := rfl
@[simp] theorem raise_mcuStop (e : Err) : (raise e s).mcuStop = s.mcuStop := rfl
@[simp] theorem raise_numCh (e : Err) : (raise e s).numCh = s.numCh := rfl
@[simp] theorem raise_chCfg (e : Err) : (raise e s).chCfg = s.chCfg := rfl
@[simp] theorem raise_mcuIdx (e : Err) : (raise e s).mcuIdx = s.mcuIdx := rfl
@[simp] theorem raise_chIdx (e : Err) : (raise e s).chIdx = s.chIdx := rfl
@[simp] theorem raise_blkIdx (e : Err) : (raise e s).blkIdx = s.blkIdx := rfl
@[simp] theorem raise_outCount (e : Err) : (raise e s).outCount = s.outCount := rfl
@[simp] theorem raise_curData (e : Err) : (raise e s).curData = s.curData := rfl
@[simp] theorem raise_curPos (e : Err) : (raise e s).curPos = s.curPos := rfl
@[simp] theorem raise_curBackable (e : Err) : (raise e s).curBackable = s.curBackable := rfl
@[simp] theorem raise_bitpos (e : Err) : (raise e s).bitpos = s.bitpos := rfl
@[simp] theorem raise_pred (e : Err) : (raise e s).pred = s.pred := rfl
@[simp] theorem raise_coef (e : Err) : (raise e s).coef = s.coef := rfl
@[simp] theorem raise_srcPos (e : Err) : (raise e s).srcPos = s.srcPos := rfl
@[simp] theorem raise_srcLen (e : Err) : (raise e s).srcLen = s.srcLen := rfl
@[simp] theorem raise_tblCnt (e : Err) : (raise e s).tblCnt = s.tblCnt := rfl
@[simp] theorem raise_tblSym (e : Err) : (raise e s).tblSym = s.tblSym := rfl
@[simp] theorem raise_tbl (e : Err) : (raise e s).tbl = s.tbl := rfl
@[simp] theorem raise_out (e : Err) : (raise e s).out = s.out := rfl
@[simp] theorem raise_src (e : Err) : (raise e s).src = s.src := rfl
@[simp] theorem raise_unit (e : Err) : (raise e s).unit = .idle := rfl
@[simp] theorem raise_script (e : Err) : (raise e s).script = s.script := rfl
@[simp] theorem raise_lastRead (e : Err) : (raise e s).lastRead = s.lastRead := rfl

/-! ### `advance` -/

@[simp] theorem advance_params (n : Nat) : (advance n s).params = s.params := rfl
@[simp] theorem advance_mode (n : Nat) : (advance n s).mode = s.mode := rfl
@[simp] theorem advance_eoe (n : Nat) : (advance n s).eoe = s.eoe := rfl
@[simp] theorem advance_err (n : Nat) : (advance n s).err = s.err := rfl
@[simp] theorem advance_errMcu (n : Nat) : (advance n s).errMcu = s.errMcu := rfl
@[simp] theorem advance_errLoc (n : Nat) : (advance n s).errLoc = s.errLoc := rfl
@[simp] theorem advance_result (n : Nat) : (advance n s).result = s.result := rfl
@[simp] theorem advance_mcuCount (n : Nat) : (advance n s).mcuCount = s.mcuCount := rfl
@[simp] theorem advance_mcuStop (n : Nat) : (advance n s).mcuStop = s.mcuStop := rfl
@[simp] theorem advance_numCh (n : Nat) : (advance n s).numCh = s.numCh := rfl
@[simp] theorem advance_chCfg (n : Nat) : (advance n s).chCfg = s.chCfg := rfl
@[simp] theorem advance_mcuIdx (n : Nat) : (advance n s).mcuIdx = s.mcuIdx := rfl
@[simp] theorem advance_chIdx (n : Nat) : (advance n s).chIdx = s.chIdx := rfl
@[simp] theorem advance_blkIdx (n : Nat) : (advance n s).blkIdx = s.blkIdx := rfl
@[simp] theorem advance_outCount (n : Nat) : (advance n s).outCount = s.outCount := rfl
@[simp] theorem advance_curData (n : Nat) : (advance n s).curData = s.curData := rfl
@[simp] theorem advance_curPos (n : Nat) : (advance n s).curPos = s.curPos + n := rfl
@[simp] theorem advance_curBackable (n : Nat) : (advance n s).curBackable = s.curBackable + n := rfl
@[simp] theorem advance_bitpos (n : Nat) : (advance n s).bitpos = s.bitpos + BitVec.ofNat 32 n := rfl
@[simp] theorem advance_pred (n : Nat) : (advance n s).pred = s.pred := rfl
@[simp] theorem advance_coef (n : Nat) : (advance n s).coef = s.coef := rfl
@[simp] theorem advance_srcPos (n : Nat) : (advance n s).srcPos = s.srcPos := rfl
@[simp] theorem advance_srcLen (n : Nat) : (advance n s).srcLen = s.srcLen := rfl
@[simp] theorem advance_tblCnt (n : Nat) : (advance n s).tblCnt = s.tblCnt := rfl
@[simp] theorem advance_tblSym (n : Nat) : (advance n s).tblSym = s.tblSym := rfl
@[simp] theorem advance_tbl (n : Nat) : (advance n s).tbl = s.tbl := rfl
@[simp] theorem advance_out (n : Nat) : (advance n s).out = s.out := rfl
@[simp] theorem advance_src (n : Nat) : (advance n s).src = s.src := rfl
@[simp] theorem advance_unit (n : Nat) : (advance n s).unit = s.unit := rfl
@[simp] theorem advance_script (n : Nat) : (advance n s).script = s.script := rfl
@[simp] theorem advance_lastRead (n : Nat) : (advance n s).lastRead = s.lastRead := rfl

/-! ### `rewind` -/

@[simp] theorem rewind_params (n : Nat) : (rewind n s).params = s.params := rfl
@[simp] theorem rewind_mode (n : Nat) : (rewind n s).mode = s.mode := rfl
@[simp] theorem rewind_eoe (n : Nat) : (rewind n s).eoe = s.eoe := rfl
@[simp] theorem rewind_err (n : Nat) : (rewind n s).err = s.err := rfl
@[simp] theorem rewind_errMcu (n : Nat) : (rewind n s).errMcu = s.errMcu := rfl
@[simp] theorem rewind_errLoc (n : Nat) : (rewind n s).errLoc = s.errLoc := rfl
@[simp] theorem rewind_result (n : Nat) : (rewind n s).result = s.result := rfl
@[simp] theorem rewind_mcuCount (n : Nat) : (rewind n s).mcuCount = s.mcuCount := rfl
@[simp] theorem rewind_mcuStop (n : Nat) : (rewind n s).mcuStop = s.mcuStop := rfl
@[simp] theorem rewind_numCh (n : Nat) : (rewind n s).numCh = s.numCh := rfl
@[simp] theorem rewind_chCfg (n : Nat) : (rewind n s).chCfg = s.chCfg := rfl
@[simp] theorem rewind_mcuIdx (n : Nat) : (rewind n s).mcuIdx = s.mcuIdx := rfl
@[simp] theorem rewind_chIdx (n : Nat) : (rewind n s).chIdx = s.chIdx := rfl
@[simp] theorem rewind_blkIdx (n : Nat) : (rewind n s).blkIdx = s.blkIdx := rfl
@[simp] theorem rewind_outCount (n : Nat) : (rewind n s).outCount = s.outCount := rfl
@[simp] theorem rewind_curData (n : Nat) : (rewind n s).curData = s.curData := rfl
@[simp] theorem rewind_curPos (n : Nat) : (rewind n s).curPos = s.curPos - n := rfl
@[simp] theorem rewind_curBackable (n : Nat) : (rewind n s).curBackable = s.curBackable - n := rfl
@[simp] theorem rewind_bitpos (n : Nat) : (rewind n s).bitpos = s.bitpos - BitVec.ofNat 32 n := rfl
@[simp] theorem rewind_pred (n : Nat) : (rewind n s).pred = s.pred := rfl
@[simp] theorem rewind_coef (n : Nat) : (rewind n s).coef = s.coef := rfl
@[simp] theorem rewind_srcPos (n : Nat) : (rewind n s).srcPos = s.srcPos := rfl
@[simp] theorem rewind_srcLen (n : Nat) : (rewind n s).srcLen = s.srcLen := rfl
@[simp] theorem rewind_tblCnt (n : Nat) : (rewind n s).tblCnt = s.tblCnt := rfl
@[simp] theorem rewind_tblSym (n : Nat) : (rewind n s).tblSym = s.tblSym := rfl
@[simp] theorem rewind_tbl (n : Nat) : (rewind n s).tbl = s.tbl := rfl
@[simp] theorem rewind_out (n : Nat) : (rewind n s).out = s.out := rfl
@[simp] theorem rewind_src (n : Nat) : (rewind n s).src = s.src := rfl
@[simp] theorem rewind_unit (n : Nat) : (rewind n s).unit = s.unit := rfl
@[simp] theorem rewind_script (n : Nat) : (rewind n s).script = s.script := rfl
@[simp] theorem rewind_lastRead (n : Nat) : (rewind n s).lastRead = s.lastRead := rfl

/-! ### `setCursor` -/

@[simp] theorem setCursor_params (d : List Byte) (p : Nat) : (setCursor d p s).params = s.params := rfl
@[simp] theorem setCursor_mode (d : List Byte) (p : Nat) : (setCursor d p s).mode = s.mode := rfl
@[simp] theorem setCursor_eoe (d : List Byte) (p : Nat) : (setCursor d p s).eoe = s.eoe := rfl
@[simp] theorem setCursor_err (d : List Byte) (p : Nat) : (setCursor d p s).err = s.err := rfl
@[simp] theorem setCursor_errMcu (d : List Byte) (p : Nat) : (setCursor d p s).errMcu = s.errMcu := rfl
@[simp] theorem setCursor_errLoc (d : List Byte) (p : Nat) : (setCursor d p s).errLoc = s.errLoc := rfl
@[simp] theorem setCursor_result (d : List Byte) (p : Nat) : (setCursor d p s).result = s.result := rfl
@[simp] theorem setCursor_mcuCount (d : List Byte) (p : Nat) : (setCursor d p s).mcuCount = s.mcuCount := rfl
@[simp] theorem setCursor_mcuStop (d : List Byte) (p : Nat) : (setCursor d p s).mcuStop = s.mcuStop := rfl
@[simp] theorem setCursor_numCh (d : List Byte) (p : Nat) : (setCursor d p s).numCh = s.numCh := rfl
@[simp] theorem setCursor_chCfg (d : List Byte) (p : Nat) : (setCursor d p s).chCfg = s.chCfg := rfl
@[simp] theorem setCursor_mcuIdx (d : List Byte) (p : Nat) : (setCursor d p s).mcuIdx = s.mcuIdx := rfl
@[simp] theorem setCursor_chIdx (d : List Byte) (p : Nat) : (setCursor d p s).chIdx = s.chIdx := rfl
@[simp] theorem setCursor_blkIdx (d : List Byte) (p : Nat) : (setCursor d p s).blkIdx = s.blkIdx := rfl
@[simp] theorem setCursor_outCount (d : List Byte) (p : Nat) : (setCursor d p s).outCount = s.outCount := rfl
@[simp] theorem setCursor_curData (d : List Byte) (p : Nat) : (setCursor d p s).curData = d := rfl
@[simp] theorem setCursor_curPos (d : List Byte) (p : Nat) : (setCursor d p s).curPos = p := rfl
@[simp] theorem setCursor_curBackable (d : List Byte) (p : Nat) : (setCursor d p s).curBackable = 0 := rfl
@[simp] theorem setCursor_bitpos (d : List Byte) (p : Nat) : (setCursor d p s).bitpos = s.bitpos := rfl
@[simp] theorem setCursor_pred (d : List Byte) (p : Nat) : (setCursor d p s).pred = s.pred := rfl
@[simp] theorem setCursor_coef (d : List Byte) (p : Nat) : (setCursor d p s).coef = s.coef := rfl
@[simp] theorem setCursor_srcPos (d : List Byte) (p : Nat) : (setCursor d p s).srcPos = s.srcPos := rfl
@[simp] theorem setCursor_srcLen (d : List Byte) (p : Nat) : (setCursor d p s).srcLen = s.srcLen := rfl
@[simp] theorem setCursor_tblCnt (d : List Byte) (p : Nat) : (setCursor d p s).tblCnt = s.tblCnt := rfl
@[simp] theorem setCursor_tblSym (d : List Byte) (p : Nat) : (setCursor d p s).tblSym = s.tblSym := rfl
@[simp] theorem setCursor_tbl (d : List Byte) (p : Nat) : (setCursor d p s).tbl = s.tbl := rfl
@[simp] theorem setCursor_out (d : List Byte) (p : Nat) : (setCursor d p s).out = s.out := rfl
@[simp] theorem setCursor_src (d : List Byte) (p : Nat) : (setCursor d p s).src = s.src := rfl
@[simp] theorem setCursor_unit (d : List Byte) (p : Nat) : (setCursor d p s).unit = s.unit := rfl
@[simp] theorem setCursor_script (d : List Byte) (p : Nat) : (setCursor d p s).script = s.script := rfl
@[simp] theorem setCursor_lastRead (d : List Byte) (p : Nat) : (setCursor d p s).lastRead = s.lastRead := rfl

/-! ### `setResult` -/

@[simp] theorem setResult_params (v : Nat) : (setResult v s).params = s.params := rfl
@[simp] theorem setResult_mode (v : Nat) : (setResult v s).mode = s.mode := rfl
@[simp] theorem setResult_eoe (v : Nat) : (setResult v s).eoe = s.eoe := rfl
@[simp] theorem setResult_err (v : Nat) : (setResult v s).err = s.err := rfl
@[simp] theorem setResult_errMcu (v : Nat) : (setResult v s).errMcu = s.errMcu := rfl
@[simp] theorem setResult_errLoc (v : Nat) : (setResult v s).errLoc = s.errLoc := rfl
@[simp] theorem setResult_result (v : Nat) : (setResult v s).result = BitVec.ofNat 32 v := rfl
@[simp] theorem setResult_mcuCount (v : Nat) : (setResult v s).mcuCount = s.mcuCount := rfl
@[simp] theorem setResult_mcuStop (v : Nat) : (setResult v s).mcuStop = s.mcuStop := rfl
@[simp] theorem setResult_numCh (v : Nat) : (setResult v s).numCh = s.numCh := rfl
@[simp] theorem setResult_chCfg (v : Nat) : (setResult v s).chCfg = s.chCfg := rfl
@[simp] theorem setResult_mcuIdx (v : Nat) : (setResult v s).mcuIdx = s.mcuIdx := rfl
@[simp] theorem setResult_chIdx (v : Nat) : (setResult v s).chIdx = s.chIdx := rfl
@[simp] theorem setResult_blkIdx (v : Nat) : (setResult v s).blkIdx = s.blkIdx := rfl
@[simp] theorem setResult_outCount (v : Nat) : (setResult v s).outCount = s.outCount := rfl
@[simp] theorem setResult_curData (v : Nat) : (setResult v s).curData = s.curData := rfl
@[simp] theorem setResult_curPos (v : Nat) : (setResult v s).curPos = s.curPos := rfl
@[simp] theorem setResult_curBackable (v : Nat) : (setResult v s).curBackable = s.curBackable := rfl
@[simp] theorem setResult_bitpos (v : Nat) : (setResult v s).bitpos = s.bitpos := rfl
@[simp] theorem setResult_pred (v : Nat) : (setResult v s).pred = s.pred := rfl
@[simp] theorem setResult_coef (v : Nat) : (setResult v s).coef = s.coef := rfl
@[simp] theorem setResult_srcPos (v : Nat) : (setResult v s).srcPos = s.srcPos := rfl
@[simp] theorem setResult_srcLen (v : Nat) : (setResult v s).srcLen = s.srcLen := rfl
@[simp] theorem setResult_tblCnt (v : Nat) : (setResult v s).tblCnt = s.tblCnt := rfl
@[simp] theorem setResult_tblSym (v : Nat) : (setResult v s).tblSym = s.tblSym := rfl
@[simp] theorem setResult_tbl (v : Nat) : (setResult v s).tbl = s.tbl := rfl
@[simp] theorem setResult_out (v : Nat) : (setResult v s).out = s.out := rfl
@[simp] theorem setResult_src (v : Nat) : (setResult v s).src = s.src := rfl
@[simp] theorem setResult_unit (v : Nat) : (setResult v s).unit = s.unit := rfl
@[simp] theorem setResult_script (v : Nat) : (setResult v s).script = s.script := rfl
@[simp] theorem setResult_lastRead (v : Nat) : (setResult v s).lastRead = s.lastRead := rfl

/-! ### `setTable` -/

@[simp] theorem setTable_params (i : Fin 8) (t : Table) : (setTable i t s).params = s.params := rfl
@[simp] theorem setTable_mode (i : Fin 8) (t : Table) : (setTable i t s).mode = s.mode := rfl
@[simp] theorem setTable_eoe (i : Fin 8) (t : Table) : (setTable i t s).eoe = s.eoe := rfl
@[simp] theorem setTable_err (i : Fin 8) (t : Table) : (setTable i t s).err = s.err := rfl
@[simp] theorem setTable_errMcu (i : Fin 8) (t : Table) : (setTable i t s).errMcu = s.errMcu := rfl
@[simp] theorem setTable_errLoc (i : Fin 8) (t : Table) : (setTable i t s).errLoc = s.errLoc := rfl
@[simp] theorem setTable_result (i : Fin 8) (t : Table) : (setTable i t s).result = s.result := rfl
@[simp] theorem setTable_mcuCount (i : Fin 8) (t : Table) : (setTable i t s).mcuCount = s.mcuCount := rfl
@[simp] theorem setTable_mcuStop (i : Fin 8) (t : Table) : (setTable i t s).mcuStop = s.mcuStop := rfl
@[simp] theorem setTable_numCh (i : Fin 8) (t : Table) : (setTable i t s).numCh = s.numCh := rfl
@[simp] theorem setTable_chCfg (i : Fin 8) (t : Table) : (setTable i t s).chCfg = s.chCfg := rfl
@[simp] theorem setTable_mcuIdx (i : Fin 8) (t : Table) : (setTable i t s).mcuIdx = s.mcuIdx := rfl
@[simp] theorem setTable_chIdx (i : Fin 8) (t : Table) : (setTable i t s).chIdx = s.chIdx := rfl
@[simp] theorem setTable_blkIdx (i : Fin 8) (t : Table) : (setTable i t s).blkIdx = s.blkIdx := rfl
@[simp] theorem setTable_outCount (i : Fin 8) (t : Table) : (setTable i t s).outCount = s.outCount := rfl
@[simp] theorem setTable_curData (i : Fin 8) (t : Table) : (setTable i t s).curData = s.curData := rfl
@[simp] theorem setTable_curPos (i : Fin 8) (t : Table) : (setTable i t s).curPos = s.curPos := rfl
@[simp] theorem setTable_curBackable (i : Fin 8) (t : Table) : (setTable i t s).curBackable = s.curBackable := rfl
@[simp] theorem setTable_bitpos (i : Fin 8) (t : Table) : (setTable i t s).bitpos = s.bitpos := rfl
@[simp] theorem setTable_pred (i : Fin 8) (t : Table) : (setTable i t s).pred = s.pred := rfl
@[simp] theorem setTable_coef (i : Fin 8) (t : Table) : (setTable i t s).coef = s.coef := rfl
@[simp] theorem setTable_srcPos (i : Fin 8) (t : Table) : (setTable i t s).srcPos = s.srcPos := rfl
@[simp] theorem setTable_srcLen (i : Fin 8) (t : Table) : (setTable i t s).srcLen = s.srcLen := rfl
@[simp] theorem setTable_tblCnt (i : Fin 8) (t : Table) : (setTable i t s).tblCnt = s.tblCnt := rfl
@[simp] theorem setTable_tblSym (i : Fin 8) (t : Table) : (setTable i t s).tblSym = s.tblSym := rfl
@[simp] theorem setTable_tbl (i : Fin 8) (t : Table) : (setTable i t s).tbl = s.tbl.set i t := rfl
@[simp] theorem setTable_out (i : Fin 8) (t : Table) : (setTable i t s).out = s.out := rfl
@[simp] theorem setTable_src (i : Fin 8) (t : Table) : (setTable i t s).src = s.src := rfl
@[simp] theorem setTable_unit (i : Fin 8) (t : Table) : (setTable i t s).unit = s.unit := rfl
@[simp] theorem setTable_script (i : Fin 8) (t : Table) : (setTable i t s).script = s.script := rfl
@[simp] theorem setTable_lastRead (i : Fin 8) (t : Table) : (setTable i t s).lastRead = s.lastRead := rfl

/-! ### `skipSource` -/

@[simp] theorem skipSource_params (n : Nat) : (skipSource n s).params = s.params := rfl
@[simp] theorem skipSource_mode (n : Nat) : (skipSource n s).mode = s.mode := rfl
@[simp] theorem skipSource_eoe (n : Nat) : (skipSource n s).eoe = s.eoe := rfl
@[simp] theorem skipSource_err (n : Nat) : (skipSource n s).err = s.err := rfl
@[simp] theorem skipSource_errMcu (n : Nat) : (skipSource n s).errMcu = s.errMcu := rfl
@[simp] theorem skipSource_errLoc (n : Nat) : (skipSource n s).errLoc = s.errLoc := rfl
@[simp] theorem skipSource_result (n : Nat) : (skipSource n s).result = s.result := rfl
@[simp] theorem skipSource_mcuCount (n : Nat) : (skipSource n s).mcuCount = s.mcuCount := rfl
@[simp] theorem skipSource_mcuStop (n : Nat) : (skipSource n s).mcuStop = s.mcuStop := rfl
@[simp] theorem skipSource_numCh (n : Nat) : (skipSource n s).numCh = s.numCh := rfl
@[simp] theorem skipSource_chCfg (n : Nat) : (skipSource n s).chCfg = s.chCfg := rfl
@[simp] theorem skipSource_mcuIdx (n : Nat) : (skipSource n s).mcuIdx = s.mcuIdx := rfl
@[simp] theorem skipSource_chIdx (n : Nat) : (skipSource n s).chIdx = s.chIdx := rfl
@[simp] theorem skipSource_blkIdx (n : Nat) : (skipSource n s).blkIdx = s.blkIdx := rfl
@[simp] theorem skipSource_outCount (n : Nat) : (skipSource n s).outCount = s.outCount := rfl
@[simp] theorem skipSource_curData (n : Nat) : (skipSource n s).curData = s.curData := rfl
@[simp] theorem skipSource_curPos (n : Nat) : (skipSource n s).curPos = s.curPos := rfl
@[simp] theorem skipSource_curBackable (n : Nat) : (skipSource n s).curBackable = s.curBackable := rfl
@[simp] theorem skipSource_bitpos (n : Nat) : (skipSource n s).bitpos = s.bitpos := rfl
@[simp] theorem skipSource_pred (n : Nat) : (skipSource n s).pred = s.pred := rfl
@[simp] theorem skipSource_coef (n : Nat) : (skipSource n s).coef = s.coef := rfl
@[simp] theorem skipSource_srcPos (n : Nat) : (skipSource n s).srcPos = s.srcPos + BitVec.ofNat 32 n := rfl
@[simp] theorem skipSource_srcLen (n : Nat) : (skipSource n s).srcLen = s.srcLen := rfl
@[simp] theorem skipSource_tblCnt (n : Nat) : (skipSource n s).tblCnt = s.tblCnt := rfl
@[simp] theorem skipSource_tblSym (n : Nat) : (skipSource n s).tblSym = s.tblSym := rfl
@[simp] theorem skipSource_tbl (n : Nat) : (skipSource n s).tbl = s.tbl := rfl
@[simp] theorem skipSource_out (n : Nat) : (skipSource n s).out = s.out := rfl
@[simp] theorem skipSource_src (n : Nat) : (skipSource n s).src = s.src := rfl
@[simp] theorem skipSource_unit (n : Nat) : (skipSource n s).unit = s.unit := rfl
@[simp] theorem skipSource_script (n : Nat) : (skipSource n s).script = s.script := rfl
@[simp] theorem skipSource_lastRead (n : Nat) : (skipSource n s).lastRead = s.lastRead := rfl

/-! ### `setEoe` -/

@[simp] theorem setEoe_params : (setEoe s).params = s.params := rfl
@[simp] theorem setEoe_mode : (setEoe s).mode = s.mode := rfl
@[simp] theorem setEoe_eoe : (setEoe s).eoe = true := rfl
@[simp] theorem setEoe_err : (setEoe s).err = s.err := rfl
@[simp] theorem setEoe_errMcu : (setEoe s).errMcu = s.errMcu := rfl
@[simp] theorem setEoe_errLoc : (setEoe s).errLoc = s.errLoc := rfl
@[simp] theorem setEoe_result : (setEoe s).result = s.result := rfl
@[simp] theorem setEoe_mcuCount : (setEoe s).mcuCount = s.mcuCount := rfl
@[simp] theorem setEoe_mcuStop : (setEoe s).mcuStop = s.mcuStop := rfl
@[simp] theorem setEoe_numCh : (setEoe s).numCh = s.numCh := rfl
@[simp] theorem setEoe_chCfg : (setEoe s).chCfg = s.chCfg := rfl
@[simp] theorem setEoe_mcuIdx : (setEoe s).mcuIdx = s.mcuIdx := rfl
@[simp] theorem setEoe_chIdx : (setEoe s).chIdx = s.chIdx := rfl
@[simp] theorem setEoe_blkIdx : (setEoe s).blkIdx = s.blkIdx := rfl
@[simp] theorem setEoe_outCount : (setEoe s).outCount = s.outCount := rfl
@[simp] theorem setEoe_curData : (setEoe s).curData = s.curData := rfl
@[simp] theorem setEoe_curPos : (setEoe s).curPos = s.curPos := rfl
@[simp] theorem setEoe_curBackable : (setEoe s).curBackable = s.curBackable := rfl
@[simp] theorem setEoe_bitpos : (setEoe s).bitpos = s.bitpos := rfl
@[simp] theorem setEoe_pred : (setEoe s).pred = s.pred := rfl
@[simp] theorem setEoe_coef : (setEoe s).coef = s.coef := rfl
@[simp] theorem setEoe_srcPos : (setEoe s).srcPos = s.srcPos := rfl
@[simp] theorem setEoe_srcLen : (setEoe s).srcLen = s.srcLen := rfl
@[simp] theorem setEoe_tblCnt : (setEoe s).tblCnt = s.tblCnt := rfl
@[simp] theorem setEoe_tblSym : (setEoe s).tblSym = s.tblSym := rfl
@[simp] theorem setEoe_tbl : (setEoe s).tbl = s.tbl := rfl
@[simp] theorem setEoe_out : (setEoe s).out = s.out := rfl
@[simp] theorem setEoe_src : (setEoe s).src = s.src := rfl
@[simp] theorem setEoe_unit : (setEoe s).unit = s.unit := rfl
@[simp] theorem setEoe_script : (setEoe s).script = s.script := rfl
@[simp] theorem setEoe_lastRead : (setEoe s).lastRead = s.lastRead := rfl

/-! ### `setCoef` -/

@[simp] theorem setCoef_params (k : Nat) (v : Word) : (setCoef k v s).params = s.params := rfl
@[simp] theorem setCoef_mode (k : Nat) (v : Word) : (setCoef k v s).mode = s.mode := rfl
@[simp] theorem setCoef_eoe (k : Nat) (v : Word) : (setCoef k v s).eoe = s.eoe := rfl
@[simp] theorem setCoef_err (k : Nat) (v : Word) : (setCoef k v s).err = s.err := rfl
@[simp] theorem setCoef_errMcu (k : Nat) (v : Word) : (setCoef k v s).errMcu = s.errMcu := rfl
@[simp] theorem setCoef_errLoc (k : Nat) (v : Word) : (setCoef k v s).errLoc = s.errLoc := rfl
@[simp] theorem setCoef_result (k : Nat) (v : Word) : (setCoef k v s).result = s.result := rfl
@[simp] theorem setCoef_mcuCount (k : Nat) (v : Word) : (setCoef k v s).mcuCount = s.mcuCount := rfl
@[simp] theorem setCoef_mcuStop (k : Nat) (v : Word) : (setCoef k v s).mcuStop = s.mcuStop := rfl
@[simp] theorem setCoef_numCh (k : Nat) (v : Word) : (setCoef k v s).numCh = s.numCh := rfl
@[simp] theorem setCoef_chCfg (k : Nat) (v : Word) : (setCoef k v s).chCfg = s.chCfg := rfl
@[simp] theorem setCoef_mcuIdx (k : Nat) (v : Word) : (setCoef k v s).mcuIdx = s.mcuIdx := rfl
@[simp] theorem setCoef_chIdx (k : Nat) (v : Word) : (setCoef k v s).chIdx = s.chIdx := rfl
@[simp] theorem setCoef_blkIdx (k : Nat) (v : Word) : (setCoef k v s).blkIdx = s.blkIdx := rfl
@[simp] theorem setCoef_outCount (k : Nat) (v : Word) : (setCoef k v s).outCount = s.outCount := rfl
@[simp] theorem setCoef_curData (k : Nat) (v : Word) : (setCoef k v s).curData = s.curData := rfl
@[simp] theorem setCoef_curPos (k : Nat) (v : Word) : (setCoef k v s).curPos = s.curPos := rfl
@[simp] theorem setCoef_curBackable (k : Nat) (v : Word) : (setCoef k v s).curBackable = s.curBackable := rfl
@[simp] theorem setCoef_bitpos (k : Nat) (v : Word) : (setCoef k v s).bitpos = s.bitpos := rfl
@[simp] theorem setCoef_pred (k : Nat) (v : Word) : (setCoef k v s).pred = s.pred := rfl
@[simp] theorem setCoef_coef (k : Nat) (v : Word) : (setCoef k v s).coef = s.coef.setIfInBounds k v := rfl
@[simp] theorem setCoef_srcPos (k : Nat) (v : Word) : (setCoef k v s).srcPos = s.srcPos := rfl
@[simp] theorem setCoef_srcLen (k : Nat) (v : Word) : (setCoef k v s).srcLen = s.srcLen := rfl
@[simp] theorem setCoef_tblCnt (k : Nat) (v : Word) : (setCoef k v s).tblCnt = s.tblCnt := rfl
@[simp] theorem setCoef_tblSym (k : Nat) (v : Word) : (setCoef k v s).tblSym = s.tblSym := rfl
@[simp] theorem setCoef_tbl (k : Nat) (v : Word) : (setCoef k v s).tbl = s.tbl := rfl
@[simp] theorem setCoef_out (k : Nat) (v : Word) : (setCoef k v s).out = s.out := rfl
@[simp] theorem setCoef_src (k : Nat) (v : Word) : (setCoef k v s).src = s.src := rfl
@[simp] theorem setCoef_unit (k : Nat) (v : Word) : (setCoef k v s).unit = s.unit := rfl
@[simp] theorem setCoef_script (k : Nat) (v : Word) : (setCoef k v s).script = s.script := rfl
@[simp] theorem setCoef_lastRead (k : Nat) (v : Word) : (setCoef k v s).lastRead = s.lastRead := rfl

/-! ### `zeroCoef` -/

@[simp] theorem zeroCoef_params : (zeroCoef s).params = s.params := rfl
@[simp] theorem zeroCoef_mode : (zeroCoef s).mode = s.mode := rfl
@[simp] theorem zeroCoef_eoe : (zeroCoef s).eoe = s.eoe := rfl
@[simp] theorem zeroCoef_err : (zeroCoef s).err = s.err := rfl
@[simp] theorem zeroCoef_errMcu : (zeroCoef s).errMcu = s.errMcu := rfl
@[simp] theorem zeroCoef_errLoc : (zeroCoef s).errLoc = s.errLoc := rfl
@[simp] theorem zeroCoef_result : (zeroCoef s).result = s.result := rfl
@[simp] theorem zeroCoef_mcuCount : (zeroCoef s).mcuCount = s.mcuCount := rfl
@[simp] theorem zeroCoef_mcuStop : (zeroCoef s).mcuStop = s.mcuStop := rfl
@[simp] theorem zeroCoef_numCh : (zeroCoef s).numCh = s.numCh := rfl
@[simp] theorem zeroCoef_chCfg : (zeroCoef s).chCfg = s.chCfg := rfl
@[simp] theorem zeroCoef_mcuIdx : (zeroCoef s).mcuIdx = s.mcuIdx := rfl
@[simp] theorem zeroCoef_chIdx : (zeroCoef s).chIdx = s.chIdx := rfl
@[simp] theorem zeroCoef_blkIdx : (zeroCoef s).blkIdx = s.blkIdx := rfl
@[simp] theorem zeroCoef_outCount : (zeroCoef s).outCount = s.outCount := rfl
@[simp] theorem zeroCoef_curData : (zeroCoef s).curData = s.curData := rfl
@[simp] theorem zeroCoef_curPos : (zeroCoef s).curPos = s.curPos := rfl
@[simp] theorem zeroCoef_curBackable : (zeroCoef s).curBackable = s.curBackable := rfl
@[simp] theorem zeroCoef_bitpos : (zeroCoef s).bitpos = s.bitpos := rfl
@[simp] theorem zeroCoef_pred : (zeroCoef s).pred = s.pred := rfl
@[simp] theorem zeroCoef_coef : (zeroCoef s).coef = Vector.replicate 64 0#32 := rfl
@[simp] theorem zeroCoef_srcPos : (zeroCoef s).srcPos = s.srcPos := rfl
@[simp] theorem zeroCoef_srcLen : (zeroCoef s).srcLen = s.srcLen := rfl
@[simp] theorem zeroCoef_tblCnt : (zeroCoef s).tblCnt = s.tblCnt := rfl
@[simp] theorem zeroCoef_tblSym : (zeroCoef s).tblSym = s.tblSym := rfl
@[simp] theorem zeroCoef_tbl : (zeroCoef s).tbl = s.tbl := rfl
@[simp] theorem zeroCoef_out : (zeroCoef s).out = s.out := rfl
@[simp] theorem zeroCoef_src : (zeroCoef s).src = s.src := rfl
@[simp] theorem zeroCoef_unit : (zeroCoef s).unit = s.unit := rfl
@[simp] theorem zeroCoef_script : (zeroCoef s).script = s.script := rfl
@[simp] theorem zeroCoef_lastRead : (zeroCoef s).lastRead = s.lastRead := rfl

/-! ### `zeroPred` -/

@[simp] theorem zeroPred_params : (zeroPred s).params = s.params := rfl
@[simp] theorem zeroPred_mode : (zeroPred s).mode = s.mode := rfl
@[simp] theorem zeroPred_eoe : (zeroPred s).eoe = s.eoe := rfl
@[simp] theorem zeroPred_err : (zeroPred s).err = s.err := rfl
@[simp] theorem zeroPred_errMcu : (zeroPred s).errMcu = s.errMcu := rfl
@[simp] theorem zeroPred_errLoc : (zeroPred s).errLoc = s.errLoc := rfl
@[simp] theorem zeroPred_result : (zeroPred s).result = s.result := rfl
@[simp] theorem zeroPred_mcuCount : (zeroPred s).mcuCount = s.mcuCount := rfl
@[simp] theorem zeroPred_mcuStop : (zeroPred s).mcuStop = s.mcuStop := rfl
@[simp] theorem zeroPred_numCh : (zeroPred s).numCh = s.numCh := rfl
@[simp] theorem zeroPred_chCfg : (zeroPred s).chCfg = s.chCfg := rfl
@[simp] theorem zeroPred_mcuIdx : (zeroPred s).mcuIdx = s.mcuIdx := rfl
@[simp] theorem zeroPred_chIdx : (zeroPred s).chIdx = s.chIdx := rfl
@[simp] theorem zeroPred_blkIdx : (zeroPred s).blkIdx = s.blkIdx := rfl
@[simp] theorem zeroPred_outCount : (zeroPred s).outCount = s.outCount := rfl
@[simp] theorem zeroPred_curData : (zeroPred s).curData = s.curData := rfl
@[simp] theorem zeroPred_curPos : (zeroPred s).curPos = s.curPos := rfl
@[simp] theorem zeroPred_curBackable : (zeroPred s).curBackable = s.curBackable := rfl
@[simp] theorem zeroPred_bitpos : (zeroPred s).bitpos = s.bitpos := rfl
@[simp] theorem zeroPred_pred : (zeroPred s).pred = Vector.replicate 4 0#32 := rfl
@[simp] theorem zeroPred_coef : (zeroPred s).coef = s.coef := rfl
@[simp] theorem zeroPred_srcPos : (zeroPred s).srcPos = s.srcPos := rfl
@[simp] theorem zeroPred_srcLen : (zeroPred s).srcLen = s.srcLen := rfl
@[simp] theorem zeroPred_tblCnt : (zeroPred s).tblCnt = s.tblCnt := rfl
@[simp] theorem zeroPred_tblSym : (zeroPred s).tblSym = s.tblSym := rfl
@[simp] theorem zeroPred_tbl : (zeroPred s).tbl = s.tbl := rfl
@[simp] theorem zeroPred_out : (zeroPred s).out = s.out := rfl
@[simp] theorem zeroPred_src : (zeroPred s).src = s.src := rfl
@[simp] theorem zeroPred_unit : (zeroPred s).unit = s.unit := rfl
@[simp] theorem zeroPred_script : (zeroPred s).script = s.script := rfl
@[simp] theorem zeroPred_lastRead : (zeroPred s).lastRead = s.lastRead := rfl

/-! ### `appendBlock` -/

@[simp] theorem appendBlock_params : (appendBlock s).params = s.params := rfl
@[simp] theorem appendBlock_mode : (appendBlock s).mode = s.mode := rfl
@[simp] theorem appendBlock_eoe : (appendBlock s).eoe = s.eoe := rfl
@[simp] theorem appendBlock_err : (appendBlock s).err = s.err := rfl
@[simp] theorem appendBlock_errMcu : (appendBlock s).errMcu = s.errMcu := rfl
@[simp] theorem appendBlock_errLoc : (appendBlock s).errLoc = s.errLoc := rfl
@[simp] theorem appendBlock_result : (appendBlock s).result = s.result := rfl
@[simp] theorem appendBlock_mcuCount : (appendBlock s).mcuCount = s.mcuCount := rfl
@[simp] theorem appendBlock_mcuStop : (appendBlock s).mcuStop = s.mcuStop := rfl
@[simp] theorem appendBlock_numCh : (appendBlock s).numCh = s.numCh := rfl
@[simp] theorem appendBlock_chCfg : (appendBlock s).chCfg = s.chCfg := rfl
@[simp] theorem appendBlock_mcuIdx : (appendBlock s).mcuIdx = s.mcuIdx := rfl
@[simp] theorem appendBlock_chIdx : (appendBlock s).chIdx = s.chIdx := rfl
@[simp] theorem appendBlock_blkIdx : (appendBlock s).blkIdx = s.blkIdx + 1 := rfl
@[simp] theorem appendBlock_outCount : (appendBlock s).outCount = s.outCount + 1#32 := rfl
@[simp] theorem appendBlock_curData : (appendBlock s).curData = s.curData := rfl
@[simp] theorem appendBlock_curPos : (appendBlock s).curPos = s.curPos := rfl
@[simp] theorem appendBlock_curBackable : (appendBlock s).curBackable = s.curBackable := rfl
@[simp] theorem appendBlock_bitpos : (appendBlock s).bitpos = s.bitpos := rfl
@[simp] theorem appendBlock_pred : (appendBlock s).pred = s.pred := rfl
@[simp] theorem appendBlock_coef : (appendBlock s).coef = s.coef := rfl
@[simp] theorem appendBlock_srcPos : (appendBlock s).srcPos = s.srcPos := rfl
@[simp] theorem appendBlock_srcLen : (appendBlock s).srcLen = s.srcLen := rfl
@[simp] theorem appendBlock_tblCnt : (appendBlock s).tblCnt = s.tblCnt := rfl
@[simp] theorem appendBlock_tblSym : (appendBlock s).tblSym = s.tblSym := rfl
@[simp] theorem appendBlock_tbl : (appendBlock s).tbl = s.tbl := rfl
@[simp] theorem appendBlock_out : (appendBlock s).out = s.out ++ [s.coef] := rfl
@[simp] theorem appendBlock_src : (appendBlock s).src = s.src := rfl
@[simp] theorem appendBlock_unit : (appendBlock s).unit = s.unit := rfl
@[simp] theorem appendBlock_script : (appendBlock s).script = s.script := rfl
@[simp] theorem appendBlock_lastRead : (appendBlock s).lastRead = s.lastRead := rfl

/-! ### `nextMcu` -/

@[simp] theorem nextMcu_params : (nextMcu s).params = s.params := rfl
@[simp] theorem nextMcu_mode : (nextMcu s).mode = s.mode := rfl
@[simp] theorem nextMcu_eoe : (nextMcu s).eoe = s.eoe := rfl
@[simp] theorem nextMcu_err : (nextMcu s).err = s.err := rfl
@[simp] theorem nextMcu_errMcu : (nextMcu s).errMcu = s.errMcu := rfl
@[simp] theorem nextMcu_errLoc : (nextMcu s).errLoc = s.errLoc := rfl
@[simp] theorem nextMcu_result : (nextMcu s).result = s.result := rfl
@[simp] theorem nextMcu_mcuCount : (nextMcu s).mcuCount = s.mcuCount := rfl
@[simp] theorem nextMcu_mcuStop : (nextMcu s).mcuStop = s.mcuStop := rfl
@[simp] theorem nextMcu_numCh : (nextMcu s).numCh = s.numCh := rfl
@[simp] theorem nextMcu_chCfg : (nextMcu s).chCfg = s.chCfg := rfl
@[simp] theorem nextMcu_mcuIdx : (nextMcu s).mcuIdx = s.mcuIdx + 1#32 := rfl
@[simp] theorem nextMcu_chIdx : (nextMcu s).chIdx = 0 := rfl
@[simp] theorem nextMcu_blkIdx : (nextMcu s).blkIdx = 0 := rfl
@[simp] theorem nextMcu_outCount : (nextMcu s).outCount = s.outCount := rfl
@[simp] theorem nextMcu_curData : (nextMcu s).curData = s.curData := rfl
@[simp] theorem nextMcu_curPos : (nextMcu s).curPos = s.curPos := rfl
@[simp] theorem nextMcu_curBackable : (nextMcu s).curBackable = s.curBackable := rfl
@[simp] theorem nextMcu_bitpos : (nextMcu s).bitpos = s.bitpos := rfl
@[simp] theorem nextMcu_pred : (nextMcu s).pred = s.pred := rfl
@[simp] theorem nextMcu_coef : (nextMcu s).coef = s.coef := rfl
@[simp] theorem nextMcu_srcPos : (nextMcu s).srcPos = s.srcPos := rfl
@[simp] theorem nextMcu_srcLen : (nextMcu s).srcLen = s.srcLen := rfl
@[simp] theorem nextMcu_tblCnt : (nextMcu s).tblCnt = s.tblCnt := rfl
@[simp] theorem nextMcu_tblSym : (nextMcu s).tblSym = s.tblSym := rfl
@[simp] theorem nextMcu_tbl : (nextMcu s).tbl = s.tbl := rfl
@[simp] theorem nextMcu_out : (nextMcu s).out = s.out := rfl
@[simp] theorem nextMcu_src : (nextMcu s).src = s.src := rfl
@[simp] theorem nextMcu_unit : (nextMcu s).unit = s.unit := rfl
@[simp] theorem nextMcu_script : (nextMcu s).script = s.script := rfl
@[simp] theorem nextMcu_lastRead : (nextMcu s).lastRead = s.lastRead := rfl

/-! ### `nextChannel` -/

@[simp] theorem nextChannel_params : (nextChannel s).params = s.params := rfl
@[simp] theorem nextChannel_mode : (nextChannel s).mode = s.mode := rfl
@[simp] theorem nextChannel_eoe : (nextChannel s).eoe = s.eoe := rfl
@[simp] theorem nextChannel_err : (nextChannel s).err = s.err := rfl
@[simp] theorem nextChannel_errMcu : (nextChannel s).errMcu = s.errMcu := rfl
@[simp] theorem nextChannel_errLoc : (nextChannel s).errLoc = s.errLoc := rfl
@[simp] theorem nextChannel_result : (nextChannel s).result = s.result := rfl
@[simp] theorem nextChannel_mcuCount : (nextChannel s).mcuCount = s.mcuCount := rfl
@[simp] theorem nextChannel_mcuStop : (nextChannel s).mcuStop = s.mcuStop := rfl
@[simp] theorem nextChannel_numCh : (nextChannel s).numCh = s.numCh := rfl
@[simp] theorem nextChannel_chCfg : (nextChannel s).chCfg = s.chCfg := rfl
@[simp] theorem nextChannel_mcuIdx : (nextChannel s).mcuIdx = s.mcuIdx := rfl
@[simp] theorem nextChannel_chIdx : (nextChannel s).chIdx = s.chIdx + 1 := rfl
@[simp] theorem nextChannel_blkIdx : (nextChannel s).blkIdx = 0 := rfl
@[simp] theorem nextChannel_outCount : (nextChannel s).outCount = s.outCount := rfl
@[simp] theorem nextChannel_curData : (nextChannel s).curData = s.curData := rfl
@[simp] theorem nextChannel_curPos : (nextChannel s).curPos = s.curPos := rfl
@[simp] theorem nextChannel_curBackable : (nextChannel s).curBackable = s.curBackable := rfl
@[simp] theorem nextChannel_bitpos : (nextChannel s).bitpos = s.bitpos := rfl
@[simp] theorem nextChannel_pred : (nextChannel s).pred = s.pred := rfl
@[simp] theorem nextChannel_coef : (nextChannel s).coef = s.coef := rfl
@[simp] theorem nextChannel_srcPos : (nextChannel s).srcPos = s.srcPos := rfl
@[simp] theorem nextChannel_srcLen : (nextChannel s).srcLen = s.srcLen := rfl
@[simp] theorem nextChannel_tblCnt : (nextChannel s).tblCnt = s.tblCnt := rfl
@[simp] theorem nextChannel_tblSym : (nextChannel s).tblSym = s.tblSym := rfl
@[simp] theorem nextChannel_tbl : (nextChannel s).tbl = s.tbl := rfl
@[simp] theorem nextChannel_out : (nextChannel s).out = s.out := rfl
@[simp] theorem nextChannel_src : (nextChannel s).src = s.src := rfl
@[simp] theorem nextChannel_unit : (nextChannel s).unit = s.unit := rfl
@[simp] theorem nextChannel_script : (nextChannel s).script = s.script := rfl
@[simp] theorem nextChannel_lastRead : (nextChannel s).lastRead = s.lastRead := rfl

end Sys2Proof.Machine
end

