-- ==== Sys2Proof/Laws/Ops.lean ====
section
/-! SUPPORT. What the shared operations can do: sequencing, the admission of a command, the fault entry, and the bit
cursor. One lemma a function says everything it can answer. -/

namespace Sys2Proof.Machine

/-! ### Outcomes of an operation -/

@[simp] theorem Res.bind_ok {α β : Type} (a : α) (s : State) (f : α → State → Res β) : (Res.ok a s).bind f = f a s := rfl

@[simp] theorem Res.bind_raised {α β : Type} (e : Err) (s : State) (f : α → State → Res β) :
    (Res.raised e s : Res α).bind f = .raised e s := rfl

theorem Res.bind_assoc {α β γ : Type} (r : Res α) (f : α → State → Res β) (g : β → State → Res γ) :
    (r.bind f).bind g = r.bind fun a s => (f a s).bind g := by
  cases r <;> rfl

theorem Res.bind_eq_ok {α β : Type} {r : Res α} {f : α → State → Res β} {b : β} {t : State} :
    r.bind f = .ok b t ↔ ∃ a s, r = .ok a s ∧ f a s = .ok b t := by
  cases r with
  | ok a s => simp
  | raised e s => simp

theorem Res.bind_eq_raised {α β : Type} {r : Res α} {f : α → State → Res β} {e : Err} {t : State} :
    r.bind f = .raised e t ↔ r = .raised e t ∨ ∃ a s, r = .ok a s ∧ f a s = .raised e t := by
  cases r with
  | ok a s => simp
  | raised e s => simp

/-- What holds of the outcome of an operation: `Q` of the value and state it returns, or `E` of the fault it raises and the
state at that moment. -/
def Res.Sat {α : Type} (r : Res α) (Q : α → State → Prop) (E : Err → State → Prop) : Prop :=
  match r with
  | .ok a s => Q a s
  | .raised e s => E e s

section
variable {α β : Type} {Q Q' : α → State → Prop} {R : β → State → Prop} {E E' : Err → State → Prop}

@[simp] theorem Res.sat_ok (a : α) (s : State) : (Res.ok a s).Sat Q E ↔ Q a s := Iff.rfl

@[simp] theorem Res.sat_raised (e : Err) (s : State) : (Res.raised e s : Res α).Sat Q E ↔ E e s := Iff.rfl

theorem Res.Sat.bind {r : Res α} {f : α → State → Res β} (h : r.Sat Q E) (hf : ∀ a s, Q a s → (f a s).Sat R E) :
    (r.bind f).Sat R E := by
  cases r with
  | ok a s => exact hf a s h
  | raised e s => exact h

theorem Res.Sat.mono {r : Res α} (h : r.Sat Q E) (hQ : ∀ a s, Q a s → Q' a s) (hE : ∀ e s, E e s → E' e s) :
    r.Sat Q' E' := by
  cases r with
  | ok a s => exact hQ a s h
  | raised e s => exact hE e s h

theorem Res.Sat.of_ok {r : Res α} (h : r.Sat Q E) {a : α} {s : State} (hr : r = .ok a s) : Q a s := by
  subst hr; exact h

theorem Res.Sat.of_raised {r : Res α} (h : r.Sat Q E) {e : Err} {s : State} (hr : r = .raised e s) : E e s := by
  subst hr; exact h

end

/-! ### The end of a command and its admission -/

@[simp] theorem finish_ok (s : State) : finish (.ok () s) = .next s := rfl

@[simp] theorem finish_raised (e : Err) (s : State) : finish (.raised e s) = .next (raise e s) := rfl

/-- A command always answers a next state. -/
theorem finish_next (r : Res Unit) : ∃ t, finish r = .next t := by cases r <;> exact ⟨_, rfl⟩

/-- How a command ends: with the state its effect leaves, or with the fault entry there. -/
theorem finish_cases {r : Res Unit} {t : State} (h : finish r = .next t) :
    r = .ok () t ∨ ∃ e s, r = .raised e s ∧ t = raise e s := by
  cases r with
  | ok a s => left; simpa [finish] using h
  | raised e s => right; exact ⟨e, s, rfl, by simpa [finish] using h.symm⟩

theorem finish_sat {r : Res Unit} {P : State → Prop} (h : r.Sat (fun _ t => P t) (fun e t => P (raise e t))) {t : State}
    (ht : finish r = .next t) : P t := by
  rcases finish_cases ht with rfl | ⟨e, s, rfl, rfl⟩ <;> exact h

theorem anyState_of_ne {m : Mode} (h : m ≠ .fault) : anyState m = true := by cases m <;> simp_all [anyState]

theorem command_fault {ok : Mode → Bool} {effect : State → Res Unit} {s : State} (h : s.mode = .fault) :
    command ok effect s = .next s := by simp [command, h]

theorem command_any {effect : State → Res Unit} {s : State} (h : s.mode ≠ .fault) :
    command anyState effect s = finish (effect s) := by simp [command, h, anyState_of_ne h]

/-- What a command can do: nothing in FAULT, `BadCommand` where it is not admitted, else its effect. -/
theorem command_cases {ok : Mode → Bool} {effect : State → Res Unit} {s t : State} (h : command ok effect s = .next t) :
    (s.mode = .fault ∧ t = s) ∨ (s.mode ≠ .fault ∧ ok s.mode = false ∧ t = raise .badCommand s) ∨
      (s.mode ≠ .fault ∧ ok s.mode = true ∧ finish (effect s) = .next t) := by
  unfold command at h
  split at h
  · next hm => left; exact ⟨hm, by simpa using h.symm⟩
  · next hm =>
    right
    split at h
    · next ho => right; exact ⟨hm, ho, h⟩
    · next ho => left; exact ⟨hm, by simpa using ho, by simpa using h.symm⟩

theorem command_next (ok : Mode → Bool) (effect : State → Res Unit) (s : State) : ∃ t, command ok effect s = .next t := by
  unfold command
  split
  · exact ⟨_, rfl⟩
  · split <;> exact finish_next _

/-- A property that holds where a command does nothing or faults at once, and of whatever its effect leaves, holds after it. -/
theorem command_sat {ok : Mode → Bool} {effect : State → Res Unit} {s t : State} {P : State → Prop}
    (h : command ok effect s = .next t) (hs : P s) (hb : P (raise .badCommand s))
    (he : s.mode ≠ .fault → (effect s).Sat (fun _ t => P t) (fun e t => P (raise e t))) : P t := by
  rcases command_cases h with ⟨-, rfl⟩ | ⟨-, -, rfl⟩ | ⟨hm, -, hf⟩
  · exact hs
  · exact hb
  · exact finish_sat (he hm) hf

/-- `CH` and `BLK` of a location word. -/
theorem locWord_eq (ch blk : Nat) : locWord ch blk = BitVec.ofNat 10 (ch % 4 * 256 + blk % 256) := by
  apply BitVec.eq_of_toNat_eq
  simp only [locWord, BitVec.toNat_append, BitVec.toNat_ofNat]
  rw [← Nat.shiftLeft_add_eq_or_of_lt (by omega), Nat.shiftLeft_eq]
  omega

/-! ### The bit cursor -/

theorem nextBits_ok {s : State} {n : Nat} (h : n ≤ avail s) : nextBits n s = .ok (peek s n) (advance n s) := by
  simp [nextBits, h]

theorem nextBits_raised {s : State} {n : Nat} (h : avail s < n) : nextBits n s = .raised .streamExhausted s := by
  simp [nextBits, Nat.not_le.2 h]

theorem backBits_ok {s : State} {n : Nat} (h : n ≤ s.curBackable) : backBits n s = .ok () (rewind n s) := by
  simp [backBits, h]

theorem append_ok {s : State} {bs : List Byte} (h : tail s + bs.length ≤ s.params.capMax) :
    append bs s = .ok () (setCursor (s.curData.drop (s.curPos / 8) ++ bs) (s.curPos - 8 * (s.curPos / 8)) s) := by
  simp [append, h]

/-- What an append can do. -/
theorem append_cases (bs : List Byte) (s : State) :
    (tail s + bs.length ≤ s.params.capMax ∧
      append bs s = .ok () (setCursor (s.curData.drop (s.curPos / 8) ++ bs) (s.curPos % 8) s)) ∨
    (s.params.capMax < tail s + bs.length ∧ append bs s = .raised .allocFailure s) := by
  have e : s.curPos - 8 * (s.curPos / 8) = s.curPos % 8 := by omega
  by_cases h : tail s + bs.length ≤ s.params.capMax
  · left; exact ⟨h, by rw [append_ok h, e]⟩
  · right; exact ⟨by omega, by simp [append, h]⟩

@[simp] theorem avail_advance (n : Nat) (s : State) : avail (advance n s) = avail s - n := by
  simp [avail]; omega

@[simp] theorem unreadBits_advance (n : Nat) (s : State) : unreadBits (advance n s) = (unreadBits s).drop n :=
  drop_unreadBits s _ n (by simp) (by simp)

@[simp] theorem advance_zero (s : State) : advance 0 s = s := by simp [advance]

theorem advance_advance (n m : Nat) (s : State) : advance m (advance n s) = advance (n + m) s := by
  simp [advance, BitVec.add_assoc, BitVec.ofNat_add, Nat.add_assoc]

/-- Moving back what was moved forward. -/
@[simp] theorem rewind_advance (n : Nat) (s : State) : rewind n (advance n s) = s := by
  simp [advance, rewind]

/-- Moving back a part of what was moved forward. -/
theorem rewind_advance_add (n m : Nat) (s : State) : rewind m (advance (n + m) s) = advance n s := by
  rw [← advance_advance, rewind_advance]

theorem peek_advance (n m : Nat) (s : State) : peek (advance n s) m = bitsAt s.curData (s.curPos + n) m := by
  simp [peek]

theorem eof_iff (s : State) : eof s = true ↔ unreadBits s = [] := by
  rw [← List.length_eq_zero_iff, length_unreadBits]
  simp [eof]

/-- The cursor after an append reads the same unread bits, then the new ones. -/
theorem unreadBits_append {bs : List Byte} {s t : State} (hp : s.curPos ≤ 8 * s.curData.length)
    (h : append bs s = .ok () t) : unreadBits t = unreadBits s ++ byteBits bs := by
  rcases append_cases bs s with ⟨-, h1⟩ | ⟨-, h1⟩
  · rw [h1] at h
    obtain rfl : setCursor (s.curData.drop (s.curPos / 8) ++ bs) (s.curPos % 8) s = t := by simpa using h
    rw [unreadBits_eq_tailBytes s]
    simp only [unreadBits, setCursor, byteBits_append]
    rw [List.drop_append_of_le_length (by simp; omega)]
    rfl
  · simp [h1] at h

/-- The tail after an append. -/
theorem tailBytes_append {bs : List Byte} {s t : State} (h : append bs s = .ok () t) :
    tailBytes t = tailBytes s ++ bs := by
  rcases append_cases bs s with ⟨-, h1⟩ | ⟨-, h1⟩
  · rw [h1] at h
    obtain rfl : setCursor (s.curData.drop (s.curPos / 8) ++ bs) (s.curPos % 8) s = t := by simpa using h
    have : s.curPos % 8 / 8 = 0 := by omega
    simp [tailBytes, setCursor, this]
  · simp [h1] at h

end Sys2Proof.Machine
end

