-- ==== Sys2Proof/Laws/Codes.lean ====
section
/-! SUPPORT. Codes: when one codeword is a beginning of another, that assigned codes are in order and prefix-free
(spec/41_huffman.md R141, R147), and what the decode contract answers (R150). -/

namespace Sys2Proof.Machine

@[simp] theorem length_codeBits (e : CodeEntry) : (codeBits e).length = e.len := by simp [codeBits]

/-- A codeword begins another exactly when its bits do. -/
theorem begins_iff {a b : CodeEntry} (ha : a.code < 2 ^ a.len) (hb : b.code < 2 ^ b.len) :
    begins a b ↔ codeBits a <+: codeBits b := by
  constructor
  · rintro ⟨hl, hc⟩
    obtain ⟨m, hm⟩ : ∃ m, b.len = a.len + m := ⟨b.len - a.len, by omega⟩
    rw [hm, Nat.add_sub_cancel_left] at hc
    rw [codeBits, codeBits, hm, bitsOf_split, hc]
    exact List.prefix_append ..
  · intro h
    have hl : a.len ≤ b.len := by simpa using h.length_le
    obtain ⟨m, hm⟩ : ∃ m, b.len = a.len + m := ⟨b.len - a.len, by omega⟩
    refine ⟨hl, ?_⟩
    have hd : b.code / 2 ^ m < 2 ^ a.len := by
      rw [Nat.div_lt_iff_lt_mul (Nat.two_pow_pos m), ← Nat.pow_add, ← hm]
      exact hb
    rw [hm, Nat.add_sub_cancel_left]
    rw [codeBits, codeBits, hm, bitsOf_split] at h
    have h1 := List.prefix_of_prefix_length_le h (List.prefix_append ..) (by simp)
    exact (bitsOf_inj ha hd (h1.eq_of_length (by simp))).symm

/-- Two codewords of a legal list that are beginnings of one bit string are the same entry. -/
theorem eq_of_prefixes {codes : List CodeEntry} (h : codesOk codes) {a b : CodeEntry} (ha : a ∈ codes) (hb : b ∈ codes)
    (hab : codeBits a <+: codeBits b ∨ codeBits b <+: codeBits a) : a = b := by
  by_contra hne
  obtain ⟨-, hok, hp⟩ := h
  obtain ⟨i, hi, rfl⟩ := List.getElem_of_mem ha
  obtain ⟨j, hj, rfl⟩ := List.getElem_of_mem hb
  have hij : i ≠ j := fun h => hne (by simp only [h])
  have key : ¬ begins codes[i] codes[j] ∧ ¬ begins codes[j] codes[i] := by
    rcases Nat.lt_or_gt_of_ne hij with h | h
    · exact List.pairwise_iff_getElem.1 hp i j hi hj h
    · exact (List.pairwise_iff_getElem.1 hp j i hj hi h).symm
  rw [begins_iff (hok _ ha).2.2 (hok _ hb).2.2, begins_iff (hok _ hb).2.2 (hok _ ha).2.2] at key
  exact hab.elim key.1 key.2

/-! ### The decode contract -/

theorem decodeSymbol_invalid {sel : Fin 8} {s : State} (h : s.tbl[sel].valid = false) :
    decodeSymbol sel s = .raised .badCommand s := by
  unfold decodeSymbol
  rw [if_neg (by simpa using h)]

/-- The codeword the unread bits begin with is the one decoded (R150). -/
theorem decodeSymbol_match {sel : Fin 8} {s : State} {e : CodeEntry} (hv : s.tbl[sel].valid = true)
    (hc : codesOk s.tbl[sel].codes) (he : e ∈ s.tbl[sel].codes) (h : codeBits e <+: unreadBits s) :
    decodeSymbol sel s = .ok e.sym (advance e.len s) := by
  have hm : matchesUnread s e = true := (matchesUnread_iff s e (hc.2.1 e he).2.2).2 h
  cases hf : s.tbl[sel].codes.find? (matchesUnread s) with
  | none => rw [List.find?_eq_none] at hf; exact absurd hm (hf e he)
  | some e' =>
    have he' := List.mem_of_find?_eq_some hf
    have h' : codeBits e' <+: unreadBits s :=
      (matchesUnread_iff s e' (hc.2.1 e' he').2.2).1 (List.find?_some hf)
    rw [eq_of_prefixes hc he he' (List.prefix_or_prefix_of_prefix h h')]
    unfold decodeSymbol
    rw [if_pos hv, hf]

theorem find?_matchesUnread_none {codes : List CodeEntry} {s : State} (hc : codesOk codes)
    (h : ∀ e ∈ codes, ¬ codeBits e <+: unreadBits s) : codes.find? (matchesUnread s) = none := by
  rw [List.find?_eq_none]
  exact fun e he hm => h e he ((matchesUnread_iff s e (hc.2.1 e he).2.2).1 hm)

/-- No codeword begins the unread bits, and they are a beginning of a codeword (R150). -/
theorem decodeSymbol_exhausted {sel : Fin 8} {s : State} {e : CodeEntry} (hv : s.tbl[sel].valid = true)
    (hc : codesOk s.tbl[sel].codes) (h : ∀ e ∈ s.tbl[sel].codes, ¬ codeBits e <+: unreadBits s)
    (he : e ∈ s.tbl[sel].codes) (hp : unreadBits s <+: codeBits e) :
    decodeSymbol sel s = .raised .streamExhausted s := by
  have hl : avail s ≤ e.len := by simpa using hp.length_le
  have hlt : avail s < e.len := by
    refine Nat.lt_of_le_of_ne hl fun heq => h e he ?_
    rw [hp.eq_of_length (by simpa using heq)]
  have ha : s.tbl[sel].codes.any (extendsUnread s) = true :=
    List.any_eq_true.2 ⟨e, he, (extendsUnread_iff s e (hc.2.1 e he).2.2).2 ⟨hp, hlt⟩⟩
  unfold decodeSymbol
  rw [if_pos hv, find?_matchesUnread_none hc h]
  exact if_pos ha

/-- No codeword begins the unread bits or is begun by them (R150). -/
theorem decodeSymbol_failed {sel : Fin 8} {s : State} (hv : s.tbl[sel].valid = true)
    (hc : codesOk s.tbl[sel].codes) (h : ∀ e ∈ s.tbl[sel].codes, ¬ codeBits e <+: unreadBits s)
    (hp : ∀ e ∈ s.tbl[sel].codes, ¬ unreadBits s <+: codeBits e) :
    decodeSymbol sel s = .raised .huffmanLookupFailed s := by
  have ha : ¬ s.tbl[sel].codes.any (extendsUnread s) = true := by
    rw [List.any_eq_true]
    rintro ⟨e, he, hx⟩
    exact hp e he ((extendsUnread_iff s e (hc.2.1 e he).2.2).1 hx).1
  unfold decodeSymbol
  rw [if_pos hv, find?_matchesUnread_none hc h]
  exact if_neg ha

/-- Everything the decode contract can answer, over any table: a symbol of a codeword that the unread bits hold, or one of
three faults in the state it began in. -/
theorem decodeSymbol_sat (sel : Fin 8) (s : State) :
    (decodeSymbol sel s).Sat
      (fun sym t => ∃ e ∈ s.tbl[sel].codes, e.sym = sym ∧ t = advance e.len s ∧ e.len ≤ avail s)
      (fun e t => t = s ∧ (s.tbl[sel].valid = false ∧ e = .badCommand ∨
        s.tbl[sel].valid = true ∧ (e = .streamExhausted ∧ (∃ x ∈ s.tbl[sel].codes, avail s < x.len) ∨
          e = .huffmanLookupFailed))) := by
  unfold decodeSymbol
  split
  · next hv =>
    split
    · next e hf =>
      have := List.find?_some hf
      simp only [matchesUnread, Bool.and_eq_true, decide_eq_true_eq] at this
      exact ⟨e, List.mem_of_find?_eq_some hf, rfl, rfl, this.1⟩
    · split
      · next ha =>
        obtain ⟨x, hx, hxt⟩ := List.any_eq_true.1 ha
        simp only [extendsUnread, Bool.and_eq_true, decide_eq_true_eq] at hxt
        exact ⟨rfl, .inr ⟨hv, .inl ⟨rfl, x, hx, hxt.1⟩⟩⟩
      · exact ⟨rfl, .inr ⟨hv, .inr rfl⟩⟩
  · next hv => exact ⟨rfl, .inl ⟨by simpa using hv, rfl⟩⟩

/-! ### Code assignment -/

/-- The codeword `a` stands before `b` in the order of assignment: every `b.len`-bit word that begins with `a` is below `b`. -/
abbrev CodeEntry.before (a b : CodeEntry) : Prop := a.len ≤ b.len ∧ (a.code + 1) * 2 ^ (b.len - a.len) ≤ b.code

theorem not_begins_of_before {a b : CodeEntry} (h : a.before b) : ¬ begins a b ∧ ¬ begins b a := by
  obtain ⟨hl, hc⟩ := h
  have h1 : a.code < b.code / 2 ^ (b.len - a.len) :=
    (Nat.le_div_iff_mul_le (Nat.two_pow_pos _)).2 hc
  refine ⟨fun hb => ?_, fun hb => ?_⟩
  · have := hb.2
    omega
  · have hl' : a.len = b.len := by have := hb.1; omega
    have := hb.2
    simp only [hl', Nat.sub_self, Nat.pow_zero, Nat.div_one] at this h1
    omega

theorem mem_levelCodes {len : Nat} {e : CodeEntry} : ∀ {code : Nat} {syms : List Byte}, e ∈ levelCodes code len syms →
    e.len = len ∧ code ≤ e.code ∧ e.code < code + syms.length
  | _, [], h => by simp [levelCodes] at h
  | code, y :: ys, h => by
    simp only [levelCodes, List.mem_cons] at h
    rcases h with rfl | h
    · simp
    · have := mem_levelCodes h
      simp only [List.length_cons]
      omega

theorem length_levelCodes (len : Nat) : ∀ (code : Nat) (syms : List Byte), (levelCodes code len syms).length = syms.length
  | _, [] => rfl
  | code, _ :: ys => by simp [levelCodes, length_levelCodes len (code + 1) ys]

theorem levelCodes_before (len : Nat) : ∀ (code : Nat) (syms : List Byte),
    (levelCodes code len syms).Pairwise CodeEntry.before
  | _, [] => .nil
  | code, y :: ys => by
    refine List.pairwise_cons.2 ⟨fun e he => ?_, levelCodes_before len (code + 1) ys⟩
    obtain ⟨h1, h2, -⟩ := mem_levelCodes he
    simp only [CodeEntry.before, h1, Nat.sub_self, Nat.pow_zero, Nat.mul_one]
    exact ⟨Nat.le_refl _, h2⟩

/-- The codes assigned from length `len` and counter `code` on lie at or above the counter, at their lengths. -/
theorem assign_above {e : CodeEntry} : ∀ {len code : Nat} {cs : List Nat} {syms : List Byte}, e ∈ assign len code cs syms →
    len ≤ e.len ∧ code * 2 ^ (e.len - len) ≤ e.code ∧ e.len < len + cs.length
  | _, _, [], _, h => by simp [assign] at h
  | len, code, c :: cs, syms, h => by
    simp only [assign, List.mem_append] at h
    rcases h with h | h
    · obtain ⟨h1, h2, -⟩ := mem_levelCodes h
      simp [h1, h2]
    · obtain ⟨h1, h2, h3⟩ := assign_above h
      refine ⟨by omega, ?_, by simp; omega⟩
      have e1 : e.len - len = e.len - (len + 1) + 1 := by omega
      calc code * 2 ^ (e.len - len) ≤ (code + c) * 2 ^ (e.len - len) := Nat.mul_le_mul_right _ (by omega)
        _ = 2 * (code + c) * 2 ^ (e.len - (len + 1)) := by rw [e1, Nat.pow_succ]; ring
        _ ≤ e.code := h2

/-- The codes are assigned in order (R141). -/
theorem assign_before : ∀ (len code : Nat) (cs : List Nat) (syms : List Byte),
    (assign len code cs syms).Pairwise CodeEntry.before
  | _, _, [], _ => .nil
  | len, code, c :: cs, syms => by
    refine List.pairwise_append.2 ⟨levelCodes_before .., assign_before .., fun a ha b hb => ?_⟩
    obtain ⟨ha1, -, ha3⟩ := mem_levelCodes ha
    obtain ⟨hb1, hb2, -⟩ := assign_above hb
    refine ⟨by omega, ?_⟩
    have hac : a.code + 1 ≤ code + c := by
      have := List.length_take_le c syms
      omega
    have e1 : b.len - a.len = b.len - (len + 1) + 1 := by omega
    calc (a.code + 1) * 2 ^ (b.len - a.len) ≤ (code + c) * 2 ^ (b.len - a.len) := Nat.mul_le_mul_right _ hac
      _ = 2 * (code + c) * 2 ^ (b.len - (len + 1)) := by rw [e1, Nat.pow_succ]; ring
      _ ≤ b.code := hb2

/-- Under check (b) of R142 every code fits its length. -/
theorem assign_fits {e : CodeEntry} : ∀ {len code : Nat} {cs : List Nat} {syms : List Byte}, countsFit len code cs = true →
    e ∈ assign len code cs syms → e.code < 2 ^ e.len
  | _, _, [], _, _, h => by simp [assign] at h
  | len, code, c :: cs, syms, hf, h => by
    simp only [countsFit, Bool.and_eq_true, decide_eq_true_eq] at hf
    simp only [assign, List.mem_append] at h
    rcases h with h | h
    · obtain ⟨h1, -, h3⟩ := mem_levelCodes h
      have := List.length_take_le c syms
      rw [h1]
      omega
    · exact assign_fits hf.2 h

theorem length_assign : ∀ (len code : Nat) (cs : List Nat) (syms : List Byte), (assign len code cs syms).length ≤ cs.sum
  | _, _, [], _ => by simp [assign]
  | len, code, c :: cs, syms => by
    have := length_assign (len + 1) (2 * (code + c)) cs (syms.drop c)
    have := List.length_take_le c syms
    simp only [assign, List.length_append, length_levelCodes, List.sum_cons]
    omega

/-- The codes of an accepted list of counts are legal (R37, R147). -/
theorem codesOk_assign {cs : List Nat} (syms : List Byte) (hl : cs.length ≤ lenMax) (hs : cs.sum ≤ nSymMax)
    (hf : countsFit 1 0 cs = true) : codesOk (assign 1 0 cs syms) := by
  refine ⟨Nat.le_trans (length_assign ..) hs, fun e he => ?_, (assign_before ..).imp not_begins_of_before⟩
  obtain ⟨h1, -, h3⟩ := assign_above he
  exact ⟨h1, by omega, assign_fits hf he⟩

/-- `b` is the codeword after `a` (R141): one more, extended with zeros to its own length. -/
abbrev CodeEntry.next (a b : CodeEntry) : Prop := a.len ≤ b.len ∧ b.code = (a.code + 1) * 2 ^ (b.len - a.len)

theorem levelCodes_chain (len : Nat) : ∀ (code : Nat) (syms : List Byte), (levelCodes code len syms).IsChain CodeEntry.next
  | _, [] => .nil
  | _, [_] => .singleton _
  | code, _ :: y :: ys => .cons_cons (by simp [CodeEntry.next]) (levelCodes_chain len (code + 1) (y :: ys))

theorem levelCodes_last (len : Nat) {e : CodeEntry} : ∀ {code : Nat} {syms : List Byte}, e ∈ (levelCodes code len syms).getLast? →
    e.len = len ∧ e.code + 1 = code + syms.length
  | _, [], h => by simp [levelCodes] at h
  | code, [y], h => by
    simp only [levelCodes, List.getLast?_singleton, Option.mem_def, Option.some.injEq] at h
    subst h; simp
  | code, x :: y :: ys, h => by
    have := levelCodes_last len (code := code + 1) (syms := y :: ys) (by simpa [levelCodes] using h)
    simp only [List.length_cons] at this ⊢
    omega

/-- The first code assigned from length `len` and counter `code` on is the counter, extended with zeros. -/
theorem assign_head {e : CodeEntry} : ∀ {len code : Nat} {cs : List Nat} {syms : List Byte}, cs.sum ≤ syms.length →
    e ∈ (assign len code cs syms).head? → len ≤ e.len ∧ e.code = code * 2 ^ (e.len - len)
  | _, _, [], _, _, h => by simp [assign] at h
  | len, code, 0 :: cs, syms, hs, h => by
    simp only [List.sum_cons] at hs
    obtain ⟨h1, h2⟩ := assign_head (len := len + 1) (cs := cs) (by simpa using hs) (by simpa [assign, levelCodes] using h)
    refine ⟨by omega, ?_⟩
    rw [h2, show e.len - len = e.len - (len + 1) + 1 by omega, Nat.pow_succ]
    ring
  | len, code, (c + 1) :: cs, y :: syms, _, h => by
    simp only [assign, List.take_succ_cons, levelCodes, List.cons_append, List.head?_cons, Option.mem_def, Option.some.injEq] at h
    subst h; simp
  | _, _, (_ + 1) :: _, [], hs, _ => by simp at hs

/-- With a symbol for each code, each code is the one after the code before it (R141). -/
theorem assign_chain : ∀ (len code : Nat) (cs : List Nat) (syms : List Byte), cs.sum ≤ syms.length →
    (assign len code cs syms).IsChain CodeEntry.next
  | _, _, [], _, _ => .nil
  | len, code, c :: cs, syms, hs => by
    simp only [List.sum_cons] at hs
    have hrest : cs.sum ≤ (syms.drop c).length := by rw [List.length_drop]; omega
    refine List.isChain_append.2 ⟨levelCodes_chain .., assign_chain _ _ _ _ hrest, fun a ha b hb => ?_⟩
    obtain ⟨ha1, ha2⟩ := levelCodes_last len ha
    obtain ⟨hb1, hb2⟩ := assign_head hrest hb
    rw [List.length_take_of_le (by omega)] at ha2
    refine ⟨by omega, ?_⟩
    rw [hb2, ha1, ha2, show b.len - len = b.len - (len + 1) + 1 by omega, Nat.pow_succ]
    ring

/-- The symbols are used in order (R141). -/
theorem assign_syms : ∀ (len code : Nat) (cs : List Nat) (syms : List Byte),
    (assign len code cs syms).map CodeEntry.sym = syms.take cs.sum
  | _, _, [], _ => by simp [assign]
  | len, code, c :: cs, syms => by
    have key : ∀ (code : Nat) (l : List Byte), (levelCodes code len l).map CodeEntry.sym = l := by
      intro code l
      induction l generalizing code with
      | nil => rfl
      | cons y ys ih => simp [levelCodes, ih]
    rw [assign, List.map_append, key, assign_syms, List.sum_cons, ← List.take_add]

/-- With a symbol for each code, there are as many codes of a length as its count says (R141). -/
theorem assign_count (L : Nat) : ∀ (len code : Nat) (cs : List Nat) (syms : List Byte), len ≤ L → cs.sum ≤ syms.length →
    (assign len code cs syms).countP (fun e => e.len = L) = cs.getD (L - len) 0
  | _, _, [], _, _, _ => by simp [assign]
  | len, code, c :: cs, syms, hL, hs => by
    simp only [List.sum_cons] at hs
    have hrest : cs.sum ≤ (syms.drop c).length := by rw [List.length_drop]; omega
    rw [assign, List.countP_append]
    by_cases h : len = L
    · subst h
      have h1 : (levelCodes code len (syms.take c)).countP (fun e => e.len = len) = c := by
        rw [List.countP_eq_length.2 fun e he => by simp [(mem_levelCodes he).1], length_levelCodes,
          List.length_take_of_le (by omega)]
      have h2 : (assign (len + 1) (2 * (code + c)) cs (syms.drop c)).countP (fun e => e.len = len) = 0 := by
        refine List.countP_eq_zero.2 fun e he => ?_
        have := (assign_above he).1
        simp; omega
      rw [h1, h2, Nat.sub_self]; rfl
    · have h1 : (levelCodes code len (syms.take c)).countP (fun e => e.len = L) = 0 := by
        refine List.countP_eq_zero.2 fun e he => ?_
        have := (mem_levelCodes he).1
        simp; omega
      rw [h1, assign_count L (len + 1) _ cs _ (by omega) hrest, Nat.zero_add,
        show L - len = L - (len + 1) + 1 by omega, List.getD_cons_succ]

theorem length_stagedCounts (s : State) : (stagedCounts s).length = lenMax := by simp [stagedCounts, lenMax]

end Sys2Proof.Machine
end

