-- ==== Sys2Proof/Laws/Block.lean ====
section
/-! SUPPORT. The block decoder: what a DC step, an AC step and a whole block can do, how many bits a block takes
(spec/43_block.md R191 to R202), and that it decodes the text of a block. -/

namespace Sys2Proof.Machine

/-! ### Magnitudes -/

theorem extend_range {f S : Nat} (h2 : S ≤ 15) (hf : f < 2 ^ S) : -32767 ≤ extend f S ∧ extend f S ≤ 32767 := by
  have hp : (2 : Nat) ^ S ≤ 2 ^ 15 := Nat.pow_le_pow_right (by omega) h2
  have hf' : (f : Int) < ((2 ^ S : Nat) : Int) := by exact_mod_cast hf
  have hp' : ((2 ^ S : Nat) : Int) ≤ 32768 := by exact_mod_cast hp
  have hc : ((2 ^ S : Nat) : Int) = (2 : Int) ^ S := by push_cast; rfl
  unfold extend
  split <;> omega

/-- A magnitude stored as a word is the magnitude. -/
theorem wrap32_toInt {v : Int} (h1 : -32768 ≤ v) (h2 : v ≤ 32768) : (wrap32 v).toInt = v := by
  rw [wrap32, BitVec.toInt_ofInt, Int.bmod_eq_of_le] <;> omega

/-- The AC coefficients of a block lie in `-32767 .. 32767` (R34). -/
def acRange (coef : Block) : Prop := ∀ j : Fin 64, j ≠ 0 → -32767 ≤ coef[j].toInt ∧ coef[j].toInt ≤ 32767

theorem acRange_zero (v : Word) : acRange ((Vector.replicate 64 0#32).set 0 v) := by
  intro j hj
  have : (0 : Nat) ≠ j.val := fun h => hj (Fin.ext h.symm)
  simp [this]

theorem acRange_set {coef : Block} (h : acRange coef) {f S : Nat} (h2 : S ≤ 15) (hf : f < 2 ^ S) (k : Nat) :
    acRange (coef.setIfInBounds k (wrap32 (extend f S))) := by
  intro j hj
  have hr := extend_range h2 hf
  simp only [Fin.getElem_fin, Vector.getElem_setIfInBounds]
  split
  · rw [wrap32_toInt (by omega) (by omega)]; exact hr
  · exact h j hj

theorem acRange_set0 {coef : Block} (h : acRange coef) (v : Word) : acRange (coef.setIfInBounds 0 v) := by
  intro j hj
  have : (0 : Nat) ≠ j.val := fun h => hj (Fin.ext h.symm)
  simp only [Fin.getElem_fin, Vector.getElem_setIfInBounds, if_neg this]
  exact h j hj

/-! ### Lengths -/

/-- Every codeword of a list has 1 to 16 bits. -/
def lensOk (codes : List CodeEntry) : Prop := ∀ e ∈ codes, 1 ≤ e.len ∧ e.len ≤ 16

theorem lensOk_of_codesOk {codes : List CodeEntry} (h : codesOk codes) : lensOk codes :=
  fun e he => ⟨(h.2.1 e he).1, (h.2.1 e he).2.1⟩

/-- The faults a block can end in once its tables are valid (R201). -/
def blockFault (e : Err) : Prop :=
  e = .streamExhausted ∨ e = .huffmanLookupFailed ∨ e = .coefIndexOverflow ∨ e = .reservedSymbol

/-! ### The DC step -/

/-- The state with a DC difference stored. -/
theorem storeDc_eq (c : Fin 4) (d : Int) (s : State) :
    storeDc c d s = { s with
      pred := s.pred.set c (wrap32 (s.pred[c].toInt + d))
      coef := s.coef.setIfInBounds 0 (wrap32 (s.pred[c].toInt + d)) } := rfl

/-- What the DC step can do (R193). -/
theorem dcStep_sat (c : Fin 4) (s : State) :
    (dcStep c s).Sat
      (fun _ t => ∃ m v, t = { advance m s with pred := s.pred.set c v, coef := s.coef.setIfInBounds 0 v } ∧ m ≤ avail s ∧
        (lensOk s.tbl[dcSel s c].codes → 1 ≤ m ∧ m ≤ 31))
      (fun e t => ∃ m, t = advance m s ∧ m ≤ avail s ∧ (s.tbl[dcSel s c].valid = true → blockFault e) ∧
        (s.tbl[dcSel s c].valid = false → e = .badCommand ∧ m = 0) ∧
        (lensOk s.tbl[dcSel s c].codes → e = .streamExhausted → avail s < 31)) := by
  unfold dcStep
  have hd := decodeSymbol_sat (dcSel s c) s
  cases hr : decodeSymbol (dcSel s c) s with
  | raised e t =>
    rw [hr] at hd
    obtain ⟨rfl, hcase⟩ := hd
    refine ⟨0, by simp, by simp, fun hv => ?_, fun hv => ?_, fun hl he => ?_⟩
    · rcases hcase with ⟨h, -⟩ | ⟨-, h⟩
      · rw [h] at hv; cases hv
      · rcases h with ⟨h, -⟩ | h <;> simp [blockFault, h]
    · rcases hcase with ⟨-, h⟩ | ⟨h, -⟩
      · exact ⟨h, rfl⟩
      · rw [h] at hv; cases hv
    · subst he
      rcases hcase with ⟨-, h⟩ | ⟨-, ⟨-, x, hx, hlt⟩ | h⟩
      · cases h
      · have := (hl x hx).2; omega
      · cases h
  | ok sym t =>
    rw [hr] at hd
    obtain ⟨x, hx, rfl, rfl, hle⟩ := hd
    rw [Res.bind_ok]
    have hval : s.tbl[dcSel s c].valid = true := by
      by_contra hv
      rw [decodeSymbol_invalid (by simpa using hv)] at hr
      cases hr
    have hnv : s.tbl[dcSel s c].valid = false → False := fun h => by rw [hval] at h; cases h
    unfold dcCases
    split
    · -- a size
      beta_reduce
      unfold dcsizeOp
      split
      · rw [storeDc_eq]
        exact ⟨x.len, _, rfl, hle, fun hl => by have := hl x hx; omega⟩
      · by_cases hn : (sizeField x.sym).val ≤ avail (advance x.len s)
        · rw [nextBits_ok hn, Res.bind_ok, storeDc_eq]
          rw [avail_advance] at hn
          refine ⟨x.len + (sizeField x.sym).val, wrap32 (s.pred[c].toInt +
            extend (peek (advance x.len s) (sizeField x.sym).val) (sizeField x.sym).val), ?_, by omega, fun hl => by have := hl x hx; have := (sizeField x.sym).isLt; omega⟩
          rw [advance_advance]
          rfl
        · rw [nextBits_raised (by omega)]
          rw [avail_advance] at hn
          refine ⟨x.len, rfl, hle, fun _ => .inl rfl, fun h => (hnv h).elim, fun hl _ => ?_⟩
          have := hl x hx
          have := (sizeField x.sym).isLt
          omega
    · exact ⟨x.len, rfl, hle, fun _ => by simp [blockFault], fun h => (hnv h).elim, fun _ h => by cases h⟩

/-! ### The AC steps -/

/-- What one AC symbol can do at running index `k` (R194 to R199). -/
theorem acStep_sat (c : Fin 4) (k : Nat) (s : State) (hk : k ≤ 63) :
    (acStep c k s).Sat
      (fun k' t => ∃ m coef, t = { advance m s with coef := coef } ∧ m ≤ avail s ∧ k < k' ∧ k' ≤ 64 ∧
        (lensOk s.tbl[acSel s c].codes → 1 ≤ m ∧ m ≤ 31) ∧ (acRange s.coef → acRange coef) ∧
        (1 ≤ k → coef[0] = s.coef[0]))
      (fun e t => ∃ m, t = advance m s ∧ m ≤ avail s ∧ (s.tbl[acSel s c].valid = true → blockFault e) ∧
        (lensOk s.tbl[acSel s c].codes → e = .streamExhausted → avail s < 31)) := by
  unfold acStep
  have hd := decodeSymbol_sat (acSel s c) s
  cases hr : decodeSymbol (acSel s c) s with
  | raised e t =>
    rw [hr] at hd
    obtain ⟨rfl, hcase⟩ := hd
    refine ⟨0, by simp, by simp, fun hv => ?_, fun hl he => ?_⟩
    · rcases hcase with ⟨h, -⟩ | ⟨-, h⟩
      · rw [h] at hv; cases hv
      · rcases h with ⟨h, -⟩ | h <;> simp [blockFault, h]
    · subst he
      rcases hcase with ⟨-, h⟩ | ⟨-, ⟨-, x, hx, hlt⟩ | h⟩
      · cases h
      · have := (hl x hx).2; omega
      · cases h
  | ok sym t =>
    rw [hr] at hd
    obtain ⟨x, hx, rfl, rfl, hle⟩ := hd
    rw [Res.bind_ok]
    have hlen : lensOk s.tbl[acSel s c].codes → 1 ≤ x.len ∧ x.len ≤ 16 := fun hl => hl x hx
    unfold acCases
    split
    · exact ⟨x.len, s.coef, rfl, hle, by omega, by omega, fun hl => by have := hlen hl; omega, id, fun _ => rfl⟩
    split
    · unfold zrlOp
      split
      · exact ⟨x.len, s.coef, rfl, hle, by omega, by omega, fun hl => by have := hlen hl; omega, id, fun _ => rfl⟩
      · exact ⟨x.len, rfl, hle, fun _ => by simp [blockFault], fun _ h => by cases h⟩
    split
    · exact ⟨x.len, rfl, hle, fun _ => by simp [blockFault], fun _ h => by cases h⟩
    · have hS2 : (sizeField x.sym).val ≤ 15 := by have := (sizeField x.sym).isLt; omega
      beta_reduce
      unfold runsizeOp
      split
      · next hkR =>
        by_cases hn : (sizeField x.sym).val ≤ avail (advance x.len s)
        · rw [nextBits_ok hn, Res.bind_ok]
          rw [avail_advance] at hn
          refine ⟨x.len + (sizeField x.sym).val,
            s.coef.setIfInBounds (k + (runField x.sym).val) (wrap32 (extend (peek (advance x.len s) (sizeField x.sym).val)
              (sizeField x.sym).val)), ?_, by omega, by omega, by omega, fun hl => by have := hlen hl; omega,
            fun hac => acRange_set hac hS2 (peek_lt ..) _, fun h1 => ?_⟩
          · rw [advance_advance]; rfl
          · rw [Vector.getElem_setIfInBounds]
            rw [if_neg (by omega)]
        · rw [nextBits_raised (by omega)]
          rw [avail_advance] at hn
          exact ⟨x.len, rfl, hle, fun _ => .inl rfl, fun hl _ => by have := hlen hl; omega⟩
      · exact ⟨x.len, rfl, hle, fun _ => by simp [blockFault], fun _ h => by cases h⟩

/-- What the AC loop can do from running index `k` on (R194, R202). -/
theorem acLoop_sat (c : Fin 4) : ∀ (turns k : Nat) (s : State), 1 ≤ k → k ≤ 64 →
    (acLoop c turns k s).Sat
      (fun _ t => ∃ m coef, t = { advance m s with coef := coef } ∧ m ≤ avail s ∧
        (lensOk s.tbl[acSel s c].codes → m ≤ 31 * (64 - k) ∧ (1 ≤ turns → k ≤ 63 → 1 ≤ m)) ∧
        (acRange s.coef → acRange coef) ∧ coef[0] = s.coef[0])
      (fun e t => ∃ m coef, t = { advance m s with coef := coef } ∧ m ≤ avail s ∧
        (s.tbl[acSel s c].valid = true → blockFault e) ∧
        (lensOk s.tbl[acSel s c].codes → e = .streamExhausted → avail s < 31 * (64 - k)) ∧
        (acRange s.coef → acRange coef) ∧ coef[0] = s.coef[0])
  | 0, k, s, _, _ => ⟨0, s.coef, by simp, by simp, fun _ => ⟨by simp, by omega⟩, id, rfl⟩
  | turns + 1, k, s, hk1, hk => by
    unfold acLoop
    by_cases h63 : k ≤ 63
    · rw [if_pos h63]
      have hstep := acStep_sat c k s h63
      cases hr : acStep c k s with
      | raised e t =>
        rw [hr] at hstep
        obtain ⟨m, rfl, h1, h2, h3⟩ := hstep
        exact ⟨m, s.coef, rfl, h1, h2, fun hl he => by have := h3 hl he; omega, id, rfl⟩
      | ok k' t =>
        rw [hr] at hstep
        obtain ⟨m, coef, rfl, h1, h2, h3, h4, h5, h6⟩ := hstep
        rw [Res.bind_ok]
        have ih := acLoop_sat c turns k' { advance m s with coef := coef } (by omega) h3
        have hav : avail { advance m s with coef := coef } = avail s - m := avail_advance m s
        refine ih.mono ?_ ?_
        · rintro - u ⟨m', coef', rfl, g1, g2, g3, g4⟩
          rw [hav] at g1
          refine ⟨m + m', coef', ?_, by omega, fun hl => ?_, fun h => g3 (h5 h), g4.trans (h6 hk1)⟩
          · rw [← advance_advance]; rfl
          · have := h4 hl
            have := (g2 hl).1
            omega
        · rintro e u ⟨m', coef', rfl, g1, g2, g3, g4, g5⟩
          rw [hav] at g1 g3
          refine ⟨m + m', coef', ?_, by omega, g2, fun hl he => ?_, fun h => g4 (h5 h), g5.trans (h6 hk1)⟩
          · rw [← advance_advance]; rfl
          · have := h4 hl
            have := g3 hl he
            omega
    · rw [if_neg h63]
      exact ⟨0, s.coef, by simp, by simp, fun _ => ⟨by simp, fun _ h => by omega⟩, id, rfl⟩

/-! ### A block -/

theorem decodeBlock_invalid {c : Fin 4} {s : State} (h : blockTablesValid c s = false) :
    decodeBlock c s = .raised .badCommand s := by
  unfold decodeBlock
  rw [if_neg (by simp [h])]

theorem blockTablesValid_iff {c : Fin 4} {s : State} :
    blockTablesValid c s = true ↔ s.tbl[dcSel s c].valid = true ∧ s.tbl[acSel s c].valid = true := by
  rw [blockTablesValid, Bool.and_eq_true]

/-- What decoding a block can do (R191, R201, R202): it moves the cursor forward and writes `COEF` and the channel's
predictor, and nothing else; with legal tables it takes 2 to 1984 bits. -/
theorem decodeBlock_sat (c : Fin 4) (s : State) :
    (decodeBlock c s).Sat
      (fun _ t => ∃ m v coef, t = { advance m s with pred := s.pred.set c v, coef := coef } ∧ m ≤ avail s ∧
        (lensOk s.tbl[dcSel s c].codes → lensOk s.tbl[acSel s c].codes → 2 ≤ m ∧ m ≤ 1984) ∧ acRange coef ∧ coef[0] = v)
      (fun e t => (blockTablesValid c s = false ∧ e = .badCommand ∧ t = s) ∨
        (blockTablesValid c s = true ∧ blockFault e ∧
          ∃ m v coef, t = { advance m s with pred := s.pred.set c v, coef := coef } ∧ m ≤ avail s ∧ acRange coef ∧
            (lensOk s.tbl[dcSel s c].codes → lensOk s.tbl[acSel s c].codes → e = .streamExhausted → avail s < 1984))) := by
  cases hv : blockTablesValid c s with
  | false => rw [decodeBlock_invalid hv]; exact .inl ⟨rfl, rfl, rfl⟩
  | true =>
    have hvv := blockTablesValid_iff.1 hv
    unfold decodeBlock
    rw [if_pos hv]
    have hdc := dcStep_sat c (zeroCoef s)
    have hz : acRange (zeroCoef s).coef := fun j _ => by simp [zeroCoef]
    cases hr : dcStep c (zeroCoef s) with
    | raised e t =>
      rw [hr] at hdc
      obtain ⟨m, rfl, h1, h2, -, h3⟩ := hdc
      refine .inr ⟨rfl, h2 hvv.1, m, s.pred[c], (zeroCoef s).coef, ?_, h1, hz, fun hl _ he => ?_⟩
      · have : s.pred.set c s.pred[c] = s.pred := by simp
        rw [this]
        rfl
      · have h4 : avail s < 31 := h3 hl he
        omega
    | ok a t =>
      rw [hr] at hdc
      obtain ⟨m, v, rfl, h1, h2⟩ := hdc
      rw [Res.bind_ok]
      generalize hu : ({ advance m (zeroCoef s) with
        pred := (zeroCoef s).pred.set c v, coef := (zeroCoef s).coef.setIfInBounds 0 v } : State) = u
      have hav : avail u = avail s - m := by rw [← hu]; exact avail_advance m (zeroCoef s)
      have hac : acRange u.coef := by rw [← hu]; exact acRange_set0 hz v
      have hc0 : u.coef[0] = v := by rw [← hu]; simp
      have htab : u.tbl[acSel u c] = s.tbl[acSel s c] := by rw [← hu]; rfl
      have h1' : m ≤ avail s := h1
      have h2' : lensOk s.tbl[dcSel s c].codes → 1 ≤ m ∧ m ≤ 31 := h2
      have ih := acLoop_sat c 63 1 u (by omega) (by omega)
      rw [htab, hav] at ih
      refine ih.mono ?_ ?_
      · rintro - w ⟨m', coef', rfl, g1, g2, g3, g4⟩
        refine ⟨m + m', v, coef', ?_, by omega, fun hl1 hl2 => ?_, g3 hac, g4.trans hc0⟩
        · rw [← advance_advance, ← hu]; rfl
        · have := h2' hl1
          have := g2 hl2
          omega
      · rintro e w ⟨m', coef', rfl, g1, g2, g3, g4, g5⟩
        refine .inr ⟨rfl, g2 hvv.2, m + m', v, coef', ?_, by omega, g4 hac, fun hl1 hl2 he => ?_⟩
        · rw [← advance_advance, ← hu]; rfl
        · have := h2' hl1
          have := g3 hl2 he
          omega

end Sys2Proof.Machine
end

