-- ==== Sys2Proof/Laws/BlockText.lean ====
section
/-! SUPPORT. The block decoder on the text of a block (spec/30_encoding.md R91): a DC step and the AC loop on the bits of their
items. -/

namespace Sys2Proof.Machine

/-- A read of bits that are there. -/
theorem nextBits_of_bits {s : State} {n f : Nat} {rest : List Bool} (hf : f < 2 ^ n) (h : unreadBits s = bitsOf n f ++ rest) :
    nextBits n s = .ok f (advance n s) := by
  have hn : n ≤ avail s := by rw [← length_unreadBits, h]; simp
  have hp : peek s n = f := (peek_eq_iff s n f hn hf).2 (h ▸ List.prefix_append ..)
  rw [nextBits_ok hn, hp]

theorem unreadBits_advance_append {s : State} {n : Nat} {u rest : List Bool} (hu : u.length = n)
    (h : unreadBits s = u ++ rest) : unreadBits (advance n s) = rest := by
  rw [unreadBits_advance, h, List.drop_left' hu]

theorem runField_eq_zero {y : Byte} (h : y.toNat ≤ 15) : runField y = 0 := by
  apply Fin.ext
  simp [runField]
  omega

/-- The DC step on the bits of a DC item (R193). -/
theorem dcStep_text {c : Fin 4} {s : State} {e : CodeEntry} {f : Nat} {rest : List Bool}
    (hv : s.tbl[dcSel s c].valid = true) (hc : codesOk s.tbl[dcSel s c].codes) (he : e ∈ s.tbl[dcSel s c].codes)
    (hy : e.sym.toNat ≤ 15) (hf : f < 2 ^ (sizeField e.sym).val)
    (h : unreadBits s = codeBits e ++ (bitsOf (sizeField e.sym).val f ++ rest)) :
    dcStep c s = .ok () (storeDc c (if sizeField e.sym = 0 then 0 else extend f (sizeField e.sym).val)
      (advance (e.len + (sizeField e.sym).val) s)) := by
  unfold dcStep
  rw [decodeSymbol_match hv hc he (h ▸ List.prefix_append ..), Res.bind_ok]
  have h1 : unreadBits (advance e.len s) = bitsOf (sizeField e.sym).val f ++ rest :=
    unreadBits_advance_append (by simp) h
  unfold dcCases
  rw [if_pos (runField_eq_zero hy)]
  unfold dcsizeOp
  by_cases h0 : sizeField e.sym = 0
  · simp [h0]
  · beta_reduce
    rw [if_neg h0, if_neg h0, nextBits_of_bits hf h1, Res.bind_ok, advance_advance]

/-- One AC symbol on the bits of an item that is legal at the index (R194). -/
theorem acStep_text {c : Fin 4} {k k' : Nat} {s : State} {t : AcItem} {coef : Block} {rest : List Bool}
    (hv : s.tbl[acSel s c].valid = true) (hc : codesOk s.tbl[acSel s c].codes) (he : t.entry ∈ s.tbl[acSel s c].codes)
    (hk : t.effect k s.coef = some (k', coef)) (h : unreadBits s = t.bits ++ rest) :
    acStep c k s = .ok k' { advance t.bits.length s with coef := coef } ∧ k < k' ∧ k' ≤ 64 := by
  unfold AcItem.effect acCases at hk
  unfold AcItem.bits acCases at h ⊢
  unfold acStep
  rw [decodeSymbol_match hv hc he (by rw [h, List.append_assoc]; exact List.prefix_append ..), Res.bind_ok]
  unfold acCases
  by_cases h0 : t.entry.sym = 0x00#8
  · simp [h0] at hk
  rw [if_neg h0] at hk h ⊢
  rw [if_neg h0]
  by_cases h1 : t.entry.sym = 0xF0#8
  · rw [if_pos h1] at hk h ⊢
    rw [if_pos h1]
    split at hk
    · next hle =>
      simp only [Option.some.injEq, Prod.mk.injEq] at hk
      obtain ⟨rfl, rfl⟩ := hk
      simp [zrlOp, hle]
      rfl
    · cases hk
  rw [if_neg h1] at hk h ⊢
  rw [if_neg h1]
  by_cases h2 : sizeField t.entry.sym = 0
  · simp [h2] at hk
  rw [if_neg h2] at hk h ⊢
  rw [if_neg h2]
  beta_reduce at hk h ⊢
  split at hk
  · next hle =>
    simp only [Option.some.injEq, Prod.mk.injEq] at hk
    obtain ⟨rfl, rfl⟩ := hk
    have hu : unreadBits (advance t.entry.len s) = bitsOf (sizeField t.entry.sym).val t.field ++ rest :=
      unreadBits_advance_append (length_codeBits t.entry) (by rw [h, List.append_assoc])
    unfold runsizeOp
    rw [if_pos hle.1, nextBits_of_bits hle.2 hu, Res.bind_ok, advance_advance]
    refine ⟨?_, by omega, by omega⟩
    simp [setCoef]
  · simp at hk

/-- The AC loop on the bits of items that are legal from the index on: it goes on at the end of them. -/
theorem acLoop_text {c : Fin 4} : ∀ {items : List AcItem} {turns k k' : Nat} {s : State} {coef : Block} {rest : List Bool},
    s.tbl[acSel s c].valid = true → codesOk s.tbl[acSel s c].codes → (∀ i ∈ items, i.entry ∈ s.tbl[acSel s c].codes) →
    acEffect items k s.coef = some (k', coef) → unreadBits s = items.flatMap AcItem.bits ++ rest → 64 - k ≤ turns → k ≤ 64 →
    ∃ turns', acLoop c turns k s =
        acLoop c turns' k' { advance (items.flatMap AcItem.bits).length s with coef := coef } ∧ 64 - k' ≤ turns' ∧ k' ≤ 64
  | [], turns, k, k', s, coef, rest, _, _, _, hk, _, ht, h64 => by
    simp only [acEffect, Option.some.injEq, Prod.mk.injEq] at hk
    obtain ⟨rfl, rfl⟩ := hk
    exact ⟨turns, by simp, ht, h64⟩
  | i :: items, turns, k, k', s, coef, rest, hv, hc, he, hk, h, ht, h64 => by
    unfold acEffect at hk
    split at hk
    · next h63 =>
      split at hk
      · next k1 coef1 h1 =>
        obtain ⟨n, rfl⟩ : ∃ n, turns = n + 1 := ⟨turns - 1, by omega⟩
        rw [List.flatMap_cons, List.append_assoc] at h
        obtain ⟨g1, g2, g3⟩ := acStep_text hv hc (he i (by simp)) h1 h
        have hu : unreadBits { advance i.bits.length s with coef := coef1 } = items.flatMap AcItem.bits ++ rest :=
          unreadBits_advance_append rfl h
        obtain ⟨turns', e1, e2, e3⟩ := acLoop_text (c := c) (turns := n) (s := { advance i.bits.length s with coef := coef1 })
          hv hc (fun j hj => he j (by simp [hj])) hk hu (by omega) g3
        refine ⟨turns', ?_, e2, e3⟩
        conv_lhs => unfold acLoop
        rw [if_pos h63, g1, Res.bind_ok, e1, List.flatMap_cons, List.length_append, ← advance_advance]
        rfl
      · simp at hk
    · simp at hk

/-- The EOB codeword ends the block (R195). -/
theorem acStep_eob {c : Fin 4} {k : Nat} {s : State} {e : CodeEntry} {rest : List Bool}
    (hv : s.tbl[acSel s c].valid = true) (hc : codesOk s.tbl[acSel s c].codes) (he : e ∈ s.tbl[acSel s c].codes)
    (hy : e.sym = 0#8) (h : unreadBits s = codeBits e ++ rest) : acStep c k s = .ok 64 (advance e.len s) := by
  unfold acStep
  rw [decodeSymbol_match hv hc he (h ▸ List.prefix_append ..), Res.bind_ok]
  unfold acCases
  rw [if_pos hy]
  rfl

theorem acLoop_end (c : Fin 4) (turns : Nat) (s : State) : acLoop c turns 64 s = .ok () s := by
  cases turns with
  | zero => rfl
  | succ n => unfold acLoop; rw [if_neg (by omega)]

/-- The AC items leave coefficient 0 alone. -/
theorem acEffect_zero : ∀ {items : List AcItem} {k k' : Nat} {c0 c1 : Block}, 1 ≤ k → acEffect items k c0 = some (k', c1) → c1[0] = c0[0]
  | [], k, k', c0, c1, _, h => by simp only [acEffect, Option.some.injEq, Prod.mk.injEq] at h; rw [h.2]
  | i :: items, k, k', c0, c1, hk, h => by
    unfold acEffect at h
    split at h
    · split at h
      · next k1 cc hi =>
        have : cc[0] = c0[0] ∧ k ≤ k1 := by
          unfold AcItem.effect acCases at hi
          split at hi
          · cases hi
          split at hi
          · split at hi
            · cases hi; exact ⟨rfl, by omega⟩
            · cases hi
          split at hi
          · cases hi
          · beta_reduce at hi
            split at hi
            · cases hi
              refine ⟨?_, by omega⟩
              rw [Vector.getElem_setIfInBounds, if_neg (by omega)]
            · cases hi
        rw [acEffect_zero (by omega) h, this.1]
      · cases h
    · cases h

end Sys2Proof.Machine
end

