-- ==== Sys2Proof/Laws/Refiller.lean ====
section
/-! SUPPORT. The refiller: what one turn, one batch and `topUp` can do, in terms of the destuffed sequence
(spec/42_refiller.md R172, R177, R181). -/

namespace Sys2Proof.Machine

/-! ### The destuffed sequence at the first bytes of the source -/

theorem destuff_of_eq {s : State} (h : s.srcPos = s.srcLen) : destuff s = ([], s.srcPos.toNat, .sourceEnd) := by
  simp [destuff, h, sourceBytes, destuffBytes]

theorem destuff_eq {s : State} {n : Nat} (h : s.srcLen.toNat - s.srcPos.toNat = n) :
    destuff s = destuffBytes (sourceBytes s.src s.srcPos.toNat n) s.srcPos.toNat := by
  rw [destuff, h]

/-- The state after the source position has moved on inside the source. -/
theorem srcPos_add {s : State} {k : Nat} (h : s.srcPos.toNat + k ≤ s.srcLen.toNat) :
    (s.srcPos + BitVec.ofNat 32 k).toNat = s.srcPos.toNat + k := by
  have := s.srcLen.isLt
  rw [BitVec.toNat_add, BitVec.toNat_ofNat]
  omega

/-! ### Feeding the cursor -/

/-- `t` is `s` with the bytes `D` appended to the cursor, `SRC_POS` moved on by `k`, and perhaps `EOE` set, nothing else
changed; what is left of the destuffed sequence after `D` is what `t` has ahead. -/
structure Fed (D : List Byte) (k : Nat) (s t : State) : Prop where
  frame : t = { s with
    curData := t.curData, curPos := t.curPos, curBackable := t.curBackable, srcPos := t.srcPos, eoe := t.eoe }
  tail : tailBytes t = tailBytes s ++ D
  kept : D = [] → t.curData = s.curData ∧ t.curPos = s.curPos ∧ t.curBackable = s.curBackable
  appended : D ≠ [] → t.curData = s.curData.drop (s.curPos / 8) ++ D ∧ t.curPos = s.curPos % 8 ∧ t.curBackable = 0
  pos : t.curPos % 8 = s.curPos % 8
  bound : s.curPos ≤ 8 * s.curData.length → t.curPos ≤ 8 * t.curData.length
  back : s.curBackable ≤ s.curPos → t.curBackable ≤ t.curPos
  room : window s ≤ s.params.capMax → window t ≤ s.params.capMax
  src : t.srcPos.toNat = s.srcPos.toNat + k
  le : s.srcPos ≤ s.srcLen → t.srcPos ≤ t.srcLen
  stuff : s.srcPos ≤ s.srcLen → destuff s = (D ++ (destuff t).1, (destuff t).2)

/-- The entropy data have ended at `SRC_POS`, in order. -/
abbrev endedAt (t : State) : Prop := (destuff t).1 = [] ∧ (destuff t).2.1 = t.srcPos.toNat ∧ (destuff t).2.2 ≠ .malformed

/-- A malformed pair is at `SRC_POS`. -/
abbrev malformedAt (t : State) : Prop := destuff t = ([], t.srcPos.toNat, .malformed)

section
variable {D D' : List Byte} {k k' : Nat} {s t u : State}

theorem Fed.refl (s : State) : Fed [] 0 s s :=
  ⟨rfl, by simp, fun _ => ⟨rfl, rfl, rfl⟩, fun h => absurd rfl h, rfl, id, id, id, rfl, id, fun _ => rfl⟩

theorem Fed.srcLen (h : Fed D k s t) : t.srcLen = s.srcLen := by rw [h.frame]
theorem Fed.params (h : Fed D k s t) : t.params = s.params := by rw [h.frame]
theorem Fed.source (h : Fed D k s t) : t.src = s.src := by rw [h.frame]

theorem Fed.trans (h : Fed D k s t) (h' : Fed D' k' t u) : Fed (D ++ D') (k + k') s u where
  frame := by rw [h'.frame, h.frame]
  tail := by rw [h'.tail, h.tail, List.append_assoc]
  kept hd := by
    obtain ⟨h1, h2⟩ := List.append_eq_nil_iff.1 hd
    obtain ⟨a1, a2, a3⟩ := h.kept h1
    obtain ⟨b1, b2, b3⟩ := h'.kept h2
    exact ⟨b1.trans a1, b2.trans a2, b3.trans a3⟩
  appended hd := by
    by_cases h1 : D = []
    · obtain ⟨a1, a2, -⟩ := h.kept h1
      have h2 : D' ≠ [] := fun h2 => hd (by rw [h1, h2]; rfl)
      obtain ⟨b1, b2, b3⟩ := h'.appended h2
      exact ⟨by rw [b1, a1, a2, h1]; rfl, by rw [b2, a2], b3⟩
    · obtain ⟨a1, a2, a3⟩ := h.appended h1
      by_cases h2 : D' = []
      · obtain ⟨b1, b2, b3⟩ := h'.kept h2
        exact ⟨by rw [b1, a1, h2, List.append_nil], b2.trans a2, b3.trans a3⟩
      · obtain ⟨b1, b2, b3⟩ := h'.appended h2
        have h0 : s.curPos % 8 / 8 = 0 := by omega
        exact ⟨by rw [b1, a1, a2, h0, List.drop_zero, List.append_assoc], by rw [b2, a2]; omega, b3⟩
  pos := h'.pos.trans h.pos
  bound hb := h'.bound (h.bound hb)
  back hb := h'.back (h.back hb)
  room hr := by rw [← h.params]; exact h'.room (by rw [h.params]; exact h.room hr)
  src := by rw [h'.src, h.src]; omega
  le hl := h'.le (h.le hl)
  stuff hl := by rw [h.stuff hl, h'.stuff (h.le hl), List.append_assoc]

/-- What a refill leaves, whole (R172, R111). -/
theorem Fed.refilled (h : Fed D k s t) : refilled D s t := by
  refine ⟨h.tail, ?_⟩
  rw [h.frame]
  by_cases hd : D = []
  · obtain ⟨h1, h2, h3⟩ := h.kept hd
    simp only [if_pos hd, h1, h2, h3]
  · obtain ⟨h1, h2, h3⟩ := h.appended hd
    simp only [if_neg hd, h1, h2, h3]

theorem Fed.length_tail (h : Fed D k s t) : Machine.tail t = Machine.tail s + D.length := by
  rw [← length_tailBytes, h.tail, List.length_append, length_tailBytes]

theorem Fed.unreadBits (h : Fed D k s t) (hb : s.curPos ≤ 8 * s.curData.length) :
    unreadBits t = Machine.unreadBits s ++ byteBits D := by
  rw [unreadBits_eq_tailBytes, unreadBits_eq_tailBytes, h.tail, h.pos, byteBits_append,
    List.drop_append_of_le_length]
  simp only [length_byteBits, length_tailBytes, Machine.tail]
  omega

theorem destuff_setEoe (s : State) : destuff (setEoe s) = destuff s := rfl

/-- `EOE` set, nothing else. -/
theorem Fed.setEoe (s : State) : Fed [] 0 s (setEoe s) :=
  ⟨rfl, by simp [tailBytes, Machine.setEoe], fun _ => ⟨rfl, rfl, rfl⟩, fun h => absurd rfl h, rfl, id, id, id, rfl, id, fun _ => rfl⟩

/-- One byte fed, from one or two bytes of the source. -/
theorem Fed.one {x : Byte} (hroom : Machine.tail s + 1 ≤ s.params.capMax) (hk : s.srcPos.toNat + k ≤ s.srcLen.toNat)
    (hstuff : destuff s = (x :: (destuff (skipSource k s)).1, (destuff (skipSource k s)).2))
    (ht : t = setCursor (s.curData.drop (s.curPos / 8) ++ [x]) (s.curPos % 8) (skipSource k s)) : Fed [x] k s t := by
  subst ht
  have h0 : s.curPos % 8 / 8 = 0 := by omega
  refine ⟨rfl, ?_, fun h => absurd h (by simp), fun _ => ⟨rfl, rfl, rfl⟩, ?_, ?_, ?_, ?_, ?_, ?_, ?_⟩
  · simp [tailBytes, setCursor, h0]
  · simp [setCursor]
  · intro _
    simp [setCursor]
    omega
  · intro _
    simp [setCursor]
  · intro _
    simp only [Machine.tail, window, setCursor, List.length_append, List.length_singleton, List.length_drop] at hroom ⊢
    omega
  · exact srcPos_add hk
  · intro _
    show s.srcPos + BitVec.ofNat 32 k ≤ s.srcLen
    rw [BitVec.le_def, srcPos_add hk]
    exact hk
  · intro _; exact hstuff

end

/-! ### One turn -/

theorem append_one (x : Byte) (k : Nat) (s : State) :
    (Machine.tail s + 1 ≤ s.params.capMax ∧ append [x] (skipSource k s) =
      .ok () (setCursor (s.curData.drop (s.curPos / 8) ++ [x]) (s.curPos % 8) (skipSource k s))) ∨
    (s.params.capMax < Machine.tail s + 1 ∧ append [x] (skipSource k s) = .raised .allocFailure (skipSource k s)) :=
  append_cases [x] (skipSource k s)

/-- The destuffed sequence after a byte other than `0xFF`. -/
theorem destuff_plain {s : State} (hlt : s.srcPos.toNat < s.srcLen.toNat) (hx : srcByte s s.srcPos ≠ 0xFF#8) :
    destuff s = (srcByte s s.srcPos :: (destuff (skipSource 1 s)).1, (destuff (skipSource 1 s)).2) := by
  have e1 : (skipSource 1 s).srcPos.toNat = s.srcPos.toNat + 1 := srcPos_add (by omega)
  have hx' : ¬ Memory.read s.src s.srcPos.toNat = 0xFF#8 := hx
  obtain ⟨n, hn⟩ : ∃ n, s.srcLen.toNat - s.srcPos.toNat = n + 1 := ⟨s.srcLen.toNat - s.srcPos.toNat - 1, by omega⟩
  have hn1 : (skipSource 1 s).srcLen.toNat - (skipSource 1 s).srcPos.toNat = n := by
    rw [e1]; show s.srcLen.toNat - _ = n; omega
  rw [destuff_eq hn, destuff_eq hn1, e1]
  show destuffBytes (sourceBytes s.src s.srcPos.toNat (n + 1)) _ = (_ :: (destuffBytes (sourceBytes s.src _ n) _).1, _)
  cases n with
  | zero => simp [sourceBytes, destuffBytes, hx', srcByte]
  | succ n => simp [sourceBytes, destuffBytes, hx', srcByte]

/-- The destuffed sequence at a `0xFF` that has a byte after it. -/
theorem destuff_escape {s : State} (hlt : s.srcPos.toNat + 1 < s.srcLen.toNat) (hx : srcByte s s.srcPos = 0xFF#8) :
    destuff s =
      if srcByte s (s.srcPos + 1#32) = 0x00#8 then
        (0xFF#8 :: (destuff (skipSource 2 s)).1, (destuff (skipSource 2 s)).2)
      else if isMarker (srcByte s (s.srcPos + 1#32)) then ([], s.srcPos.toNat, .marker)
      else ([], s.srcPos.toNat, .malformed) := by
  have e1 : (s.srcPos + 1#32).toNat = s.srcPos.toNat + 1 := srcPos_add (k := 1) (by omega)
  have e2 : (skipSource 2 s).srcPos.toNat = s.srcPos.toNat + 2 := srcPos_add (by omega)
  have hx' : Memory.read s.src s.srcPos.toNat = 0xFF#8 := hx
  obtain ⟨n, hn⟩ : ∃ n, s.srcLen.toNat - s.srcPos.toNat = n + 2 := ⟨s.srcLen.toNat - s.srcPos.toNat - 2, by omega⟩
  have hn2 : (skipSource 2 s).srcLen.toNat - (skipSource 2 s).srcPos.toNat = n := by
    rw [e2]; show s.srcLen.toNat - _ = n; omega
  rw [destuff_eq hn, destuff_eq hn2, e2]
  simp only [sourceBytes, destuffBytes, hx', if_true, srcByte, e1]
  rfl

/-- The destuffed sequence at a `0xFF` that is the last byte. -/
theorem destuff_last {s : State} (hlt : s.srcPos.toNat + 1 = s.srcLen.toNat) (hx : srcByte s s.srcPos = 0xFF#8) :
    destuff s = ([], s.srcPos.toNat, .sourceEnd) := by
  have hx' : Memory.read s.src s.srcPos.toNat = 0xFF#8 := hx
  rw [destuff_eq (n := 1) (by omega)]
  simp [sourceBytes, destuffBytes, hx']

theorem isMarker_D9 : isMarker 0xD9#8 = true := rfl

/-- What one turn can do (R172): end the batch where the entropy data end, feed one byte, find a malformed pair, or find no
room. -/
theorem refillTurn_sat (left : Nat) (s : State) (hle : s.srcPos ≤ s.srcLen) :
    (refillTurn left s).Sat
      (fun next t =>
        match next with
        | none => t = setEoe s ∧ endedAt s
        | some l => ∃ x k, Fed [x] k s t ∧ t.eoe = s.eoe ∧ ((k = 1 ∧ l = left) ∨ (k = 2 ∧ l = left - 1)))
      (fun e t =>
        (e = .malformedByteStuffing ∧ t = s ∧ malformedAt s) ∨
        (e = .allocFailure ∧ s.params.capMax < Machine.tail s + 1 ∧ ∃ x k, t = skipSource k s ∧
          destuff s = (x :: (destuff t).1, (destuff t).2))) := by
  rw [BitVec.le_def] at hle
  unfold refillTurn
  by_cases h0 : s.srcPos = s.srcLen
  · rw [if_pos h0]
    exact ⟨rfl, by simp [endedAt, destuff_of_eq h0]⟩
  rw [if_neg h0]
  have hlt : s.srcPos.toNat < s.srcLen.toNat :=
    Nat.lt_of_le_of_ne hle fun h => h0 (BitVec.eq_of_toNat_eq h)
  by_cases hx : srcByte s s.srcPos = 0xFF#8
  · rw [if_neg (not_not.2 hx)]
    have e1 : (s.srcPos + 1#32).toNat = s.srcPos.toNat + 1 := srcPos_add (k := 1) (by omega)
    by_cases h1 : s.srcPos + 1#32 = s.srcLen
    · rw [if_pos h1]
      have hlast : s.srcPos.toNat + 1 = s.srcLen.toNat := by rw [← e1, h1]
      exact ⟨rfl, by simp [endedAt, destuff_last hlast hx]⟩
    rw [if_neg h1]
    have hlt2 : s.srcPos.toNat + 1 < s.srcLen.toNat :=
      Nat.lt_of_le_of_ne hlt fun h => h1 (BitVec.eq_of_toNat_eq (e1.trans h))
    have hd := destuff_escape hlt2 hx
    unfold escCases
    by_cases hy0 : srcByte s (s.srcPos + 1#32) = 0x00#8
    · rw [if_pos hy0]
      rw [if_pos hy0] at hd
      unfold stuffOp
      rcases append_one 0xFF#8 2 s with ⟨hr, ha⟩ | ⟨hr, ha⟩
      · rw [ha]
        exact ⟨0xFF#8, 2, Fed.one hr (by omega) hd rfl, rfl, .inr ⟨rfl, rfl⟩⟩
      · rw [ha]
        exact .inr ⟨rfl, hr, _, 2, rfl, hd⟩
    rw [if_neg hy0]
    rw [if_neg hy0] at hd
    by_cases hm : isMarker (srcByte s (s.srcPos + 1#32)) = true
    · rw [if_pos hm] at hd
      have key : (setEoe s = setEoe s ∧ endedAt s) := ⟨rfl, by simp [endedAt, hd]⟩
      split
      · exact key
      · exact key
    · rw [if_neg hm] at hd
      rw [if_neg (fun h => hm (by rw [h]; exact isMarker_D9)), if_neg hm]
      exact .inl ⟨rfl, rfl, hd⟩
  · rw [if_pos hx]
    rcases append_one (srcByte s s.srcPos) 1 s with ⟨hr, ha⟩ | ⟨hr, ha⟩
    · rw [ha]
      exact ⟨_, 1, Fed.one hr (by omega) (destuff_plain hlt hx) rfl, rfl, .inl ⟨rfl, rfl⟩⟩
    · rw [ha]
      exact .inr ⟨rfl, hr, _, 1, rfl, destuff_plain hlt hx⟩

/-! ### A batch -/

/-- How a refill that may examine `left` bytes fails: on a malformed pair the batch reaches, all the bytes before it fed; or
for want of room for the next byte, the source position having moved past it (R182). -/
abbrev refillFails (left : Nat) (s : State) (e : Err) (t : State) : Prop :=
  ∃ D k u, Fed D k s u ∧ u.eoe = s.eoe ∧
    ((e = .malformedByteStuffing ∧ t = u ∧ malformedAt u ∧ k < left) ∨
     (e = .allocFailure ∧ D.length < left ∧ s.params.capMax < Machine.tail u + 1 ∧
      ∃ x j, t = skipSource j u ∧ destuff u = (x :: (destuff t).1, (destuff t).2)))

/-- What a batch that may examine `left` bytes can do (R172, R173). -/
theorem refillBatch_sat : ∀ (turns left : Nat) (s : State), left ≤ turns → s.srcPos ≤ s.srcLen →
    (refillBatch turns left s).Sat
      (fun _ t => ∃ D k, Fed D k s t ∧ D.length ≤ left ∧ k ≤ left + 1 ∧ (left = 0 → k = 0) ∧ (s.eoe = true → t.eoe = true) ∧
        (s.eoe = false → t.eoe = true → endedAt t) ∧ (t.eoe = false → left ≤ k ∧ (1 ≤ left → D ≠ [])))
      (fun e t => refillFails left s e t)
  | 0, left, s, hl, hle => by
    obtain rfl : left = 0 := by omega
    exact ⟨[], 0, Fed.refl s, by simp, by simp, fun _ => rfl, id, fun h1 h2 => by simp [h1] at h2, fun _ => by simp⟩
  | turns + 1, 0, s, _, hle =>
    ⟨[], 0, Fed.refl s, by simp, by simp, fun _ => rfl, id, fun h1 h2 => by simp [h1] at h2, fun _ => by simp⟩
  | turns + 1, left + 1, s, hl, hle => by
    unfold refillBatch
    have hturn := refillTurn_sat left s hle
    cases hr : refillTurn left s with
    | raised e t =>
      rw [hr] at hturn
      rcases hturn with ⟨rfl, rfl, hm⟩ | ⟨rfl, hroom, hpast⟩
      · exact ⟨[], 0, t, Fed.refl t, rfl, .inl ⟨rfl, rfl, hm, by omega⟩⟩
      · exact ⟨[], 0, s, Fed.refl s, rfl, .inr ⟨rfl, by simp, hroom, hpast⟩⟩
    | ok next t =>
      rw [hr] at hturn
      rw [Res.bind_ok]
      cases next with
      | none =>
        obtain ⟨rfl, hend⟩ := hturn
        exact ⟨[], 0, Fed.setEoe s, by simp, by simp, fun _ => rfl, fun _ => rfl, fun _ _ => hend, fun h => by simp [setEoe] at h⟩
      | some l =>
        obtain ⟨x, k, hfed, heoe, hk⟩ := hturn
        have ih := refillBatch_sat turns l t (by omega) (hfed.le hle)
        refine ih.mono ?_ ?_
        · rintro - u ⟨D, k', hfed', hD, hk', hk0, he1, he2, he3⟩
          refine ⟨[x] ++ D, k + k', hfed.trans hfed', ?_, by omega, by omega, fun h => he1 (heoe.trans h),
            fun h => he2 (heoe.trans h), fun h => ?_⟩
          · simp only [List.length_append, List.length_singleton]
            omega
          · have := he3 h
            exact ⟨by omega, fun _ => by simp⟩
        · rintro e u ⟨D, k', v, hfed', heoe', hcase⟩
          refine ⟨[x] ++ D, k + k', v, hfed.trans hfed', heoe'.trans heoe, ?_⟩
          rcases hcase with ⟨h1, h2, h3, h4⟩ | ⟨h1, h2, h3, h4⟩
          · exact .inl ⟨h1, h2, h3, by omega⟩
          · rw [hfed.params] at h3
            refine .inr ⟨h1, ?_, h3, h4⟩
            simp only [List.length_append, List.length_singleton]
            omega

/-! ### `refill` and `topUp` -/

theorem refill_eoe {s : State} (h : s.eoe = true) : refill s = .ok () s := by simp [refill, h]

theorem refill_bad {s : State} (h : s.eoe = false) (hp : s.srcLen < s.srcPos) : refill s = .raised .badCommand s := by
  simp [refill, h, hp]

theorem refill_batch {s : State} (h : s.eoe = false) (hp : s.srcPos ≤ s.srcLen) :
    refill s = refillBatch s.params.chunk s.params.chunk s := by
  have : ¬ s.srcLen < s.srcPos := by rw [BitVec.lt_def, Nat.not_lt]; exact hp
  simp [refill, h, this]

theorem refill_sat {s : State} (h : s.eoe = false) (hp : s.srcPos ≤ s.srcLen) :
    (refill s).Sat
      (fun _ t => ∃ D k, Fed D k s t ∧ D.length ≤ s.params.chunk ∧ k ≤ s.params.chunk + 1 ∧
        (t.eoe = true → endedAt t) ∧ (t.eoe = false → s.params.chunk ≤ k ∧ (1 ≤ s.params.chunk → D ≠ [])))
      (fun e t => refillFails s.params.chunk s e t) := by
  rw [refill_batch h hp]
  refine (refillBatch_sat _ _ s (Nat.le_refl _) hp).mono ?_ (fun _ _ h => h)
  rintro - t ⟨D, k, h1, h2, h3, -, -, h4, h5⟩
  exact ⟨D, k, h1, h2, h3, h4 h, h5⟩

/-- The entropy data end no earlier than where they are examined from (R181). -/
theorem le_destuffBytes : ∀ (bs : List Byte) (i : Nat), i ≤ (destuffBytes bs i).2.1
  | [], i => Nat.le_refl i
  | [x], i => by unfold destuffBytes; split <;> simp
  | x :: y :: rest, i => by
    unfold destuffBytes
    split
    · split
      · exact Nat.le_trans (by omega) (le_destuffBytes rest (i + 2))
      · split <;> simp
    · exact Nat.le_trans (by omega) (le_destuffBytes (y :: rest) (i + 1))

theorem le_destuff (s : State) : s.srcPos.toNat ≤ (destuff s).2.1 := le_destuffBytes _ _

/-- With `EOE = 1` nothing is refilled. -/
theorem topUp_eoe {s : State} (h : s.eoe = true) : topUp s = .ok () s := by
  unfold topUp
  cases s.params.lowWater - Machine.tail s with
  | zero => rfl
  | succ n => unfold topUpLoop; rw [if_neg (by simp [h])]

/-- What `topUp` can do, with legal parameters and a legal source position: feed the cursor until it holds `LOW_WATER` bytes or
the entropy data end; or find a malformed pair. There is always room (R177, R182). -/
theorem topUpLoop_sat : ∀ (turns : Nat) (s : State), s.params.ok → s.eoe = true ∨ s.srcPos ≤ s.srcLen →
    s.params.lowWater - Machine.tail s ≤ turns →
    (topUpLoop turns s).Sat
      (fun _ t => ∃ D k, Fed D k s t ∧ (t.eoe = true ∨ s.params.lowWater ≤ Machine.tail t) ∧
        (s.eoe = true → t = s) ∧ (s.eoe = false → t.eoe = true → endedAt t))
      (fun e t => ∃ D k, Fed D k s t ∧ e = .malformedByteStuffing ∧ s.eoe = false ∧ t.eoe = false ∧ malformedAt t)
  | 0, s, _, _, ht =>
    ⟨[], 0, Fed.refl s, .inr (by omega), fun _ => rfl, fun h1 h2 => by simp [h1] at h2⟩
  | turns + 1, s, hok, hle, ht => by
    unfold topUpLoop
    by_cases h : s.eoe = false ∧ Machine.tail s < s.params.lowWater
    · rw [if_pos h]
      have hle' : s.srcPos ≤ s.srcLen := hle.resolve_left (by simp [h.1])
      have hch := hok.2.2.1
      have hcap := hok.2.2.2.2.1
      have hr := refill_sat h.1 hle'
      cases hc : refill s with
      | raised e t =>
        rw [hc] at hr
        obtain ⟨D, k, u, hfed, heoe, hcase⟩ := hr
        rcases hcase with ⟨rfl, rfl, hm, -⟩ | ⟨-, hD, hroom, -⟩
        · exact ⟨D, k, hfed, rfl, h.1, heoe.trans h.1, hm⟩
        · rw [hfed.length_tail] at hroom
          omega
      | ok a t =>
        rw [hc] at hr
        obtain ⟨D, k, hfed, -, -, hend, hprog⟩ := hr
        rw [Res.bind_ok]
        have hturns : t.params.lowWater - Machine.tail t ≤ turns ∨ t.eoe = true := by
          cases he : t.eoe with
          | true => exact .inr rfl
          | false =>
            have := List.length_pos_iff.2 ((hprog he).2 hch)
            rw [hfed.params, hfed.length_tail]
            exact .inl (by omega)
        rcases hturns with hturns | heoe
        · have ih := topUpLoop_sat turns t (by rw [hfed.params]; exact hok) (.inr (hfed.le hle')) hturns
          refine ih.mono ?_ ?_
          · rintro - u ⟨D', k', hfed', h1, h2, h3⟩
            refine ⟨D ++ D', k + k', hfed.trans hfed', by rw [← hfed.params]; exact h1, fun h' => by simp [h.1] at h',
              fun _ hu => ?_⟩
            cases he : t.eoe with
            | true => rw [h2 he]; exact hend he
            | false => exact h3 he hu
          · rintro e u ⟨D', k', hfed', h1, h2, h3⟩
            exact ⟨D ++ D', k + k', hfed.trans hfed', h1, h.1, h3⟩
        · have hstop : topUpLoop turns t = .ok () t := by
            cases turns with
            | zero => rfl
            | succ n => unfold topUpLoop; rw [if_neg (by simp [heoe])]
          rw [hstop]
          exact ⟨D, k, hfed, .inl heoe, fun h' => by simp [h.1] at h', fun _ _ => hend heoe⟩
    · rw [if_neg h]
      refine ⟨[], 0, Fed.refl s, ?_, fun _ => rfl, fun h1 h2 => by simp [h1] at h2⟩
      cases he : s.eoe with
      | true => exact .inl rfl
      | false => exact .inr (Nat.not_lt.1 fun hlt => h ⟨he, hlt⟩)

theorem topUp_sat {s : State} (hok : s.params.ok) (hle : s.eoe = true ∨ s.srcPos ≤ s.srcLen) :
    (topUp s).Sat
      (fun _ t => ∃ D k, Fed D k s t ∧ (t.eoe = true ∨ s.params.lowWater ≤ Machine.tail t) ∧
        (s.eoe = true → t = s) ∧ (s.eoe = false → t.eoe = true → endedAt t))
      (fun e t => ∃ D k, Fed D k s t ∧ e = .malformedByteStuffing ∧ s.eoe = false ∧ t.eoe = false ∧ malformedAt t) :=
  topUpLoop_sat _ s hok hle (Nat.le_refl _)

/-- With the source position past the source's end `topUp` refills nothing (R172). -/
theorem topUp_bad {s : State} (he : s.eoe = false) (hlt : s.srcLen < s.srcPos) :
    topUp s = if Machine.tail s < s.params.lowWater then .raised .badCommand s else .ok () s := by
  unfold topUp
  by_cases h : Machine.tail s < s.params.lowWater
  · obtain ⟨n, hn⟩ : ∃ n, s.params.lowWater - Machine.tail s = n + 1 := ⟨s.params.lowWater - Machine.tail s - 1, by omega⟩
    rw [hn, topUpLoop, if_pos ⟨he, h⟩, refill_bad he hlt, if_pos h]
    rfl
  · rw [show s.params.lowWater - Machine.tail s = 0 by omega, if_neg h]
    rfl

/-! ### What the refiller may write -/

/-- `t` is `s` but for the cursor's contents, `SRC_POS` and `EOE`. -/
abbrev FeedFrame (s t : State) : Prop :=
  t = { s with curData := t.curData, curPos := t.curPos, curBackable := t.curBackable, srcPos := t.srcPos, eoe := t.eoe }

theorem FeedFrame.trans {s t u : State} (h : FeedFrame s t) (h' : FeedFrame t u) : FeedFrame s u := by
  unfold FeedFrame at *
  rw [h', h]

theorem tail_le_window (s : State) : Machine.tail s ≤ window s := by
  have : (s.curPos - s.curBackable) / 8 ≤ s.curPos / 8 := Nat.div_le_div_right (Nat.sub_le ..)
  unfold Machine.tail window
  omega

theorem Fed.cursorOk {D : List Byte} {k : Nat} {s t : State} (h : Fed D k s t) (hc : cursorOk s) : cursorOk t :=
  ⟨h.back hc.1, h.bound hc.2.1, Nat.le_trans (tail_le_window t) (by rw [h.params]; exact h.room hc.2.2.2),
    by rw [h.params]; exact h.room hc.2.2.2⟩

/-- What a refill may write, whether it fails or not (R178); the cursor stays in order. -/
theorem refill_frame (s : State) :
    (refill s).Sat (fun _ t => FeedFrame s t ∧ (cursorOk s → cursorOk t))
      (fun e t => FeedFrame s t ∧ (cursorOk s → cursorOk t) ∧
        (e = .badCommand ∨ e = .malformedByteStuffing ∨ e = .allocFailure)) := by
  cases he : s.eoe with
  | true => rw [refill_eoe he]; exact ⟨rfl, id⟩
  | false =>
    by_cases hp : s.srcPos ≤ s.srcLen
    · refine (refill_sat he hp).mono ?_ ?_
      · rintro - t ⟨D, k, h, -⟩
        exact ⟨h.frame, h.cursorOk⟩
      · rintro e t ⟨D, k, u, h, -, (⟨rfl, rfl, -⟩ | ⟨rfl, -, -, x, j, rfl, -⟩)⟩
        · exact ⟨h.frame, h.cursorOk, .inr (.inl rfl)⟩
        · exact ⟨by rw [h.frame]; rfl, h.cursorOk, .inr (.inr rfl)⟩
    · rw [refill_bad he (by rw [BitVec.lt_def]; rw [BitVec.le_def] at hp; omega)]
      exact ⟨rfl, id, .inl rfl⟩

/-- What `topUp` may write, whether it fails or not; the cursor stays in order. -/
theorem topUpLoop_frame : ∀ (turns : Nat) (s : State),
    (topUpLoop turns s).Sat (fun _ t => FeedFrame s t ∧ (cursorOk s → cursorOk t))
      (fun e t => FeedFrame s t ∧ (cursorOk s → cursorOk t) ∧
        (e = .badCommand ∨ e = .malformedByteStuffing ∨ e = .allocFailure))
  | 0, s => ⟨rfl, id⟩
  | turns + 1, s => by
    unfold topUpLoop
    split
    · refine (refill_frame s).bind fun _ t ht => (topUpLoop_frame turns t).mono ?_ ?_
      · exact fun _ u hu => ⟨ht.1.trans hu.1, fun h => hu.2 (ht.2 h)⟩
      · exact fun _ u hu => ⟨ht.1.trans hu.1, fun h => hu.2.1 (ht.2 h), hu.2.2⟩
    · exact ⟨rfl, id⟩

theorem topUp_frame (s : State) :
    (topUp s).Sat (fun _ t => FeedFrame s t ∧ (cursorOk s → cursorOk t))
      (fun e t => FeedFrame s t ∧ (cursorOk s → cursorOk t) ∧
        (e = .badCommand ∨ e = .malformedByteStuffing ∨ e = .allocFailure)) := topUpLoop_frame _ s

end Sys2Proof.Machine
end

