-- ==== Sys2Proof/Laws/Loop.lean ====
section
/-! SUPPORT. The MCU loop: what a block step and a RUN may write, and that the loop is the nest of MCUs, channels and blocks
(spec/44_loop_commands.md R224 to R231). -/

namespace Sys2Proof.Machine

/-! ### A block step -/

/-- `t` is `s` but for what refilling and decoding a block write. -/
abbrev BlockFrame (s t : State) : Prop :=
  t = { s with
    curData := t.curData, curPos := t.curPos, curBackable := t.curBackable, srcPos := t.srcPos, eoe := t.eoe
    bitpos := t.bitpos, pred := t.pred, coef := t.coef }

theorem BlockFrame.refl (s : State) : BlockFrame s s := rfl

theorem BlockFrame.trans {s t u : State} (h : BlockFrame s t) (h' : BlockFrame t u) : BlockFrame s u := by
  unfold BlockFrame at *
  rw [h', h]

theorem FeedFrame.block {s t : State} (h : FeedFrame s t) : BlockFrame s t := by
  unfold FeedFrame at h
  rw [h]

/-- What decoding keeps in order: the cursor, and the range of the AC coefficients. -/
abbrev DataOk (s : State) : Prop := cursorOk s ∧ acRange s.coef

theorem cursorOk_advance {s : State} {m : Nat} (h : cursorOk s) (hm : m ≤ avail s) : cursorOk (advance m s) := by
  obtain ⟨h1, h2, -, h4⟩ := h
  unfold avail at hm
  have hw : window (advance m s) = window s := by
    simp only [window, advance_curData, advance_curPos, advance_curBackable]
    congr 2
    omega
  refine ⟨?_, ?_, Nat.le_trans (tail_le_window _) (hw ▸ h4), hw ▸ h4⟩
  · simp; omega
  · simp; omega

theorem decodeBlock_frame (c : Fin 4) (s : State) :
    (decodeBlock c s).Sat (fun _ t => BlockFrame s t ∧ (DataOk s → DataOk t))
      (fun _ t => BlockFrame s t ∧ (DataOk s → DataOk t)) := by
  refine (decodeBlock_sat c s).mono ?_ ?_
  · rintro - t ⟨m, v, coef, rfl, h1, -, h3, -⟩
    exact ⟨rfl, fun h => ⟨cursorOk_advance h.1 h1, h3⟩⟩
  · rintro e t (⟨-, -, rfl⟩ | ⟨-, -, m, v, coef, rfl, h1, h3, -⟩)
    · exact ⟨rfl, id⟩
    · exact ⟨rfl, fun h => ⟨cursorOk_advance h.1 h1, h3⟩⟩

/-- What a block step may write (R225, R231): on a fault `OUT` and the coordinates are as before. -/
theorem blockStep_frame (s : State) :
    (blockStep s).Sat (fun _ t => ∃ u, BlockFrame s u ∧ t = appendBlock u ∧ (DataOk s → DataOk u))
      (fun _ t => BlockFrame s t ∧ (DataOk s → DataOk t)) := by
  unfold blockStep
  have htop := (topUp_frame s).mono (Q' := fun _ t => BlockFrame s t ∧ (DataOk s → DataOk t))
    (E' := fun _ t => BlockFrame s t ∧ (DataOk s → DataOk t))
    (fun _ t h => ⟨h.1.block, fun hd => ⟨h.2 hd.1, by rw [h.1]; exact hd.2⟩⟩)
    (fun _ t h => ⟨h.1.block, fun hd => ⟨h.2.1 hd.1, by rw [h.1]; exact hd.2⟩⟩)
  refine htop.bind fun _ t ht => ?_
  split
  · exact ht
  · have hd := (decodeBlock_frame (Fin.ofNat 4 t.chIdx) t).mono (Q' := fun _ u => BlockFrame s u ∧ (DataOk s → DataOk u))
      (E' := fun _ u => BlockFrame s u ∧ (DataOk s → DataOk u))
      (fun _ u h => ⟨ht.1.trans h.1, fun hd => h.2 (ht.2 hd)⟩) (fun _ u h => ⟨ht.1.trans h.1, fun hd => h.2 (ht.2 hd)⟩)
    exact hd.bind fun _ u hu => ⟨u, hu.1, rfl, hu.2⟩

/-! ### The loop as a nest -/

/-- What the loop reads of the geometry, and where it stands but for `CH_IDX` and `BLK_IDX`. -/
abbrev SameScan (s t : State) : Prop :=
  t.numCh = s.numCh ∧ t.chCfg = s.chCfg ∧ t.mcuIdx = s.mcuIdx ∧ t.mcuStop = s.mcuStop

theorem SameScan.blocks {s t : State} (h : SameScan s t) (c : Nat) : blocksOf t c = blocksOf s c := by
  simp only [blocksOf, h.2.1]

/-- `s` at other inner coordinates. -/
abbrev atBlock (c j : Nat) (s : State) : State := { s with chIdx := c, blkIdx := j }

/-- A block step at a block, as the loop sees it: the same scan, one block further. -/
theorem blockStep_next (s : State) :
    (blockStep s).Sat (fun _ t => SameScan s t ∧ t.chIdx = s.chIdx ∧ t.blkIdx = s.blkIdx + 1) (fun _ _ => True) := by
  refine (blockStep_frame s).mono ?_ (fun _ _ _ => trivial)
  rintro - t ⟨u, hu, rfl, -⟩
  rw [hu]
  exact ⟨⟨rfl, rfl, rfl, rfl⟩, rfl, rfl⟩

theorem runBlocks_append : ∀ (l l' : List (Nat × Nat)) (s : State),
    runBlocks (l ++ l') s = (runBlocks l s).bind fun _ t => runBlocks l' t
  | [], _, _ => rfl
  | (c, j) :: l, l', s => by
    simp only [List.cons_append, runBlocks, Res.bind_assoc]
    congr 1
    funext _ t
    exact runBlocks_append l l' t

/-- Block steps do not depend on the inner coordinates they start with, but for those they leave when there are none. -/
theorem runBlocks_atBlock (l : List (Nat × Nat)) (c j : Nat) (s : State) (f : State → Res Unit)
    (hf : ∀ c j t, f (atBlock c j t) = f t) :
    ((runBlocks l (atBlock c j s)).bind fun _ t => f t) = (runBlocks l s).bind fun _ t => f t := by
  cases l with
  | nil => exact hf c j s
  | cons p l => rfl

/-- The blocks of one channel from block `j` on. -/
theorem runLoop_channel (n : Nat) : ∀ (m : Nat) (s : State), s.mcuIdx < s.mcuStop → s.chIdx < s.numCh.toNat →
    s.blkIdx + m = blocksOf s s.chIdx →
    runLoop (m + n) s = (runBlocks ((List.range' s.blkIdx m).map fun j => (s.chIdx, j)) s).bind fun _ t => runLoop n t
  | 0, s, _, _, _ => by simp [runBlocks]
  | m + 1, s, h1, h2, h3 => by
    rw [Nat.add_right_comm, runLoop, if_pos h1, if_neg (by omega), if_neg (by omega), List.range'_succ, List.map_cons, runBlocks]
    show (blockStep s).bind _ = ((blockStep s).bind _).bind _
    rw [Res.bind_assoc]
    have hs := blockStep_next s
    cases hr : blockStep s with
    | raised e t => rfl
    | ok a t =>
      rw [hr] at hs
      obtain ⟨hsame, hc, hj⟩ := hs
      simp only [Res.bind_ok]
      rw [runLoop_channel n m t (by rw [hsame.2.2.1, hsame.2.2.2]; exact h1) (by rw [hc, hsame.1]; exact h2)
        (by rw [hc, hj, hsame.blocks]; omega), hc, hj]

/-- Where the block steps of one channel leave the loop. -/
theorem runBlocks_channel : ∀ (m : Nat) (s : State),
    (runBlocks ((List.range' s.blkIdx m).map fun j => (s.chIdx, j)) s).Sat
      (fun _ t => SameScan s t ∧ t.chIdx = s.chIdx ∧ t.blkIdx = s.blkIdx + m) (fun _ _ => True)
  | 0, s => ⟨⟨rfl, rfl, rfl, rfl⟩, rfl, rfl⟩
  | m + 1, s => by
    rw [List.range'_succ, List.map_cons, runBlocks]
    refine (blockStep_next s).bind fun _ t ht => ?_
    obtain ⟨hsame, hc, hj⟩ := ht
    have ih := runBlocks_channel m t
    rw [hc, hj] at ih
    refine ih.mono ?_ (fun _ _ _ => trivial)
    rintro - u ⟨⟨g1, g2, g3, g4⟩, g5, g6⟩
    exact ⟨⟨g1.trans hsame.1, g2.trans hsame.2.1, g3.trans hsame.2.2.1, g4.trans hsame.2.2.2⟩, g5, by omega⟩

/-- The blocks of the channels from `c` on, `m` of them. -/
def channelBlocks (s : State) (c m : Nat) : List (Nat × Nat) :=
  (List.range' c m).flatMap fun c => (List.range (blocksOf s c)).map fun j => (c, j)

/-- The turns the loop takes for them. -/
def channelTurns (s : State) (c : Nat) : Nat → Nat
  | 0 => 0
  | m + 1 => blocksOf s c + (channelTurns s (c + 1) m + 1)

theorem channelBlocks_same {s t : State} (h : SameScan s t) (c m : Nat) : channelBlocks t c m = channelBlocks s c m := by
  simp only [channelBlocks, h.blocks]

theorem channelTurns_same {s t : State} (h : SameScan s t) : ∀ c m, channelTurns t c m = channelTurns s c m
  | _, 0 => rfl
  | c, m + 1 => by simp only [channelTurns, h.blocks, channelTurns_same h (c + 1) m]

/-- The channels of one MCU from channel `c` on, and the step to the next MCU. -/
theorem runLoop_channels (n : Nat) : ∀ (m : Nat) (s : State), s.mcuIdx < s.mcuStop → s.blkIdx = 0 →
    s.chIdx + m = s.numCh.toNat →
    runLoop (channelTurns s s.chIdx m + 1 + n) s =
      (runBlocks (channelBlocks s s.chIdx m) s).bind fun _ t => runLoop n (nextMcu t)
  | 0, s, h1, _, h3 => by
    rw [channelTurns, Nat.zero_add, Nat.add_comm, runLoop, if_pos h1, if_pos (by omega)]
    rfl
  | m + 1, s, h1, h2, h3 => by
    have e1 : channelTurns s s.chIdx (m + 1) + 1 + n =
        blocksOf s s.chIdx + (channelTurns s (s.chIdx + 1) m + 1 + n + 1) := by simp only [channelTurns]; omega
    have e2 : channelBlocks s s.chIdx (m + 1) =
        (List.range' s.blkIdx (blocksOf s s.chIdx)).map (fun j => (s.chIdx, j)) ++ channelBlocks s (s.chIdx + 1) m := by
      rw [channelBlocks, List.range'_succ, List.flatMap_cons, h2, ← List.range_eq_range']
      rfl
    rw [e1, e2, runLoop_channel _ _ s h1 (by omega) (by omega), runBlocks_append, Res.bind_assoc]
    have hs := runBlocks_channel (blocksOf s s.chIdx) s
    cases hr : runBlocks ((List.range' s.blkIdx (blocksOf s s.chIdx)).map fun j => (s.chIdx, j)) s with
    | raised e t => rfl
    | ok a t =>
      rw [hr] at hs
      obtain ⟨hsame, hc, hj⟩ := hs
      simp only [Res.bind_ok]
      have hstop : t.mcuIdx < t.mcuStop := by rw [hsame.2.2.1, hsame.2.2.2]; exact h1
      rw [runLoop, if_pos hstop, if_neg (by rw [hc, hsame.1]; omega), if_pos (by rw [hc, hj, hsame.blocks]; omega)]
      have hsame' : SameScan s (nextChannel t) := hsame
      have ih := runLoop_channels n m (nextChannel t) hstop rfl
        (by show t.chIdx + 1 + m = t.numCh.toNat; rw [hc, hsame.1]; omega)
      have hch : (nextChannel t).chIdx = s.chIdx + 1 := by show t.chIdx + 1 = _; rw [hc]
      rw [hch, channelTurns_same hsame', channelBlocks_same hsame'] at ih
      rw [ih]
      exact runBlocks_atBlock (channelBlocks s (s.chIdx + 1) m) _ _ t (fun t => runLoop n (nextMcu t)) (fun _ _ _ => rfl)

theorem mcuBlocks_eq (s : State) : mcuBlocks s = channelBlocks s 0 s.numCh.toNat := by
  rw [mcuBlocks, channelBlocks, List.range_eq_range']

theorem channelTurns_eq (s : State) : ∀ c m, channelTurns s c m = ((List.range' c m).map (blocksOf s)).sum + m
  | _, 0 => rfl
  | c, m + 1 => by
    simp only [channelTurns, channelTurns_eq s (c + 1) m, List.range'_succ, List.map_cons, List.sum_cons]
    omega

/-- One MCU of the loop (R224): its blocks in order, then the next MCU. -/
theorem runLoop_mcu {s : State} (n : Nat) (h1 : s.mcuIdx < s.mcuStop) (h2 : s.chIdx = 0) (h3 : s.blkIdx = 0) :
    runLoop (blocksPerMcu s + s.numCh.toNat + 1 + n) s =
      (runBlocks (mcuBlocks s) s).bind fun _ t => runLoop n (nextMcu t) := by
  have h := runLoop_channels n s.numCh.toNat s h1 h3 (by omega)
  rw [h2, channelTurns_eq, ← mcuBlocks_eq, ← List.range_eq_range'] at h
  exact h

theorem runLoop_stop {s : State} (h : ¬ s.mcuIdx < s.mcuStop) (n : Nat) : runLoop n s = .ok () s := by
  cases n with
  | zero => rfl
  | succ n => rw [runLoop, if_neg h]

/-- A property of the block steps of a list of blocks: it holds at the start of each, whatever its coordinates, and is kept. -/
theorem runBlocks_sat {P : State → Prop} {E : Err → State → Prop} {l : List (Nat × Nat)}
    (hP : ∀ p ∈ l, ∀ s, P s → (blockStep (atBlock p.1 p.2 s)).Sat (fun _ t => P t) E) :
    ∀ {s : State}, P s → (runBlocks l s).Sat (fun _ t => P t) E := by
  induction l with
  | nil => exact fun h => h
  | cons p l ih =>
    intro s h
    exact Res.Sat.bind (hP p (by simp) s h) fun _ t ht => ih (fun q hq => hP q (by simp [hq])) ht

/-- The geometry, the stop and the MCU index during the blocks of an MCU. -/
theorem runBlocks_sameScan (l : List (Nat × Nat)) (s : State) :
    (runBlocks l s).Sat (fun _ t => SameScan s t) (fun _ _ => True) := by
  refine runBlocks_sat (P := fun t => SameScan s t) (fun p _ t ht => ?_) ⟨rfl, rfl, rfl, rfl⟩
  refine (blockStep_next (atBlock p.1 p.2 t)).mono ?_ (fun _ _ _ => trivial)
  rintro - u ⟨⟨g1, g2, g3, g4⟩, -⟩
  exact ⟨g1.trans ht.1, g2.trans ht.2.1, g3.trans ht.2.2.1, g4.trans ht.2.2.2⟩

theorem mcuIdx_add_one {s : State} (h : s.mcuIdx < s.mcuStop) : (s.mcuIdx + 1#32).toNat = s.mcuIdx.toNat + 1 := by
  rw [BitVec.lt_def] at h
  have := s.mcuStop.isLt
  rw [BitVec.toNat_add, BitVec.toNat_ofNat]
  omega

/-- The loop is the nest of R224: `n` MCUs up to the stop, each its blocks in order. -/
theorem runLoop_eq_runMcus : ∀ (n extra : Nat) (s : State), s.mcuStop.toNat - s.mcuIdx.toNat = n → s.chIdx = 0 → s.blkIdx = 0 →
    runLoop (n * (blocksPerMcu s + s.numCh.toNat + 1) + extra) s = runMcus n s
  | 0, extra, s, h, _, _ => by
    rw [runLoop_stop (by rw [BitVec.lt_def]; omega)]
    rfl
  | n + 1, extra, s, h, h2, h3 => by
    have hlt : s.mcuIdx < s.mcuStop := by rw [BitVec.lt_def]; omega
    have e1 : (n + 1) * (blocksPerMcu s + s.numCh.toNat + 1) + extra =
        blocksPerMcu s + s.numCh.toNat + 1 + (n * (blocksPerMcu s + s.numCh.toNat + 1) + extra) := by
      rw [Nat.succ_mul]; omega
    rw [e1, runLoop_mcu _ hlt h2 h3, runMcus]
    have hs := runBlocks_sameScan (mcuBlocks s) s
    cases hr : runBlocks (mcuBlocks s) s with
    | raised e t => rfl
    | ok a t =>
      rw [hr] at hs
      obtain ⟨g1, g2, g3, g4⟩ := hs
      simp only [Res.bind_ok]
      have hb : blocksPerMcu (nextMcu t) = blocksPerMcu s := by
        have : ∀ c, blocksOf (nextMcu t) c = blocksOf s c := fun c => by
          show chBlocks t.chCfg[_] = chBlocks s.chCfg[_]
          rw [g2]
        have hn : (nextMcu t).numCh = s.numCh := g1
        simp only [blocksPerMcu, hn, funext this]
      have hn : (nextMcu t).numCh = s.numCh := g1
      have hm : (nextMcu t).mcuIdx.toNat = s.mcuIdx.toNat + 1 := by
        show (t.mcuIdx + 1#32).toNat = _
        rw [g3, mcuIdx_add_one hlt]
      have hst : (nextMcu t).mcuStop = s.mcuStop := g4
      have ih := runLoop_eq_runMcus n extra (nextMcu t) (by rw [hst, hm]; omega) rfl rfl
      rw [hb, hn] at ih
      exact ih

/-- RUN is the nest, from the first block of an MCU on (R224, R228). -/
theorem runLoop_runBound {s : State} (h2 : s.chIdx = 0) (h3 : s.blkIdx = 0) :
    runLoop (runBound s) s = runMcus (s.mcuStop.toNat - s.mcuIdx.toNat) s :=
  runLoop_eq_runMcus _ 0 s rfl h2 h3

/-! ### A property over a whole RUN -/

theorem mem_mcuBlocks {s : State} {p : Nat × Nat} (h : p ∈ mcuBlocks s) : p.1 < s.numCh.toNat ∧ p.2 < blocksOf s p.1 := by
  simp only [mcuBlocks, List.mem_flatMap, List.mem_map, List.mem_range] at h
  obtain ⟨c, hc, j, hj, rfl⟩ := h
  exact ⟨hc, hj⟩

/-- A property that every block step of the scan keeps, and the step to the next MCU too, holds after the MCUs of a RUN; a
fault comes from a block step at a block of the scan. -/
theorem runMcus_sat {P : State → Prop} {E : Err → State → Prop}
    (hblock : ∀ s c j, P s → s.mcuIdx < s.mcuStop → c < s.numCh.toNat → j < blocksOf s c →
      (blockStep (atBlock c j s)).Sat (fun _ t => P t) E)
    (hnext : ∀ s, P s → s.mcuIdx < s.mcuStop → P (nextMcu s)) :
    ∀ (n : Nat) (s : State), s.mcuStop.toNat - s.mcuIdx.toNat = n → P s →
      (runMcus n s).Sat
        (fun _ t => P t ∧ t.numCh = s.numCh ∧ t.chCfg = s.chCfg ∧ t.mcuStop = s.mcuStop ∧
          t.mcuIdx = (if s.mcuIdx < s.mcuStop then s.mcuStop else s.mcuIdx) ∧
          (if s.mcuIdx < s.mcuStop then t.chIdx = 0 ∧ t.blkIdx = 0 else t = s)) E
  | 0, s, h, hs => by
    have hn : ¬ s.mcuIdx < s.mcuStop := by rw [BitVec.lt_def]; omega
    refine ⟨hs, rfl, rfl, rfl, ?_, ?_⟩
    · rw [if_neg hn]
    · rw [if_neg hn]
  | n + 1, s, h, hs => by
    have hlt : s.mcuIdx < s.mcuStop := by rw [BitVec.lt_def]; omega
    rw [runMcus]
    have hb := runBlocks_sat (P := fun t => P t ∧ SameScan s t) (E := E) (l := mcuBlocks s) (fun p hp t ht => by
      obtain ⟨hc, hj⟩ := mem_mcuBlocks hp
      have h1 := hblock t p.1 p.2 ht.1 (by rw [ht.2.2.2.1, ht.2.2.2.2]; exact hlt) (by rw [ht.2.1]; exact hc)
        (by rw [ht.2.blocks]; exact hj)
      have h2 := blockStep_next (atBlock p.1 p.2 t)
      cases hr : blockStep (atBlock p.1 p.2 t) with
      | raised e u => rw [hr] at h1; exact h1
      | ok a u =>
        rw [hr] at h1 h2
        obtain ⟨⟨g1, g2, g3, g4⟩, -⟩ := h2
        exact ⟨h1, g1.trans ht.2.1, g2.trans ht.2.2.1, g3.trans ht.2.2.2.1, g4.trans ht.2.2.2.2⟩)
      (s := s) ⟨hs, rfl, rfl, rfl, rfl⟩
    refine hb.bind fun _ t ht => ?_
    obtain ⟨hP, g1, g2, g3, g4⟩ := ht
    have hlt' : t.mcuIdx < t.mcuStop := by rw [g3, g4]; exact hlt
    have hm : (nextMcu t).mcuIdx.toNat = s.mcuIdx.toNat + 1 := by
      show (t.mcuIdx + 1#32).toNat = _
      rw [g3, mcuIdx_add_one hlt]
    have hst : (nextMcu t).mcuStop = s.mcuStop := g4
    refine (runMcus_sat hblock hnext n (nextMcu t) (by rw [hst, hm]; omega) (hnext t hP hlt')).mono ?_ (fun _ _ h => h)
    rintro - u ⟨k1, k2, k3, k4, k5, k6⟩
    refine ⟨k1, k2.trans g1, k3.trans g2, k4.trans hst, ?_, ?_⟩
    · rw [if_pos hlt, k5, hst]
      split
      · rfl
      · next hn =>
        rw [BitVec.lt_def, hm] at hn
        exact BitVec.eq_of_toNat_eq (by rw [hm]; rw [BitVec.lt_def] at hlt; omega)
    · rw [if_pos hlt]
      split at k6
      · exact k6
      · rw [k6]; exact ⟨rfl, rfl⟩

/-- RUN from the first block of an MCU on, when its checks pass (R228). -/
theorem runScan_eq {s : State} (h : s.mcuStop ≤ s.mcuCount ∧ numChLegal s) (h2 : s.chIdx = 0) (h3 : s.blkIdx = 0) :
    runScan s = (runMcus (s.mcuStop.toNat - s.mcuIdx.toNat) s).bind fun _ t => .ok () (endRun t) := by
  rw [runScan, if_pos h, runLoop_runBound h2 h3]

theorem runScan_bad {s : State} (h : ¬ (s.mcuStop ≤ s.mcuCount ∧ numChLegal s)) : runScan s = .raised .badCommand s := by
  rw [runScan, if_neg h]

end Sys2Proof.Machine
end

