-- ==== Sys2Proof/Laws/Adjust.lean ====
section
/-! SUPPORT. Nothing inside a command reads `MCU_STOP` or the unit at work (spec/44_loop_commands.md R228), and the unit's turns one
by one (log entry 4) are the operations of the whole commands. -/

namespace Sys2Proof.Machine

/-- A state with its stop and its unit replaced: nothing inside a command reads them. -/
abbrev adjust (g : Word → Word) (h : Activity → Activity) (s : State) : State := { s with mcuStop := g s.mcuStop, unit := h s.unit }

def Res.mapState {α : Type} (f : State → State) : Res α → Res α
  | .ok a s => .ok a (f s)
  | .raised e s => .raised e (f s)

theorem Res.mapState_bind {α β : Type} {f : State → State} {r : Res α} {k : α → State → Res β}
    (hk : ∀ a s, k a (f s) = (k a s).mapState f) : (r.mapState f).bind k = (r.bind k).mapState f := by
  cases r with
  | ok a s => exact hk a s
  | raised e s => rfl

section
variable (g : Word → Word) (h : Activity → Activity)

theorem decodeSymbol_adjust (sel : Fin 8) (s : State) : decodeSymbol sel (adjust g h s) = (decodeSymbol sel s).mapState (adjust g h) := by
  unfold decodeSymbol
  show (if s.tbl[sel].valid = true then match s.tbl[sel].codes.find? (matchesUnread s) with
    | some e => Res.ok e.sym (advance e.len (adjust g h s))
    | none => if s.tbl[sel].codes.any (extendsUnread s) = true then Res.raised .streamExhausted (adjust g h s) else Res.raised .huffmanLookupFailed (adjust g h s)
    else Res.raised .badCommand (adjust g h s)) = _
  split
  · cases s.tbl[sel].codes.find? (matchesUnread s) with
    | some e => rfl
    | none => simp only; split <;> rfl
  · rfl

theorem nextBits_adjust (n : Nat) (s : State) : nextBits n (adjust g h s) = (nextBits n s).mapState (adjust g h) := by
  by_cases hn : n ≤ avail s
  · rw [nextBits_ok hn, nextBits_ok (s := adjust g h s) hn]; rfl
  · rw [nextBits_raised (Nat.not_le.1 hn), nextBits_raised (s := adjust g h s) (Nat.not_le.1 hn)]; rfl

theorem append_adjust (bs : List Byte) (s : State) : append bs (adjust g h s) = (append bs s).mapState (adjust g h) := by
  unfold append
  show (if tail s + bs.length ≤ s.params.capMax then _ else _) = _
  split <;> rfl

theorem refillTurn_adjust (left : Nat) (s : State) : refillTurn left (adjust g h s) = (refillTurn left s).mapState (adjust g h) := by
  unfold refillTurn
  by_cases h0 : s.srcPos = s.srcLen
  · rw [if_pos h0, if_pos (show (adjust g h s).srcPos = (adjust g h s).srcLen from h0)]; rfl
  rw [if_neg h0, if_neg (show ¬ (adjust g h s).srcPos = (adjust g h s).srcLen from h0)]
  by_cases h1 : srcByte s s.srcPos ≠ 0xFF#8
  · rw [if_pos h1, if_pos (show srcByte (adjust g h s) (adjust g h s).srcPos ≠ 0xFF#8 from h1)]
    show ((append _ (adjust g h (skipSource 1 s))).bind _) = _
    rw [append_adjust]
    exact Res.mapState_bind fun _ _ => rfl
  rw [if_neg h1, if_neg (show ¬ srcByte (adjust g h s) (adjust g h s).srcPos ≠ 0xFF#8 from h1)]
  by_cases h2 : s.srcPos + 1#32 = s.srcLen
  · rw [if_pos h2, if_pos (show (adjust g h s).srcPos + 1#32 = (adjust g h s).srcLen from h2)]; rfl
  rw [if_neg h2, if_neg (show ¬ (adjust g h s).srcPos + 1#32 = (adjust g h s).srcLen from h2)]
  unfold escCases
  show (if srcByte s (s.srcPos + 1#32) = 0#8 then ((append [0xFF#8] (adjust g h (skipSource 2 s))).bind _) else _) = _
  split
  · rw [append_adjust]
    exact Res.mapState_bind fun _ _ => rfl
  show (if srcByte s (s.srcPos + 1#32) = 0xD9#8 then _ else _) = _
  split
  · rfl
  show (if isMarker (srcByte s (s.srcPos + 1#32)) = true then _ else _) = _
  split <;> rfl

theorem refillBatch_adjust : ∀ (turns left : Nat) (s : State), refillBatch turns left (adjust g h s) = (refillBatch turns left s).mapState (adjust g h)
  | 0, _, _ => rfl
  | _ + 1, 0, _ => rfl
  | turns + 1, left + 1, s => by
    unfold refillBatch
    rw [refillTurn_adjust]
    refine Res.mapState_bind fun a u => ?_
    cases a with
    | none => rfl
    | some l => exact refillBatch_adjust turns l u

theorem refill_adjust (s : State) : refill (adjust g h s) = (refill s).mapState (adjust g h) := by
  unfold refill
  show (if s.eoe = true then _ else if s.srcLen < s.srcPos then _ else refillBatch s.params.chunk s.params.chunk (adjust g h s)) = _
  split
  · rfl
  split
  · rfl
  · exact refillBatch_adjust g h _ _ s

theorem topUpLoop_adjust : ∀ (turns : Nat) (s : State), topUpLoop turns (adjust g h s) = (topUpLoop turns s).mapState (adjust g h)
  | 0, _ => rfl
  | turns + 1, s => by
    unfold topUpLoop
    show (if s.eoe = false ∧ tail s < s.params.lowWater then _ else _) = _
    split
    · rw [refill_adjust]; exact Res.mapState_bind fun _ u => topUpLoop_adjust turns u
    · rfl

theorem topUp_adjust (s : State) : topUp (adjust g h s) = (topUp s).mapState (adjust g h) := topUpLoop_adjust g h _ s

theorem dcStep_adjust (c : Fin 4) (s : State) : dcStep c (adjust g h s) = (dcStep c s).mapState (adjust g h) := by
  unfold dcStep
  show (decodeSymbol (dcSel s c) (adjust g h s)).bind _ = _
  rw [decodeSymbol_adjust]
  refine Res.mapState_bind fun y u => ?_
  unfold dcCases
  split
  · unfold dcsizeOp
    beta_reduce
    split
    · rfl
    · rw [nextBits_adjust]; exact Res.mapState_bind fun _ _ => rfl
  · rfl

theorem acStep_adjust (c : Fin 4) (k : Nat) (s : State) : acStep c k (adjust g h s) = (acStep c k s).mapState (adjust g h) := by
  unfold acStep
  show (decodeSymbol (acSel s c) (adjust g h s)).bind _ = _
  rw [decodeSymbol_adjust]
  refine Res.mapState_bind fun y u => ?_
  unfold acCases
  split
  · rfl
  split
  · unfold zrlOp; split <;> rfl
  split
  · rfl
  · unfold runsizeOp
    beta_reduce
    split
    · rw [nextBits_adjust]; exact Res.mapState_bind fun _ _ => rfl
    · rfl

theorem acLoop_adjust (c : Fin 4) : ∀ (turns k : Nat) (s : State), acLoop c turns k (adjust g h s) = (acLoop c turns k s).mapState (adjust g h)
  | 0, _, _ => rfl
  | turns + 1, k, s => by
    unfold acLoop
    split
    · rw [acStep_adjust]; exact Res.mapState_bind fun _ _ => acLoop_adjust c turns _ _
    · rfl

theorem decodeBlock_adjust (c : Fin 4) (s : State) : decodeBlock c (adjust g h s) = (decodeBlock c s).mapState (adjust g h) := by
  unfold decodeBlock
  show (if blockTablesValid c s = true then (dcStep c (adjust g h (zeroCoef s))).bind _ else _) = _
  split
  · rw [dcStep_adjust]; exact Res.mapState_bind fun _ _ => acLoop_adjust g h c _ _ _
  · rfl

theorem blockStep_adjust (s : State) : blockStep (adjust g h s) = (blockStep s).mapState (adjust g h) := by
  unfold blockStep
  rw [topUp_adjust]
  refine Res.mapState_bind fun _ u => ?_
  show (if eof u = true then _ else (decodeBlock (Fin.ofNat 4 u.chIdx) (adjust g h u)).bind _) = _
  split
  · rfl
  · rw [decodeBlock_adjust]; exact Res.mapState_bind fun _ _ => rfl

theorem runBlocks_adjust : ∀ (l : List (Nat × Nat)) (s : State), runBlocks l (adjust g h s) = (runBlocks l s).mapState (adjust g h)
  | [], _ => rfl
  | (c, j) :: l, s => by
    simp only [runBlocks]
    show (blockStep (adjust g h (atBlock c j s))).bind _ = _
    rw [blockStep_adjust]
    exact Res.mapState_bind fun _ u => runBlocks_adjust l u

theorem runMcus_adjust : ∀ (n : Nat) (s : State), runMcus n (adjust g h s) = (runMcus n s).mapState (adjust g h)
  | 0, _ => rfl
  | n + 1, s => by
    unfold runMcus
    show (runBlocks (mcuBlocks s) (adjust g h s)).bind _ = _
    rw [runBlocks_adjust]
    exact Res.mapState_bind fun _ u => runMcus_adjust n (nextMcu u)

end

/-- state with another unit -/
abbrev withUnit (u : Activity) (s : State) : State := { s with unit := u }

theorem withUnit_adjust (u : Activity) : withUnit u = adjust id (fun _ => u) := rfl

theorem finish_mapState_unit (u : Activity) (r : Res Unit) (f : State → State) (hf : ∀ s e, raise e (f s) = raise e s) (hu : ∀ s, withUnit u (f s) = withUnit u s) :
    finish ((r.mapState f).bind fun _ s1 => .ok () (withUnit u s1)) = finish (r.bind fun _ s1 => .ok () (withUnit u s1)) := by
  cases r with
  | ok a s => simp only [Res.mapState, Res.bind_ok, finish_ok, hu]
  | raised e s => simp only [Res.mapState, Res.bind_raised, finish_raised, hf]

theorem unitTurn_ac (c : Fin 4) (k : Nat) (s : State) :
    unitTurn (withUnit (.ac c k) s) = finish ((acStep c k s).bind fun k' s1 => .ok () (withUnit (if k' ≤ 63 then .ac c k' else .idle) s1)) := by
  show presentSymbol decodeAc (decodeSymbol (acSel s c) (withUnit (.ac c k) s)) = _
  rw [withUnit_adjust, decodeSymbol_adjust]
  unfold acStep
  cases decodeSymbol (acSel s c) s with
  | raised e u => rfl
  | ok y u =>
    simp only [Res.mapState, presentSymbol, Res.bind_ok]
    unfold decodeAc acCases
    split
    · rfl
    split
    · show finish ((zrlOp k (withUnit (.ac c k) u)).bind _) = _
      unfold zrlOp
      split <;> rfl
    split
    · rfl
    · show finish ((runsizeOp k _ _ (withUnit (.ac c k) u)).bind _) = _
      unfold runsizeOp
      beta_reduce
      split
      · rw [withUnit_adjust, nextBits_adjust]
        cases nextBits (sizeField y).val u <;> rfl
      · rfl

theorem unitTurn_dc (c : Fin 4) (s : State) :
    unitTurn (withUnit (.dc c) s) = finish ((dcStep c s).bind fun _ s1 => .ok () (withUnit (.ac c 1) s1)) := by
  show presentSymbol decodeDc (decodeSymbol (dcSel s c) (withUnit (.dc c) s)) = _
  rw [withUnit_adjust, decodeSymbol_adjust]
  unfold dcStep
  cases decodeSymbol (dcSel s c) s with
  | raised e u => rfl
  | ok y u =>
    simp only [Res.mapState, presentSymbol, Res.bind_ok]
    unfold decodeDc dcCases
    split
    · show finish ((dcsizeOp c _ (withUnit (.dc c) u)).bind _) = _
      unfold dcsizeOp
      beta_reduce
      split
      · rfl
      · rw [withUnit_adjust, nextBits_adjust]
        cases nextBits (sizeField y).val u <;> rfl
    · rfl

theorem unitTurns_idle (n : Nat) {s : State} (h : s.unit = .idle) : unitTurns n s = .next s := by
  cases n with
  | zero => rfl
  | succ n => unfold unitTurns; rw [if_pos h]

theorem withUnit_self {s : State} {u : Activity} (h : s.unit = u) : withUnit u s = s := by subst h; rfl

theorem unitTurns_ac (c : Fin 4) : ∀ (n k : Nat) (s : State), s.unit = .idle → 1 ≤ k → k ≤ 63 → 64 - k ≤ n →
    unitTurns n (withUnit (.ac c k) s) = finish (acLoop c n k s)
  | 0, k, s, _, _, _, _ => by omega
  | n + 1, k, s, hu, h1, h2, h3 => by
    unfold unitTurns
    rw [if_neg (by simp), unitTurn_ac, acLoop, if_pos h2]
    have hs := acStep_sat c k s h2
    cases hr : acStep c k s with
    | raised e t =>
      simp only [Res.bind_raised, finish_raised]
      rw [unitTurns_idle n (by rfl)]
    | ok k' t =>
      rw [hr] at hs
      obtain ⟨m, coef, rfl, -, hk', hk'', -⟩ := hs
      simp only [Res.bind_ok, finish_ok]
      by_cases h63 : k' ≤ 63
      · rw [if_pos h63]
        exact unitTurns_ac c n k' _ hu (by omega) h63 (by omega)
      · have : k' = 64 := by omega
        subst this
        rw [if_neg h63, acLoop_end, withUnit_self (by exact hu), finish_ok, unitTurns_idle n (by exact hu)]

/-- one turn of the refiller -/
theorem refillerTurn_eq (left : Nat) (s : State) :
    refillerTurn left (withUnit (.refill (left + 1)) s) =
      finish ((refillTurn left s).bind fun nx s1 => .ok () (withUnit (match nx with | some (l + 1) => .refill (l + 1) | some 0 | none => .idle) s1)) := by
  unfold refillerTurn
  show (if s.srcPos ≠ s.srcLen ∧ srcByte s s.srcPos = 0xFF#8 ∧ s.srcPos + 1#32 ≠ s.srcLen then _ else _) = _
  by_cases hc : s.srcPos ≠ s.srcLen ∧ srcByte s s.srcPos = 0xFF#8 ∧ s.srcPos + 1#32 ≠ s.srcLen
  · rw [if_pos hc]
    unfold refillTurn
    rw [if_neg hc.1, if_neg (not_not.2 hc.2.1), if_neg hc.2.2]
    show exec (decodeEscByte (srcByte s (s.srcPos + 1#32))) _ = _
    unfold decodeEscByte escCases
    split
    · show finish ((append [0xFF#8] (withUnit _ (skipSource 2 s))).bind _) = _
      rw [withUnit_adjust, append_adjust]
      unfold stuffOp
      cases append [0xFF#8] (skipSource 2 s) with
      | raised e t => rfl
      | ok a t =>
        simp only [Res.mapState, Res.bind_ok, finish_ok, Host.Outcome.next.injEq]
        by_cases h2 : 2 < left + 1
        · obtain ⟨l, rfl⟩ : ∃ l, left = l + 2 := ⟨left - 2, by omega⟩
          simp [h2]
        · have : left - 1 = 0 := by omega
          simp [h2, this]
    split
    · rfl
    split
    · rfl
    · rfl
  · rw [if_neg hc, withUnit_adjust, refillTurn_adjust]
    cases refillTurn left s <;> rfl

theorem unitTurns_refill : ∀ (n m left : Nat) (s : State), s.unit = .idle → left ≤ n → left < m → s.srcPos ≤ s.srcLen →
    unitTurns m (withUnit (.refill left) s) = finish (refillBatch n left s)
  | n, 0, left, s, _, _, h, _ => by omega
  | 0, m + 1, left, s, hu, h1, h2, _ => by
    have : left = 0 := by omega
    subst this
    unfold unitTurns
    rw [if_neg (by simp)]
    show unitTurns m { s with unit := .idle } = _
    rw [unitTurns_idle _ rfl]
    rw [show ({ s with unit := .idle } : State) = s from withUnit_self hu]
    rfl
  | n + 1, m + 1, 0, s, hu, h1, h2, _ => by
    unfold unitTurns
    rw [if_neg (by simp)]
    show unitTurns m { s with unit := .idle } = _
    rw [unitTurns_idle _ rfl]
    rw [show ({ s with unit := .idle } : State) = s from withUnit_self hu]
    rfl
  | n + 1, m + 1, left + 1, s, hu, h1, h2, hle => by
    unfold unitTurns
    rw [if_neg (by simp)]
    have e : unitTurn (withUnit (.refill (left + 1)) s) = refillerTurn left (withUnit (.refill (left + 1)) s) := rfl
    rw [e, refillerTurn_eq, refillBatch]
    have hs := refillTurn_sat left s hle
    cases hr : refillTurn left s with
    | raised e t => simp only [Res.bind_raised, finish_raised]; rw [unitTurns_idle _ (by rfl)]
    | ok nx t =>
      rw [hr] at hs
      simp only [Res.bind_ok, finish_ok]
      cases nx with
      | none =>
        obtain ⟨rfl, -⟩ := hs
        simp only
        rw [unitTurns_idle _ (by rfl), withUnit_self (by exact hu)]; rfl
      | some l =>
        obtain ⟨x, k, hf, -, hk⟩ := hs
        have hut : t.unit = .idle := by rw [hf.frame]; exact hu
        cases l with
        | zero =>
          simp only
          rw [unitTurns_idle _ (by rfl), withUnit_self hut]
          cases n <;> rfl
        | succ l =>
          simp only
          exact unitTurns_refill n m (l + 1) t hut (by omega) (by omega) (hf.le hle)

end Sys2Proof.Machine
end

