-- ==== Sys2Proof/Laws/HostPort.lean ====
section
/-! SUPPORT. The register window: every register is found at its offset, and nothing else is (spec/10_state.md R22, R66); and a
command always answers a next state. -/

namespace Sys2Proof.Machine

/-- The unmapped words of the window (R22). -/
theorem regAtWord_none (j : Nat) : regAtWord j = none ↔ ¬ (j < 26 ∨ (32 ≤ j ∧ j < 48) ∨ (64 ≤ j ∧ j < 384)) := by
  unfold regAtWord
  by_cases h1 : j < 9
  · rw [if_pos h1]; simp; omega
  rw [if_neg h1]
  by_cases h2 : j < 13
  · rw [if_pos h2]; simp; omega
  rw [if_neg h2]
  by_cases h3 : j < 16
  · rw [if_pos h3]; simp; omega
  rw [if_neg h3]
  by_cases h4 : j < 20
  · rw [if_pos h4]; simp; omega
  rw [if_neg h4]
  by_cases h5 : j < 26
  · rw [if_pos h5]; simp; omega
  rw [if_neg h5]
  by_cases h6 : j < 32
  · rw [if_pos h6]; simp; omega
  rw [if_neg h6]
  by_cases h7 : j < 48
  · rw [if_pos h7]; simp; omega
  rw [if_neg h7]
  by_cases h8 : j < 64
  · rw [if_pos h8]; simp; omega
  rw [if_neg h8]
  by_cases h9 : j < 320
  · rw [if_pos h9]; refine ⟨fun h => ?_, fun h => ?_⟩; cases h; omega
  rw [if_neg h9]
  by_cases h10 : j < 384
  · rw [if_pos h10]; refine ⟨fun h => ?_, fun h => ?_⟩; cases h; omega
  rw [if_neg h10]
  simp; omega

theorem regAt_four_mul (j : Nat) : regAt (4 * j) = regAtWord j := by
  rw [regAt, if_pos (by omega)]
  congr 1
  omega

/-- The indexed registers stand in a row from the first word of their range (R22). -/
theorem regAtWord_chCfg : ∀ c : Fin 4, regAtWord (9 + c.val) = some (.chCfg c) := by decide

theorem regAtWord_pred : ∀ c : Fin 4, regAtWord (16 + c.val) = some (.pred c) := by decide

theorem regAtWord_tblCnt : ∀ i : Fin 16, regAtWord (32 + i.val) = some (.tblCnt i) := by decide

theorem regAtWord_tblSym (i : Fin 256) : regAtWord (64 + i.val) = some (.tblSym i) := by
  have := i.isLt
  simp (disch := omega) only [regAtWord, if_neg, if_pos, Nat.add_sub_cancel_left, Fin.ofNat_val_eq_self]

theorem regAtWord_coef (k : Fin 64) : regAtWord (320 + k.val) = some (.coef k) := by
  have := k.isLt
  simp (disch := omega) only [regAtWord, if_neg, if_pos, Nat.add_sub_cancel_left, Fin.ofNat_val_eq_self]

/-- A register whose offset is that of word `j`, where it is found. -/
theorem regAt_of_word {r : Reg} {j : Nat} (ho : r.offset = 4 * j) (hw : regAtWord j = some r) : regAt r.offset = some r := by
  rw [ho, regAt_four_mul, hw]

/-- Every register is found at its offset. -/
theorem regAt_offset (r : Reg) : regAt r.offset = some r := by
  cases r with
  | chCfg c => exact regAt_of_word (by simp only [Reg.offset]; omega) (regAtWord_chCfg c)
  | pred c => exact regAt_of_word (by simp only [Reg.offset]; omega) (regAtWord_pred c)
  | tblCnt i => exact regAt_of_word (by simp only [Reg.offset]; omega) (regAtWord_tblCnt i)
  | tblSym i => exact regAt_of_word (by simp only [Reg.offset]; omega) (regAtWord_tblSym i)
  | coef k => exact regAt_of_word (by simp only [Reg.offset]; omega) (regAtWord_coef k)
  | _ => rfl

/-- What is found at a word has its offset there. -/
theorem regAtWord_offset (j : Nat) (r : Reg) (h : regAtWord j = some r) : r.offset = 4 * j := by
  unfold regAtWord at h
  by_cases h1 : j < 9
  · rw [if_pos h1] at h; interval_cases j <;> simp at h <;> subst h <;> rfl
  rw [if_neg h1] at h
  by_cases h2 : j < 13
  · rw [if_pos h2] at h; interval_cases j <;> simp at h <;> subst h <;> rfl
  rw [if_neg h2] at h
  by_cases h3 : j < 16
  · rw [if_pos h3] at h; interval_cases j <;> simp at h <;> subst h <;> rfl
  rw [if_neg h3] at h
  by_cases h4 : j < 20
  · rw [if_pos h4] at h; interval_cases j <;> simp at h <;> subst h <;> rfl
  rw [if_neg h4] at h
  by_cases h5 : j < 26
  · rw [if_pos h5] at h; interval_cases j <;> simp at h <;> subst h <;> rfl
  rw [if_neg h5] at h
  by_cases h6 : j < 32
  · rw [if_pos h6] at h; cases h
  rw [if_neg h6] at h
  by_cases h7 : j < 48
  · rw [if_pos h7, Option.some.injEq] at h; subst h; simp [Reg.offset]; omega
  rw [if_neg h7] at h
  by_cases h8 : j < 64
  · rw [if_pos h8] at h; cases h
  rw [if_neg h8] at h
  by_cases h9 : j < 320
  · rw [if_pos h9, Option.some.injEq] at h; subst h; show 0x100 + 4 * ((j - 64) % 256) = 4 * j; omega
  rw [if_neg h9] at h
  by_cases h10 : j < 384
  · rw [if_pos h10, Option.some.injEq] at h; subst h; show 0x500 + 4 * ((j - 320) % 64) = 4 * j; omega
  rw [if_neg h10] at h
  cases h

/-- The refused offsets are those outside the table of R22. -/
theorem regAt_none (o : Nat) : regAt o = none ↔ ¬ mappedOffset o := by
  unfold regAt mappedOffset
  split
  · next h => rw [regAtWord_none]; omega
  · next h => simp [h]

/-- `CMD` alone stands at offset 0. -/
theorem regAt_cmd (o : Nat) : regAt o = some .cmd ↔ o = 0 := by
  constructor
  · intro h
    unfold regAt at h
    split at h
    · next h4 =>
      have := regAtWord_offset _ _ h
      simp [Reg.offset] at this
      omega
    · cases h
  · rintro rfl; rfl

/-- A command always answers a next state (R220, R303). -/
theorem exec_next_command {i : Instr} (h : isCommand i = true) (s : State) : ∃ t, exec i s = .next t := by
  cases i <;> simp only [isCommand, Bool.false_eq_true] at h <;>
    simp only [exec, execNop, execReset, execClear, execAppend, execNextbits, execBackbits, execAlign, execLoadTable,
      execDecodeSym, execRefill, execDecodeBlock, execStartScan, execRun, execPredReset, execResync]
  case reset => exact ⟨_, rfl⟩
  all_goals exact command_next _ _ _

end Sys2Proof.Machine
end

