-- ==== Sys2Proof/Laws/Memory.lean ====
section
/-! SUPPORT. The source space: every operation keeps its canonical form, a read after a write gives the byte written, and a
write leaves every other byte alone (spec/20_memory.md R60, R73). -/

namespace Sys2Proof.Machine

theorem Memory.wfFrom_cons (lo b : Nat) (v : Byte) (m : Memory) :
    Memory.wfFrom lo ((b, v) :: m) = true ↔ lo ≤ b ∧ v ≠ srcUnwritten ∧ Memory.wfFrom (b + 1) m = true := by
  simp [Memory.wfFrom, and_assoc]

theorem Memory.wfFrom_mono {lo hi : Nat} (h : lo ≤ hi) : ∀ {m : Memory}, Memory.wfFrom hi m = true → Memory.wfFrom lo m = true
  | [], _ => rfl
  | (b, v) :: m, hm => by
    rw [Memory.wfFrom_cons] at hm ⊢
    exact ⟨by omega, hm.2⟩

theorem Memory.wfFrom_write (a : Nat) (x : Byte) :
    ∀ (lo : Nat) (m : Memory), lo ≤ a → Memory.wfFrom lo m = true → Memory.wfFrom lo (Memory.write m a x) = true
  | lo, [], ha, _ => by
    by_cases hx : x = srcUnwritten <;> simp [Memory.write, hx, Memory.wfFrom, ha]
  | lo, (b, v) :: m, ha, hm => by
    have hm' := (Memory.wfFrom_cons ..).1 hm
    unfold Memory.write
    split
    · split
      · exact hm
      · next hx => exact (Memory.wfFrom_cons ..).2 ⟨ha, hx, (Memory.wfFrom_cons ..).2 ⟨by omega, hm'.2⟩⟩
    · split
      · split
        · exact Memory.wfFrom_mono (by omega) hm'.2.2
        · next hab hx => subst hab; exact (Memory.wfFrom_cons ..).2 ⟨ha, hx, hm'.2.2⟩
      · exact (Memory.wfFrom_cons ..).2
          ⟨hm'.1, hm'.2.1, Memory.wfFrom_write a x (b + 1) m (by omega) hm'.2.2⟩

/-- A write keeps the canonical form. -/
theorem Memory.wf_write {m : Memory} (a : Nat) (x : Byte) (h : Memory.wf m = true) : Memory.wf (Memory.write m a x) = true :=
  Memory.wfFrom_write a x 0 m (Nat.zero_le a) h

theorem Memory.wfFrom_ofBytes : ∀ (a : Nat) (bs : List Byte), Memory.wfFrom a (Memory.ofBytes a bs) = true
  | _, [] => rfl
  | a, x :: bs => by
    unfold Memory.ofBytes
    split
    · exact Memory.wfFrom_mono (Nat.le_succ a) (Memory.wfFrom_ofBytes (a + 1) bs)
    · next hx => exact (Memory.wfFrom_cons ..).2 ⟨Nat.le_refl a, hx, Memory.wfFrom_ofBytes (a + 1) bs⟩

/-- A source written as a whole is in canonical form. -/
theorem Memory.wf_ofBytes (bs : List Byte) : Memory.wf (Memory.ofBytes 0 bs) = true := Memory.wfFrom_ofBytes 0 bs

/-- Below the lowest index nothing is listed. -/
theorem Memory.read_below {a : Nat} : ∀ {lo : Nat} {m : Memory}, a < lo → Memory.wfFrom lo m = true →
    Memory.read m a = srcUnwritten
  | _, [], _, _ => rfl
  | lo, (b, v) :: m, ha, hm => by
    rw [Memory.wfFrom_cons] at hm
    rw [Memory.read, if_neg (by omega)]
    exact Memory.read_below (lo := b + 1) (by omega) hm.2.2

theorem Memory.read_writeFrom (a : Nat) (x : Byte) (c : Nat) :
    ∀ (lo : Nat) (m : Memory), Memory.wfFrom lo m = true →
      Memory.read (Memory.write m a x) c = if c = a then x else Memory.read m c
  | _, [], _ => by
    unfold Memory.write
    split
    · next hx => split <;> simp [Memory.read, hx]
    · rcases eq_or_ne c a with rfl | hc
      · simp [Memory.read]
      · simp [Memory.read, hc, Ne.symm hc]
  | lo, (b, v) :: m, hm => by
    have hm' := (Memory.wfFrom_cons ..).1 hm
    unfold Memory.write
    by_cases hab : a < b
    · rw [if_pos hab]
      by_cases hx : x = srcUnwritten
      · rw [if_pos hx]
        split
        · next hc =>
          subst hc; rw [hx]
          exact Memory.read_below (lo := b) hab ((Memory.wfFrom_cons ..).2 ⟨Nat.le_refl b, hm'.2⟩)
        · rfl
      · rw [if_neg hx]
        rcases eq_or_ne c a with rfl | hc
        · simp [Memory.read]
        · simp [Memory.read, hc, Ne.symm hc]
    · rw [if_neg hab]
      by_cases hae : a = b
      · rw [if_pos hae]
        subst hae
        by_cases hx : x = srcUnwritten
        · rw [if_pos hx]
          by_cases hc : c = a
          · rw [if_pos hc, hc, hx]
            exact Memory.read_below (Nat.lt_succ_self a) hm'.2.2
          · rw [if_neg hc]
            simp [Memory.read, Ne.symm hc]
        · rw [if_neg hx]
          by_cases hc : c = a
          · simp [Memory.read, hc]
          · simp [Memory.read, hc, Ne.symm hc]
      · rw [if_neg hae]
        by_cases hbc : b = c
        · subst hbc; simp [Memory.read, Ne.symm hae]
        · simp only [Memory.read, if_neg hbc]
          exact Memory.read_writeFrom a x c (b + 1) m hm'.2.2

/-- A read after a write: the byte written at its index, the old byte everywhere else. -/
theorem Memory.read_write {m : Memory} (a : Nat) (x : Byte) (c : Nat) (h : Memory.wf m = true) :
    Memory.read (Memory.write m a x) c = if c = a then x else Memory.read m c :=
  Memory.read_writeFrom a x c 0 m h

/-- What a source written as a whole reads as. -/
theorem Memory.read_ofBytes (c : Nat) : ∀ (a : Nat) (bs : List Byte), a ≤ c →
    Memory.read (Memory.ofBytes a bs) c = bs.getD (c - a) srcUnwritten
  | _, [], _ => rfl
  | a, x :: bs, ha => by
    by_cases hc : c = a
    · subst hc
      unfold Memory.ofBytes
      split
      · next hx => rw [Memory.read_below (Nat.lt_succ_self c) (Memory.wfFrom_ofBytes ..)]; simp [hx]
      · simp [Memory.read]
    · have e : c - a = c - (a + 1) + 1 := by omega
      have ih := Memory.read_ofBytes c (a + 1) bs (by omega)
      unfold Memory.ofBytes
      split
      · rw [ih, e, List.getD_cons_succ]
      · rw [Memory.read, if_neg (Ne.symm hc), ih, e, List.getD_cons_succ]

end Sys2Proof.Machine
end

