-- ==== Sys2Proof/Laws/PerInstr.lean ====
section
/-! SUPPORT. One family of lemmas, one for each instruction: the code of a well-formed instruction decodes to it
(spec/30_encoding.md R80 to R90), with the lemmas on the fields of a code it rests on. -/

namespace Sys2Proof

theorem toNat_cmdWord (op arg : Byte) : (cmdWord op arg).toNat = arg.toNat * 256 + op.toNat := by
  simp only [cmdWord, BitVec.toNat_append, BitVec.toNat_ofNat]
  rw [← Nat.shiftLeft_add_eq_or_of_lt op.isLt, Nat.shiftLeft_eq]
  simp

theorem toNat_opField (w : Word) : (opField w).toNat = w.toNat % 256 := by
  simp [opField]

theorem toNat_argField (w : Word) : (argField w).toNat = w.toNat / 256 % 256 := by
  simp [argField, Nat.shiftRight_eq_div_pow]

theorem toNat_reservedField (w : Word) : (reservedField w).toNat = w.toNat / 65536 := by
  have := w.isLt
  simp [reservedField, Nat.shiftRight_eq_div_pow]
  omega

/-- A command word has the fields it was built from, and reserved bits 0. -/
theorem fields_cmdWord (op arg : Byte) :
    reservedField (cmdWord op arg) = 0#16 ∧ opField (cmdWord op arg) = op ∧ argField (cmdWord op arg) = arg := by
  have h1 := op.isLt
  have h2 := arg.isLt
  refine ⟨?_, ?_, ?_⟩ <;> apply BitVec.eq_of_toNat_eq
  · rw [toNat_reservedField, toNat_cmdWord, BitVec.toNat_ofNat]; omega
  · rw [toNat_opField, toNat_cmdWord]; omega
  · rw [toNat_argField, toNat_cmdWord]; omega

theorem decodeCmd_cmdWord (op arg : Byte) : decodeCmd (cmdWord op arg) = decodeOpcode op arg := by
  obtain ⟨h1, h2, h3⟩ := fields_cmdWord op arg
  rw [decodeCmd, h1, h2, h3, if_pos rfl]

/-- A word is its fields. -/
theorem cmdWord_fields (w : Word) (h : reservedField w = 0#16) : cmdWord (opField w) (argField w) = w := by
  have hr := congrArg BitVec.toNat h
  rw [toNat_reservedField, BitVec.toNat_ofNat] at hr
  apply BitVec.eq_of_toNat_eq
  rw [toNat_cmdWord, toNat_opField, toNat_argField]
  omega

theorem fields_symbol (r s : Fin 16) : runField (symbol r s) = r ∧ sizeField (symbol r s) = s := by
  revert r s; decide

theorem symbol_fields (y : Byte) : symbol (runField y) (sizeField y) = y := by revert y; decide

theorem fields_escWord (x : Byte) : (escWord x).extractLsb' 8 8 = 0xFF#8 ∧ (escWord x).extractLsb' 0 8 = x := by
  revert x; decide

theorem toNat_ofNat_count {n : Nat} (h : n ≤ nbitsMax) : (BitVec.ofNat 8 n).toNat = n := by
  unfold nbitsMax at h
  rw [BitVec.toNat_ofNat]
  omega

namespace Laws.RoundTrip

/-- The code of a well-formed instruction decodes to the instruction. -/
def Statement (i : Instr) : Prop := i.wf = true → decode (encode i) = .ok i

theorem nop : Statement .nop := fun _ => decodeCmd_cmdWord _ _
theorem reset : Statement .reset := fun _ => decodeCmd_cmdWord _ _
theorem clear : Statement .clear := fun _ => decodeCmd_cmdWord _ _
theorem append (x : Byte) : Statement (.append x) := fun _ => decodeCmd_cmdWord _ _

theorem nextbits (n : Nat) : Statement (.nextbits n) := fun h => by
  simp only [Instr.wf, Bool.and_eq_true, decide_eq_true_eq] at h
  refine (decodeCmd_cmdWord _ _).trans ?_
  simp [decodeOpcode, countArgument, toNat_ofNat_count h.2, h]

theorem backbits (n : Nat) : Statement (.backbits n) := fun h => by
  simp only [Instr.wf, decide_eq_true_eq] at h
  refine (decodeCmd_cmdWord _ _).trans ?_
  simp [decodeOpcode, countArgument, toNat_ofNat_count h, h]

theorem align : Statement .align := fun _ => decodeCmd_cmdWord _ _
theorem loadTable (sel : Fin 8) : Statement (.loadTable sel) := fun _ =>
  (decodeCmd_cmdWord _ _).trans (by revert sel; decide)
theorem decodeSym (sel : Fin 8) : Statement (.decodeSym sel) := fun _ =>
  (decodeCmd_cmdWord _ _).trans (by revert sel; decide)
theorem refill : Statement .refill := fun _ => decodeCmd_cmdWord _ _
theorem decodeBlock (c : Fin 4) : Statement (.decodeBlock c) := fun _ =>
  (decodeCmd_cmdWord _ _).trans (by revert c; decide)
theorem startScan : Statement .startScan := fun _ => decodeCmd_cmdWord _ _
theorem run : Statement .run := fun _ => decodeCmd_cmdWord _ _
theorem predReset : Statement .predReset := fun _ => decodeCmd_cmdWord _ _
theorem resync : Statement .resync := fun _ => decodeCmd_cmdWord _ _
theorem eob : Statement .eob := fun _ => rfl
theorem zrl : Statement .zrl := fun _ => rfl
theorem runsize (r s : Fin 16) : Statement (.runsize r s) := by unfold Statement; revert r s; decide
theorem acrsvd (r : Fin 16) : Statement (.acrsvd r) := by unfold Statement; revert r; decide
theorem dcsize (s : Fin 16) : Statement (.dcsize s) := by unfold Statement; revert s; decide
theorem dcrsvd (sym : Byte) : Statement (.dcrsvd sym) := by unfold Statement; revert sym; decide
theorem stuff : Statement .stuff := fun _ => rfl
theorem eoi : Statement .eoi := fun _ => rfl
theorem marker (x : Byte) : Statement (.marker x) := by unfold Statement; revert x; decide
theorem badesc : Statement .badesc := fun _ => rfl

end Laws.RoundTrip
end Sys2Proof
end

