-- ==== Sys2Proof/Laws/Command.lean ====
section
/-! SUPPORT. Command words and the codes a step fetches: which words are illegal (spec/30_encoding.md R83), what FAULT does to a
command (spec/60_exceptions.md R273), that a stream code at its unit answers a next state, and the placed codes. -/

namespace Sys2Proof.Machine

/-- The opcodes and arguments that are illegal (R83). -/
theorem decodeOpcode_cases (o a : Byte) (op arg : Nat) (ho : o.toNat = op) (ha : a.toNat = arg) :
    ((0x0F ≤ op ∨ (op = 0x04 ∧ (arg = 0 ∨ 25 < arg)) ∨ (op = 0x05 ∧ 25 < arg) ∨
      ((op = 0x07 ∨ op = 0x08) ∧ 7 < arg) ∨ (op = 0x0A ∧ 3 < arg) ∨
      ((op < 0x03 ∨ op = 0x06 ∨ op = 0x09 ∨ (0x0B ≤ op ∧ op ≤ 0x0E)) ∧ arg ≠ 0)) ∧ ∃ r, decodeOpcode o a = .error r) ∨
    (¬ (0x0F ≤ op ∨ (op = 0x04 ∧ (arg = 0 ∨ 25 < arg)) ∨ (op = 0x05 ∧ 25 < arg) ∨
      ((op = 0x07 ∨ op = 0x08) ∧ 7 < arg) ∨ (op = 0x0A ∧ 3 < arg) ∨
      ((op < 0x03 ∨ op = 0x06 ∨ op = 0x09 ∨ (0x0B ≤ op ∧ op ≤ 0x0E)) ∧ arg ≠ 0)) ∧ ∃ i, decodeOpcode o a = .ok i) := by
  have harg0 : a = 0#8 ↔ arg = 0 := by
    rw [← ha]
    constructor
    · intro h; rw [h]; rfl
    · intro h; exact BitVec.eq_of_toNat_eq h
  unfold decodeOpcode
  simp only [noArgument, selectorArgument, channelArgument, countArgument, ho, ha, harg0, nbitsMax]
  split
  all_goals first
    | (split
       · next h => exact .inr ⟨by omega, _, rfl⟩
       · next h => exact .inl ⟨by omega, _, rfl⟩)
    | exact .inr ⟨by omega, _, rfl⟩
    | (refine .inl ⟨.inl ?_, _, rfl⟩
       rcases Nat.lt_or_ge op 15 with h | h
       · interval_cases op <;> simp_all
       · exact h)

/-- A placed symbol is the one decoded next, its one-bit codeword consumed. -/
theorem decode_placed (sel : Fin 8) (sym : Byte) (u : Activity) (s : State) :
    decodeSymbol sel (placeSymbol sel sym u s) = .ok sym (advance 1 (placeSymbol sel sym u s)) := by
  have : (placeSymbol sel sym u s).tbl[sel] = oneCodeTable s.params.aryLog2 sym := by
    simp [placeSymbol, setTable, setCursor]
  have hc : codesOk [{ code := 0, len := 1, sym := sym }] := by
    refine ⟨by simp [nSymMax], ?_, by simp⟩
    intro e he
    simp only [List.mem_singleton] at he
    subst he
    simp [entryOk, lenMax]
  refine (decodeSymbol_match (e := { code := 0, len := 1, sym := sym }) (by rw [this]; rfl) (by rw [this]; exact hc)
      (by rw [this]; simp [oneCodeTable]) ?_)
  exact ⟨_, rfl⟩

/-- Adding less than `2^32` to a word gives another word. -/
theorem ne_succ (x : Word) (k : Nat) (h1 : 0 < k) (h2 : k < 2 ^ 32) : x ≠ x + BitVec.ofNat 32 k := by
  intro h
  have := congrArg BitVec.toNat h
  rw [BitVec.toNat_add, BitVec.toNat_ofNat] at this
  have := x.isLt
  omega

/-- A placed pair is the two source bytes at `SRC_POS`; the others stay. -/
theorem placeEscape_byte (v : BitVec 16) (s : State) (hs : Memory.wf s.src = true) (j : Word) :
    srcByte (placeEscape v s) j =
      if j = s.srcPos then v.extractLsb' 8 8 else if j = s.srcPos + 1#32 then v.extractLsb' 0 8 else srcByte s j := by
  have hne : s.srcPos.toNat ≠ (s.srcPos + 1#32).toNat := fun h => ne_succ s.srcPos 1 (by omega) (by omega) (BitVec.eq_of_toNat_eq h)
  have hw := Memory.wf_write s.srcPos.toNat (v.extractLsb' 8 8) hs
  simp only [srcByte, placeEscape]
  rw [Memory.read_write _ _ _ hw, Memory.read_write _ _ _ hs]
  by_cases h0 : j = s.srcPos
  · subst h0; rw [if_neg hne, if_pos rfl, if_pos rfl]
  by_cases h1 : j = s.srcPos + 1#32
  · subst h1; rw [if_pos rfl, if_neg h0, if_pos rfl]
  · rw [if_neg fun h => h1 (BitVec.eq_of_toNat_eq h), if_neg fun h => h0 (BitVec.eq_of_toNat_eq h), if_neg h0, if_neg h1]

/-- In FAULT every command but RESET is ignored (R273). -/
theorem exec_fault {i : Instr} (hi : isCommand i = true) (hr : i ≠ .reset) {s : State} (h : s.mode = .fault) : exec i s = .next s := by
  cases i <;> simp only [isCommand, Bool.false_eq_true] at hi <;>
    simp only [exec, execNop, execReset, execClear, execAppend, execNextbits, execBackbits, execAlign, execLoadTable,
      execDecodeSym, execRefill, execDecodeBlock, execStartScan, execRun, execPredReset, execResync]
  case reset => exact absurd rfl hr
  all_goals exact command_fault h

/-- What a command word decodes to is a command; only `0x00000001` is RESET. -/
theorem decodeCmd_command {w : Word} {i : Instr} (h : decodeCmd w = .ok i) : isCommand i = true ∧ (i = .reset → w = 0x00000001#32) := by
  unfold decodeCmd at h
  split at h
  · next hres =>
    have hw := cmdWord_fields w hres
    have hop : BitVec.ofNat 8 (opField w).toNat = opField w := by simp
    unfold decodeOpcode at h
    split at h
    all_goals first
      | (simp only [noArgument, selectorArgument, channelArgument, countArgument] at h
         split at h
         · next hn he =>
           simp only [Except.ok.injEq] at h
           subst h
           refine ⟨rfl, fun hr => ?_⟩
           first | (cases hr; done) | (rw [← hw, he, ← hop, hn]; rfl)
         · cases h)
      | (simp only [Except.ok.injEq] at h; subst h; exact ⟨rfl, fun hr => by cases hr⟩)
      | cases h
  · cases h

/-- A command word, legal or not, always answers a next state (R220, R303). -/
theorem executeWord_next (w : Word) (s : State) : ∃ t, executeWord w s = .next t := by
  unfold executeWord
  split
  · next i hd => exact exec_next_command (decodeCmd_command hd).1 _
  · exact command_next _ _ _

/-- `OP + (arg << 8)` is the command word of `OP` and `ARG` (R80, R94). -/
theorem opArg_eq_cmdWord (op arg : Byte) (o n : Nat) (ho : o = op.toNat) (hn : n = arg.toNat) :
    BitVec.ofNat 32 (o + n * 2 ^ 8) = cmdWord op arg := by
  subst ho hn
  apply BitVec.eq_of_toNat_eq
  have ha : (0#16 ++ arg).toNat = arg.toNat := by rw [BitVec.toNat_append]; simp
  have h1 := op.isLt
  have h2 := arg.isLt
  rw [cmdWord, BitVec.toNat_append, ha, BitVec.toNat_ofNat, ← Nat.shiftLeft_add_eq_or_of_lt h1, Nat.shiftLeft_eq]
  omega

/-- The script form of a well-formed command is the write of its encoding (R81, R94). -/
theorem commandAccess_encode {i : Instr} {w : Word} (hi : i.wf = true) (h : encode i = .cmd w) :
    commandAccess i = [writeAccess .cmd w] := by
  have small : ∀ n, n < 256 → n = (BitVec.ofNat 8 n).toNat := fun n hn => by
    rw [BitVec.toNat_ofNat]; exact (Nat.mod_eq_of_lt hn).symm
  cases i <;> simp only [encode, Code.cmd.injEq, reduceCtorEq] at h <;> subst h <;>
    refine congrArg (fun w => [writeAccess .cmd w]) (opArg_eq_cmdWord _ _ _ _ (by rfl) ?_)
  case nextbits n =>
    simp only [Instr.wf, Bool.and_eq_true, decide_eq_true_eq] at hi
    exact small n (Nat.lt_of_le_of_lt hi.2 (by decide))
  case backbits n =>
    simp only [Instr.wf, decide_eq_true_eq] at hi
    exact small n (Nat.lt_of_le_of_lt hi (by decide))
  case loadTable sel => exact small _ (by omega)
  case decodeSym sel => exact small _ (by omega)
  case decodeBlock c => exact small _ (by omega)
  all_goals rfl

/-- The word of RESET (R222). -/
theorem executeWord_reset (s : State) : executeWord 0x00000001#32 s = exec .reset s := rfl

/-- In FAULT every word but that of RESET is ignored (R273). -/
theorem executeWord_fault {s : State} (hm : s.mode = .fault) {w : Word} (hw : w ≠ 0x00000001#32) : executeWord w s = .next s := by
  unfold executeWord
  split
  · next i hd =>
    obtain ⟨h1, h2⟩ := decodeCmd_command hd
    exact exec_fault h1 (fun h => hw (h2 h)) hm
  · exact command_fault hm

/-- An AC symbol at its unit answers a next state. -/
theorem onAc_next {s : State} {c k} (hu : s.unit = .ac c k) (op) : ∃ t, onAc op s = .next t := by
  simp only [onAc, hu]; exact finish_next _

/-- A DC symbol at its unit answers a next state. -/
theorem onDc_next {s : State} {c} (hu : s.unit = .dc c) (op) : ∃ t, onDc op s = .next t := by
  simp only [onDc, hu]; exact finish_next _

/-- An escape pair at its unit answers a next state. -/
theorem onRefiller_next {s : State} {l} (hu : s.unit = .refill l) (b op) : ∃ t, onRefiller b op s = .next t := by
  simp only [onRefiller, hu]; exact finish_next _

/-- Every AC symbol at its unit answers a next state. -/
theorem exec_ac_next {s : State} {c k} (hu : s.unit = .ac c k) (y : Byte) : ∃ t, exec (decodeAc y) s = .next t := by
  unfold decodeAc acCases
  split
  · exact onAc_next hu _
  split
  · exact onAc_next hu _
  split
  · exact onAc_next hu _
  · exact onAc_next hu _

/-- Every DC symbol at its unit answers a next state. -/
theorem exec_dc_next {s : State} {c} (hu : s.unit = .dc c) (y : Byte) : ∃ t, exec (decodeDc y) s = .next t := by
  unfold decodeDc dcCases
  split
  · exact onDc_next hu _
  · exact onDc_next hu _

/-- Every escape pair at its unit answers a next state. -/
theorem exec_esc_next {s : State} {l} (hu : s.unit = .refill l) (y : Byte) : ∃ t, exec (decodeEscByte y) s = .next t := by
  unfold decodeEscByte escCases
  split
  · exact onRefiller_next hu _ _
  split
  · exact onRefiller_next hu _ _
  split
  · exact onRefiller_next hu _ _
  · exact onRefiller_next hu _ _

/-- A symbol fetch answers a next state when every symbol does. -/
theorem presentSymbol_next {f : Byte → Instr} {r : Res Byte} (h : ∀ y u, r = .ok y u → ∃ t, exec (f y) u = .next t) : ∃ t, presentSymbol f r = .next t := by
  unfold presentSymbol
  split
  · exact h _ _ rfl
  · exact ⟨_, rfl⟩

end Sys2Proof.Machine
end

