-- ==== Sys2Proof/Laws/Count.lean ====
section
/-! SUPPORT. The loop's coordinates count the blocks of `OUT` (spec/10_state.md R30), and runs of MCUs compose (spec/44_loop_commands.md
R224, R228). -/

namespace Sys2Proof.Machine

/-- RUN is admitted in ACTIVE (R220). -/
theorem exec_run_active {s : State} (h : s.mode = .active) : exec .run s = finish (runScan s) := by
  show command activeOnly runScan s = _
  unfold command
  rw [if_neg (by rw [h]; simp), if_pos (by rw [h]; rfl)]

/-- MCUs in two groups. -/
theorem runMcus_add : ∀ (n m : Nat) (s : State), runMcus (n + m) s = (runMcus n s).bind fun _ t => runMcus m t
  | 0, m, s => by rw [Nat.zero_add]; rfl
  | n + 1, m, s => by
    rw [Nat.add_right_comm]
    simp only [runMcus, Res.bind_assoc]
    congr 1
    funext _ t
    exact runMcus_add n m (nextMcu t)

/-- The block count of an MCU depends on the geometry only. -/
theorem blocksPerMcu_same {s t : State} (h1 : t.numCh = s.numCh) (h2 : t.chCfg = s.chCfg) : blocksPerMcu t = blocksPerMcu s ∧ ∀ c, blocksOf t c = blocksOf s c := by
  have : ∀ c, blocksOf t c = blocksOf s c := fun c => by simp only [blocksOf, h2]
  exact ⟨by simp only [blocksPerMcu, h1, funext this], this⟩

abbrev Counted (s : State) : Prop := s.out.length = loopCount s ∧ s.chIdx ≤ s.numCh.toNat ∧
  (s.chIdx = s.numCh.toNat → s.blkIdx = 0) ∧ (s.chIdx < s.numCh.toNat → s.blkIdx ≤ blocksOf s s.chIdx)

/-- The count depends on the geometry and the coordinates only. -/
theorem loopCount_congr {s t : State} (h1 : t.numCh = s.numCh) (h2 : t.chCfg = s.chCfg) (h3 : t.mcuIdx = s.mcuIdx) (h4 : t.chIdx = s.chIdx) (h5 : t.blkIdx = s.blkIdx) :
    loopCount t = loopCount s := by
  obtain ⟨h6, h7⟩ := blocksPerMcu_same h1 h2
  unfold loopCount
  rw [h3, h4, h5, h6, funext h7]

/-- The loop keeps the count, faults included. -/
theorem runLoop_counted : ∀ (n : Nat) (s : State), Counted s → (runLoop n s).Sat (fun _ t => t.out.length = loopCount t) (fun _ t => t.out.length = loopCount t)
  | 0, s, h => h.1
  | n + 1, s, ⟨h1, h2, h3, h4⟩ => by
    unfold runLoop
    split
    · next hlt =>
      split
      · next hc =>
        refine runLoop_counted n _ ⟨?_, Nat.zero_le _, fun _ => rfl, fun _ => Nat.zero_le _⟩
        have hce : s.chIdx = s.numCh.toNat := by omega
        show s.out.length = (s.mcuIdx + 1#32).toNat * blocksPerMcu s + 0 + 0
        rw [h1, mcuIdx_add_one hlt]
        unfold loopCount
        rw [h3 hce, hce, show ((List.range s.numCh.toNat).map (blocksOf s)).sum = blocksPerMcu s from rfl, Nat.succ_mul]
      · next hc =>
        split
        · next hb =>
          refine runLoop_counted n _ ⟨?_, by show s.chIdx + 1 ≤ s.numCh.toNat; omega, fun _ => rfl, fun _ => Nat.zero_le _⟩
          show s.out.length = s.mcuIdx.toNat * blocksPerMcu s + ((List.range (s.chIdx + 1)).map (blocksOf s)).sum + 0
          have := h4 (by omega)
          rw [h1]
          unfold loopCount
          rw [List.range_succ, List.map_append, List.sum_append]
          simp
          omega
        · next hb =>
          refine Res.Sat.bind (Q := fun _ t => Counted t) ((blockStep_frame s).mono ?_ ?_) (fun _ t ht => runLoop_counted n t ht)
          · rintro - t ⟨u, hu, rfl, -⟩
            have hu' : u.numCh = s.numCh ∧ u.chCfg = s.chCfg ∧ u.mcuIdx = s.mcuIdx ∧ u.chIdx = s.chIdx ∧ u.blkIdx = s.blkIdx ∧ u.out = s.out := by rw [hu]; simp
            obtain ⟨g1, g2, g3, g4, g5, g6⟩ := hu'
            have hbk := (blocksPerMcu_same g1 g2).2
            refine ⟨?_, by show u.chIdx ≤ u.numCh.toNat; rw [g1, g4]; exact h2, ?_, ?_⟩
            · show (u.out ++ [u.coef]).length = loopCount (appendBlock u)
              have : loopCount (appendBlock u) = loopCount s + 1 := by
                have := loopCount_congr g1 g2 g3 g4 g5
                rw [← this]; rfl
              rw [this, g6, List.length_append, h1]; rfl
            · intro h; exfalso
              have : u.chIdx = u.numCh.toNat := h
              rw [g1, g4] at this; omega
            · intro _
              show u.blkIdx + 1 ≤ blocksOf u u.chIdx
              rw [hbk, g4, g5]; omega
          · rintro e t ⟨hu, -⟩
            have hu' : t.numCh = s.numCh ∧ t.chCfg = s.chCfg ∧ t.mcuIdx = s.mcuIdx ∧ t.chIdx = s.chIdx ∧ t.blkIdx = s.blkIdx ∧ t.out = s.out := by rw [hu]; simp
            obtain ⟨g1, g2, g3, g4, g5, g6⟩ := hu'
            rw [g6, loopCount_congr g1 g2 g3 g4 g5]; exact h1
    · exact h1

end Sys2Proof.Machine
end

