-- ==== Sys2Proof/Laws/Frame.lean ====
section
/-! SUPPORT. The frame of every instruction: what it leaves unchanged when `exec` answers a next state, a fault entry
included (spec/10_state.md R41, spec/60_exceptions.md R270, R271). -/

namespace Sys2Proof.Machine

/-- What instruction `i` leaves unchanged between `s` and `t`: the parameters, the source and the outside's own state; the
configuration registers; the elements it is not named as a writer of. -/
def Keeps (i : Instr) (s t : State) : Prop :=
    t.params = s.params ∧ t.src = s.src ∧ t.script = s.script ∧ t.lastRead = s.lastRead ∧
      (writesPred i = false → t.pred = s.pred) ∧
      (writesCoef i = false → t.coef = s.coef) ∧
      (readsSource i = false → t.srcPos = s.srcPos ∧ (s.eoe = false → t.eoe = false)) ∧
      (i ≠ .startScan → i ≠ .resync → i ≠ .refill → i ≠ .run → s.eoe = true → t.eoe = true) ∧
      (∀ sel : Fin 8, i ≠ .loadTable sel → t.tbl[sel] = s.tbl[sel]) ∧
      (i ≠ .run → i ≠ .startScan → t.out = s.out ∧ t.outCount = s.outCount ∧ t.mcuIdx = s.mcuIdx ∧
        t.chIdx = s.chIdx ∧ t.blkIdx = s.blkIdx ∧ (t.mode = s.mode ∨ t.mode = .fault)) ∧
      t.mcuCount = s.mcuCount ∧ t.mcuStop = s.mcuStop ∧ t.numCh = s.numCh ∧ t.chCfg = s.chCfg ∧ t.srcLen = s.srcLen ∧
      t.tblCnt = s.tblCnt ∧ t.tblSym = s.tblSym ∧
      (writesResult i = false → t.result = s.result)

theorem Keeps.refl (i : Instr) (s : State) : Keeps i s s := by simp [Keeps]

theorem Keeps.raise {i : Instr} {s t : State} (h : Keeps i s t) (e : Err) : Keeps i s (raise e t) := by
  obtain ⟨h1, h2, h3, h4, h5, h6, h7, h7', h8, h9, h10⟩ := h
  exact ⟨h1, h2, h3, h4, h5, h6, h7, h7', h8, fun a b => ⟨(h9 a b).1, (h9 a b).2.1, (h9 a b).2.2.1, (h9 a b).2.2.2.1, (h9 a b).2.2.2.2.1, .inr rfl⟩, h10⟩

theorem Keeps.eoe {i : Instr} {s t : State} (h : Keeps i s t) :
    i ≠ .startScan → i ≠ .resync → i ≠ .refill → i ≠ .run → s.eoe = true → t.eoe = true := h.2.2.2.2.2.2.2.1

/-- What the effect of an instruction must show: the frame either way; on success no FAULT; on a fault `RESULT` as before. -/
abbrev EffectFrame (i : Instr) (s : State) (r : Res Unit) : Prop :=
  r.Sat (fun _ t => Keeps i s t ∧ (s.mode ≠ .fault → t.mode ≠ .fault)) (fun _ t => Keeps i s t ∧ t.result = s.result)

/-- What an instruction then shows: the frame; where it ends in FAULT, a fault entry, with `RESULT` as before. -/
abbrev ExecFrame (i : Instr) (s t : State) : Prop :=
  Keeps i s t ∧ (s.mode ≠ .fault → t.mode = .fault → (∃ e u, t = raise e u) ∧ t.result = s.result)

theorem finish_frame {i : Instr} {s t : State} {r : Res Unit} (hr : EffectFrame i s r) (ht : finish r = .next t) : ExecFrame i s t := by
  rcases finish_cases ht with rfl | ⟨e, u, rfl, rfl⟩
  · exact ⟨hr.1, fun h1 h2 => absurd h2 (hr.2 h1)⟩
  · exact ⟨hr.1.raise e, fun _ _ => ⟨⟨e, u, rfl⟩, hr.2⟩⟩

theorem command_frame {i : Instr} {s t : State} {ok : Mode → Bool} {effect : State → Res Unit} 
    (ht : command ok effect s = .next t) (hr : EffectFrame i s (effect s)) : ExecFrame i s t := by
  rcases command_cases ht with ⟨h, rfl⟩ | ⟨-, -, rfl⟩ | ⟨hm, -, hf⟩
  · exact ⟨Keeps.refl _ _, fun h' => absurd h h'⟩
  · exact ⟨(Keeps.refl _ _).raise _, fun _ _ => ⟨⟨_, _, rfl⟩, rfl⟩⟩
  · exact finish_frame hr hf

/-- The frame of every instruction but RESET. -/
theorem exec_frame {i : Instr} (hi : i ≠ .reset) {s t : State} (ht : exec i s = .next t) : ExecFrame i s t := by
  cases i <;> simp only [exec, execNop, execReset, execClear, execAppend, execNextbits, execBackbits, execAlign, execLoadTable,
      execDecodeSym, execRefill, execDecodeBlock, execStartScan, execRun, execPredReset, execResync, execEob, execZrl, execRunsize, execAcrsvd, execDcsize, execDcrsvd, execStuff, execEoi, execMarker, execBadesc] at ht
  case reset => exact absurd rfl hi
  case nop => refine command_frame ht ?_; exact ⟨Keeps.refl _ _, id⟩
  case clear => refine command_frame ht ?_; exact ⟨by simp [Keeps, clearCursor, emptyCursor], id⟩
  case append x =>
    refine command_frame ht ?_
    rcases append_cases [x] s with ⟨-, ha⟩ | ⟨-, ha⟩ <;> rw [ha]
    · exact ⟨by simp [Keeps], id⟩
    · exact ⟨Keeps.refl _ _, rfl⟩
  case nextbits n =>
    refine command_frame ht ?_
    split
    · by_cases hn : n ≤ avail s
      · rw [nextBits_ok hn]; exact ⟨by simp [Keeps, setResult, writesResult], id⟩
      · rw [nextBits_raised (by omega)]; exact ⟨Keeps.refl _ _, rfl⟩
    · exact ⟨Keeps.refl _ _, rfl⟩
  case backbits n =>
    refine command_frame ht ?_
    split
    · unfold backBits; split
      · exact ⟨by simp [Keeps], id⟩
      · exact ⟨Keeps.refl _ _, rfl⟩
    · exact ⟨Keeps.refl _ _, rfl⟩
  case align => refine command_frame ht ?_; exact ⟨by simp [Keeps, alignCursor], id⟩
  case loadTable sel =>
    refine command_frame ht ?_
    have key : ∀ x, Keeps (.loadTable sel) s (setTable sel x s) := by
      intro x
      refine ⟨rfl, rfl, rfl, rfl, fun _ => rfl, fun _ => rfl, fun _ => ⟨rfl, id⟩, fun _ _ _ _ => id, ?_, fun _ _ => ⟨rfl, rfl, rfl, rfl, rfl, .inl rfl⟩, rfl, rfl, rfl, rfl, rfl, rfl, rfl, fun _ => rfl⟩
      intro sel' hne
      show (s.tbl.set sel x)[sel'] = _
      have : sel.val ≠ sel'.val := fun h => hne (by rw [Fin.ext h])
      rw [Fin.getElem_fin, Vector.getElem_set, if_neg this]; rfl
    unfold loadTable
    split
    · split
      · exact ⟨key _, id⟩
      · exact ⟨key _, rfl⟩
    · exact ⟨key _, rfl⟩
  case decodeSym sel =>
    refine command_frame ht ?_
    have hd := decodeSymbol_sat sel s
    cases hr : decodeSymbol sel s with
    | ok y u => rw [hr] at hd; obtain ⟨e, -, -, rfl, -⟩ := hd; exact ⟨by simp [Keeps, setResult, writesResult], id⟩
    | raised e u => rw [hr] at hd; obtain ⟨rfl, -⟩ := hd; exact ⟨Keeps.refl _ _, rfl⟩
  case refill =>
    refine command_frame ht ((refill_frame s).mono ?_ ?_)
    · rintro - u ⟨h, -⟩; rw [h]; exact ⟨by simp [Keeps, readsSource], id⟩
    · rintro e u ⟨h, -⟩; rw [h]; exact ⟨by simp [Keeps, readsSource], rfl⟩
  case decodeBlock c =>
    refine command_frame ht ((decodeBlock_sat c s).mono ?_ ?_)
    · rintro - u ⟨m, v, coef, rfl, -⟩; exact ⟨by simp [Keeps, writesPred, writesCoef], id⟩
    · rintro e u (⟨-, -, rfl⟩ | ⟨-, -, m, v, coef, rfl, -⟩)
      · exact ⟨Keeps.refl _ _, rfl⟩
      · exact ⟨by simp [Keeps, writesPred, writesCoef], rfl⟩
  case startScan =>
    refine command_frame ht ?_
    unfold startScan
    split
    · exact ⟨by simp [Keeps, beginScan, clearCursor, emptyCursor, zeroPred, writesPred, setCursor], fun _ => by simp [beginScan]⟩
    · exact ⟨Keeps.refl _ _, rfl⟩
  case run =>
    refine command_frame ht ?_
    unfold runScan
    have key : ∀ n u, Keeps .run s u → u.mode = s.mode → u.result = s.result →
      (runLoop n u).Sat (fun _ t => Keeps .run s t ∧ t.mode = s.mode ∧ t.result = s.result) (fun _ t => Keeps .run s t ∧ t.result = s.result) := by
      intro n
      induction n with
      | zero => exact fun u h1 h2 h3 => ⟨h1, h2, h3⟩
      | succ n ih =>
        intro u h1 h2 h3
        unfold runLoop
        split
        · split
          · exact ih _ (by simpa [Keeps, nextMcu] using h1) h2 h3
          · split
            · exact ih _ (by simpa [Keeps, nextChannel] using h1) h2 h3
            · have hb := blockStep_frame u
              have htr : ∀ v, BlockFrame u v → Keeps .run s v ∧ v.mode = s.mode ∧ v.result = s.result := by
                intro v hv
                rw [hv]
                exact ⟨by simpa [Keeps, writesPred, writesCoef, readsSource] using h1, h2, h3⟩
              refine Res.Sat.bind (Q := fun _ t => Keeps .run s t ∧ t.mode = s.mode ∧ t.result = s.result) (hb.mono ?_ ?_) (fun _ v hv => ih v hv.1 hv.2.1 hv.2.2)
              · rintro - v ⟨w, hw, rfl, -⟩
                obtain ⟨g1, g2, g3⟩ := htr w hw
                exact ⟨by simpa [Keeps, appendBlock] using g1, g2, g3⟩
              · rintro e v ⟨hv, -⟩
                exact ⟨(htr v hv).1, (htr v hv).2.2⟩
        · exact ⟨h1, h2, h3⟩
    split
    · refine (key _ s (Keeps.refl _ _) rfl rfl).bind fun _ u ⟨h1, h2, h3⟩ => ?_
      refine ⟨?_, fun hm => ?_⟩
      · unfold endRun; split
        · simpa [Keeps] using h1
        · exact h1
      · unfold endRun; split
        · simp
        · rw [h2]; exact hm
    · exact ⟨Keeps.refl _ _, rfl⟩
  case predReset => refine command_frame ht ?_; exact ⟨by simp [Keeps, zeroPred, writesPred], id⟩
  case resync => refine command_frame ht ?_; exact ⟨by simp [Keeps, resyncCursor, emptyCursor], id⟩
  case eob =>
    unfold onAc at ht; split at ht
    · refine finish_frame ?_ ht; exact ⟨by simp [Keeps], id⟩
    all_goals cases ht
  case zrl =>
    unfold onAc at ht; split at ht
    · refine finish_frame ?_ ht
      unfold zrlOp; split
      · exact ⟨by simp [Keeps], id⟩
      · exact ⟨Keeps.refl _ _, rfl⟩
    all_goals cases ht
  case runsize R S =>
    unfold onAc at ht; split at ht
    · refine finish_frame ?_ ht
      unfold runsizeOp; beta_reduce; split
      · by_cases hn : S.val ≤ avail s
        · rw [nextBits_ok hn]; exact ⟨by simp [Keeps, setCoef, writesCoef], id⟩
        · rw [nextBits_raised (by omega)]; exact ⟨Keeps.refl _ _, rfl⟩
      · exact ⟨Keeps.refl _ _, rfl⟩
    all_goals cases ht
  case acrsvd R =>
    unfold onAc at ht; split at ht
    · refine finish_frame ?_ ht; exact ⟨Keeps.refl _ _, rfl⟩
    all_goals cases ht
  case dcsize S =>
    unfold onDc at ht; split at ht
    · refine finish_frame ?_ ht
      unfold dcsizeOp; beta_reduce; split
      · exact ⟨by simp [Keeps, storeDc, setCoef, writesCoef, writesPred], id⟩
      · by_cases hn : S.val ≤ avail s
        · rw [nextBits_ok hn]; exact ⟨by simp [Keeps, storeDc, setCoef, writesCoef, writesPred], id⟩
        · rw [nextBits_raised (by omega)]; exact ⟨Keeps.refl _ _, rfl⟩
    all_goals cases ht
  case dcrsvd y =>
    unfold onDc at ht; split at ht
    · refine finish_frame ?_ ht; exact ⟨Keeps.refl _ _, rfl⟩
    all_goals cases ht
  case stuff =>
    unfold onRefiller at ht; split at ht
    · refine finish_frame ?_ ht
      unfold stuffOp
      rcases append_one 0xFF#8 2 s with ⟨-, ha⟩ | ⟨-, ha⟩ <;> rw [ha]
      · exact ⟨by simp [Keeps, skipSource, readsSource], id⟩
      · exact ⟨by simp [Keeps, skipSource, readsSource], rfl⟩
    all_goals cases ht
  case eoi =>
    unfold onRefiller at ht; split at ht
    · refine finish_frame ?_ ht; exact ⟨by simp [Keeps, setEoe, readsSource], id⟩
    all_goals cases ht
  case marker x =>
    unfold onRefiller at ht; split at ht
    · refine finish_frame ?_ ht; exact ⟨by simp [Keeps, setEoe, readsSource], id⟩
    all_goals cases ht
  case badesc =>
    unfold onRefiller at ht; split at ht
    · refine finish_frame ?_ ht; exact ⟨Keeps.refl _ _, rfl⟩
    all_goals cases ht

/-! ### Who clears `EOE` -/

/-- `EOE` is 1 at the end, whether the operation fails or not. -/
abbrev EoeStays {α : Type} (r : Res α) : Prop := r.Sat (fun _ t => t.eoe = true) (fun _ t => t.eoe = true)

theorem decodeBlock_eoe {c : Fin 4} {s : State} (h : s.eoe = true) : EoeStays (decodeBlock c s) := by
  refine (decodeBlock_sat c s).mono ?_ ?_
  · rintro - t ⟨m, v, coef, rfl, -⟩; exact h
  · rintro e t (⟨-, -, rfl⟩ | ⟨-, -, m, v, coef, rfl, -⟩) <;> exact h

theorem runLoop_eoe : ∀ (n : Nat) {s : State}, s.eoe = true → EoeStays (runLoop n s)
  | 0, _, h => h
  | n + 1, s, h => by
    unfold runLoop
    split
    · split
      · exact runLoop_eoe n h
      · split
        · exact runLoop_eoe n h
        · refine Res.Sat.bind (Q := fun _ t => t.eoe = true) ?_ fun _ t ht => runLoop_eoe n ht
          unfold blockStep
          rw [topUp_eoe h, Res.bind_ok]
          split
          · exact h
          · exact (decodeBlock_eoe h).bind fun _ t ht => ht
    · exact h

/-- Only RESET, START_SCAN and RESYNC clear `EOE` (R40). -/
theorem exec_eoe {i : Instr} (h1 : i ≠ .reset) (h2 : i ≠ .startScan) (h3 : i ≠ .resync) {s t : State} (h : s.eoe = true)
    (ht : exec i s = .next t) : t.eoe = true := by
  have hc : ∀ {ok : Mode → Bool} {effect : State → Res Unit}, EoeStays (effect s) → command ok effect s = .next t →
      t.eoe = true := by
    intro ok effect hs hx
    rcases command_cases hx with ⟨-, rfl⟩ | ⟨-, -, rfl⟩ | ⟨-, -, hf⟩
    · exact h
    · exact h
    · exact finish_sat (P := fun t => t.eoe = true) hs hf
  by_cases hf : i = .refill
  · subst hf; exact hc (by rw [refill_eoe h]; exact h) ht
  by_cases hr : i = .run
  · subst hr
    refine hc ?_ ht
    unfold runScan
    split
    · refine (runLoop_eoe _ h).bind fun _ u hu => ?_
      show (endRun u).eoe = true
      unfold endRun
      split <;> exact hu
    · exact h
  · exact (exec_frame h1 ht).1.eoe h2 h3 hf hr h

end Sys2Proof.Machine
end

