-- ==== Sys2Proof/Laws/Tree.lean ====
section
/-! SUPPORT. The lookup tree: what a node stands for (`TreeOk`), that inserting a legal list of codes never finds a taken slot
and builds a tree for exactly these codes (spec/41_huffman.md R145, R147), and how many nodes it takes (R146). -/

namespace Sys2Proof.Machine

/-! ### The children of a node -/

/-- The number of child slots. -/
def Slots.size : Slots → Nat
  | .nil => 0
  | .cons _ rest => 1 + Slots.size rest

@[simp] theorem Slots.size_set (x : Slot) : ∀ (ch : Slots) (i : Nat), (ch.set i x).size = ch.size
  | .nil, _ => rfl
  | .cons _ _, 0 => rfl
  | .cons _ rest, i + 1 => by simp [Slots.set, Slots.size, Slots.size_set x rest i]

@[simp] theorem Slots.size_fresh : ∀ n : Nat, (Slots.fresh n).size = n
  | 0 => rfl
  | n + 1 => by simp [Slots.fresh, Slots.size, Slots.size_fresh n]; omega

@[simp] theorem Slots.get_fresh : ∀ n i : Nat, (Slots.fresh n).get i = .null
  | 0, _ => rfl
  | _ + 1, 0 => rfl
  | n + 1, i + 1 => Slots.get_fresh n i

theorem Slots.get_set (x : Slot) : ∀ (ch : Slots) (i j : Nat), i < ch.size →
    (ch.set i x).get j = if j = i then x else ch.get j
  | .nil, _, _, h => by simp [Slots.size] at h
  | .cons _ _, 0, 0, _ => rfl
  | .cons _ _, 0, j + 1, _ => by simp [Slots.set, Slots.get]
  | .cons _ _, i + 1, 0, _ => by simp [Slots.set, Slots.get]
  | .cons _ rest, i + 1, j + 1, h => by
    simp only [Slots.set, Slots.get, Nat.add_right_cancel_iff]
    exact Slots.get_set x rest i j (by simp [Slots.size] at h; omega)

/-- A leaf goes into every slot of a range of slots that are all `Null`. -/
theorem fanOut_some (x : Slot) : ∀ (n i : Nat) (ch : Slots), i + n ≤ ch.size →
    (∀ j, i ≤ j → j < i + n → ch.get j = .null) →
    ∃ ch', fanOut x n i ch = some ch' ∧ ch'.size = ch.size ∧
      ∀ j, ch'.get j = if i ≤ j ∧ j < i + n then x else ch.get j
  | 0, i, ch, _, _ => ⟨ch, rfl, rfl, fun j => by rw [if_neg (by omega)]⟩
  | n + 1, i, ch, hs, hn => by
    obtain ⟨ch', h1, h2, h3⟩ := fanOut_some x n (i + 1) (ch.set i x) (by simp; omega) (fun j hj1 hj2 => by
      rw [Slots.get_set x ch i j (by omega), if_neg (by omega)]
      exact hn j (by omega) (by omega))
    refine ⟨ch', ?_, by simpa using h2, fun j => ?_⟩
    · rw [fanOut, if_pos (hn i (Nat.le_refl i) (by omega))]
      exact h1
    · rw [h3, Slots.get_set x ch i j (by omega)]
      by_cases hj : j = i
      · subst hj; simp
      · by_cases hr : i + 1 ≤ j ∧ j < i + 1 + n
        · rw [if_pos hr, if_pos (by omega)]
        · rw [if_neg hr, if_neg hj, if_neg (by omega)]

/-! ### Words below a node -/

/-- The slot index whose chunk begins with the given bits (fewer than a chunk). -/
theorem chunk_range {b : Nat} {R : List Bool} {r v i : Nat} (hr : r ≤ b) (hR : R = bitsOf r v) (hv : v < 2 ^ r) (hi : i < 2 ^ b) :
    R <+: bitsOf b i ↔ v * 2 ^ (b - r) ≤ i ∧ i < v * 2 ^ (b - r) + 2 ^ (b - r) := by
  obtain ⟨m, rfl⟩ : ∃ m, b = r + m := ⟨b - r, by omega⟩
  rw [Nat.add_sub_cancel_left, hR]
  have hq : i / 2 ^ m < 2 ^ r := by rw [Nat.div_lt_iff_lt_mul (Nat.two_pow_pos m), ← Nat.pow_add]; exact hi
  have key : bitsOf r v <+: bitsOf (r + m) i ↔ v = i / 2 ^ m := by
    rw [bitsOf_split]
    constructor
    · intro h
      have h1 := List.prefix_of_prefix_length_le h (List.prefix_append ..) (by simp)
      exact bitsOf_inj hv hq (h1.eq_of_length (by simp))
    · rintro rfl; exact List.prefix_append ..
  rw [key, eq_comm, Nat.div_eq_iff (Nat.two_pow_pos m)]
  have := Nat.two_pow_pos m
  omega

/-- Every bit string of a chunk's length is the chunk of one slot. -/
theorem exists_chunk : ∀ (w : List Bool), ∃ i < 2 ^ w.length, bitsOf w.length i = w
  | [] => ⟨0, by simp, rfl⟩
  | x :: w => by
    obtain ⟨i, hi, hw⟩ := exists_chunk w
    refine ⟨x.toNat * 2 ^ w.length + i, ?_, ?_⟩
    · have : x.toNat ≤ 1 := Bool.toNat_le x
      have : x.toNat * 2 ^ w.length ≤ 1 * 2 ^ w.length := Nat.mul_le_mul_right _ this
      simp only [List.length_cons, Nat.pow_succ]
      omega
    · rw [List.length_cons, Nat.add_comm, bitsOf_append 1 _ _ _ hi, hw]
      cases x <;> rfl

/-! ### What a node stands for -/

/-- Neither bit string begins the other. -/
abbrev apart (u v : List Bool) : Prop := ¬ u <+: v ∧ ¬ v <+: u

/-- A node at the end of the path `P`, at most `n` levels deep, over the codes `S`: a slot is `Null` when no codeword goes
through it or ends in it, a leaf when a codeword ends in it, a node when a longer codeword goes through it. -/
def TreeOk (b : Nat) (S : CodeEntry → Prop) : Nat → List Bool → Slots → Prop
  | 0, _, _ => False
  | n + 1, P, ch => ch.size = 2 ^ b ∧ ∀ i < 2 ^ b,
    match ch.get i with
    | .null => ∀ e, S e → apart (codeBits e) (P ++ bitsOf b i)
    | .leaf y l => ∃ e, S e ∧ e.sym = y ∧ e.len = l ∧ P.length < l ∧ codeBits e <+: P ++ bitsOf b i
    | .node c => (∃ e, S e ∧ P ++ bitsOf b i <+: codeBits e ∧ P.length + b < e.len) ∧
        TreeOk b S n (P ++ bitsOf b i) c

theorem apart_of_prefix {u v w : List Bool} (h : apart u v) (hw : v <+: w) : apart u w :=
  ⟨fun h1 => (List.prefix_or_prefix_of_prefix h1 hw).elim h.1 h.2, fun h1 => h.2 (hw.trans h1)⟩

/-- A new node stands for no codes. -/
theorem TreeOk.fresh {b : Nat} {S : CodeEntry → Prop} {n : Nat} {P : List Bool}
    (h : ∀ e, S e → apart (codeBits e) P) : TreeOk b S (n + 1) P (Slots.fresh (2 ^ b)) := by
  refine ⟨by simp, fun i _ => ?_⟩
  rw [Slots.get_fresh]
  exact fun e he => apart_of_prefix (h e he) (List.prefix_append ..)

/-- A subtree of other codes is not touched by a code that does not go through it. -/
theorem TreeOk.add_apart {b : Nat} {S : CodeEntry → Prop} {e : CodeEntry} : ∀ {n : Nat} {P : List Bool} {ch : Slots},
    TreeOk b S n P ch → apart (codeBits e) P → TreeOk b (fun x => S x ∨ x = e) n P ch
  | 0, _, _, h, _ => h
  | n + 1, P, ch, ⟨hs, h⟩, ha => by
    refine ⟨hs, fun i hi => ?_⟩
    have ha' : apart (codeBits e) (P ++ bitsOf b i) := apart_of_prefix ha (List.prefix_append ..)
    have hi' := h i hi
    revert hi'
    cases ch.get i with
    | null =>
      intro h1 x hx
      rcases hx with hx | rfl
      · exact h1 x hx
      · exact ha'
    | leaf y l => rintro ⟨x, hx, h2⟩; exact ⟨x, .inl hx, h2⟩
    | node c => rintro ⟨⟨x, hx, h2⟩, h3⟩; exact ⟨⟨x, .inl hx, h2⟩, h3.add_apart ha'⟩

/-- The bits of a codeword still to be placed. -/
theorem codeBits_rest {e : CodeEntry} {P R : List Bool} (h : codeBits e = P ++ R) :
    R = bitsOf R.length (e.code % 2 ^ R.length) := by
  have hl : e.len = P.length + R.length := by rw [← length_codeBits, h, List.length_append]
  rw [codeBits, hl, bitsOf_split] at h
  exact (List.append_inj h (by simp)).2.symm

/-- Inserting a codeword that is apart from all codes of the tree finds no taken slot, and the tree then stands for one
codeword more (R145, R147 (c)). -/
theorem insertCode_ok {b : Nat} (hb : 1 ≤ b) {S : CodeEntry → Prop} {e : CodeEntry}
    (hS : ∀ x, S x → apart (codeBits x) (codeBits e)) :
    ∀ (n levels : Nat) (P R : List Bool) (ch : Slots), TreeOk b S n P ch → codeBits e = P ++ R → 1 ≤ R.length →
      R.length ≤ levels → R.length ≤ n →
      ∃ ch', insertCode b e levels R.length ch = some ch' ∧ TreeOk b (fun x => S x ∨ x = e) n P ch'
  | 0, _, _, _, _, h, _, _, _, _ => h.elim
  | n + 1, 0, _, _, _, _, _, h1, h2, _ => by omega
  | n + 1, levels + 1, P, R, ch, ⟨hs, h⟩, he, hR1, hRl, hRn => by
    have hRb := codeBits_rest he
    have hcode : e.code % 2 ^ R.length < 2 ^ R.length := Nat.mod_lt _ (Nat.two_pow_pos _)
    unfold insertCode
    by_cases hlt : b < R.length
    · rw [if_pos hlt]
      -- the slot of the first `b` of the bits left
      have hidx : e.code / 2 ^ (R.length - b) % 2 ^ b < 2 ^ b := Nat.mod_lt _ (Nat.two_pow_pos _)
      generalize hi0 : e.code / 2 ^ (R.length - b) % 2 ^ b = i0 at *
      have hchunk : R.take b = bitsOf b i0 := by
        have hsplit : e.code % 2 ^ R.length / 2 ^ (R.length - b) = i0 := by
          rw [← hi0]
          conv_lhs => rw [show R.length = (R.length - b) + b by omega, Nat.add_sub_cancel, Nat.pow_add]
          rw [Nat.mod_mul_right_div_self]
        conv_lhs => rw [hRb, show R.length = b + (R.length - b) by omega, bitsOf_split]
        rw [Nat.add_sub_cancel' (by omega : b ≤ R.length), hsplit, List.take_left' (by simp)]
      have hsub : codeBits e = (P ++ bitsOf b i0) ++ R.drop b := by
        rw [he, List.append_assoc, ← hchunk, List.take_append_drop]
      have hdl : (R.drop b).length = R.length - b := by simp
      -- what is below that slot afterwards
      have hput : ∀ c : Slots, TreeOk b S n (P ++ bitsOf b i0) c →
          ∃ c', insertCode b e levels (R.length - b) c = some c' ∧
            TreeOk b (fun x => S x ∨ x = e) (n + 1) P (ch.set i0 (.node c')) := by
        intro c hc
        obtain ⟨c', h1, h2⟩ := insertCode_ok hb hS n levels (P ++ bitsOf b i0) (R.drop b) c hc hsub
          (by omega) (by omega) (by omega)
        rw [hdl] at h1
        refine ⟨c', h1, by simpa using hs, fun i hi => ?_⟩
        rw [Slots.get_set _ _ _ _ (by omega)]
        by_cases hii : i = i0
        · rw [if_pos hii, hii]
          refine ⟨⟨e, .inr rfl, hsub ▸ List.prefix_append .., ?_⟩, h2⟩
          rw [← length_codeBits, he, List.length_append]
          omega
        · rw [if_neg hii]
          have hap : apart (codeBits e) (P ++ bitsOf b i) := by
            have hne : bitsOf b i ≠ bitsOf b i0 := fun h => hii (bitsOf_inj hi hidx h)
            refine ⟨fun hx => hne ?_, fun hx => hne ?_⟩
            · have h1 := (hsub ▸ List.prefix_append .. : P ++ bitsOf b i0 <+: codeBits e).trans hx
              exact (List.append_cancel_left (h1.eq_of_length (by simp))).symm
            · have h1 : P ++ bitsOf b i0 <+: codeBits e := hsub ▸ List.prefix_append ..
              have h2 := List.prefix_of_prefix_length_le hx h1 (by simp)
              exact List.append_cancel_left (h2.eq_of_length (by simp))
          have hi' := h i hi
          revert hi'
          cases ch.get i with
          | null =>
            intro h1 x hx
            rcases hx with hx | rfl
            · exact h1 x hx
            · exact hap
          | leaf y l => rintro ⟨x, hx, h2⟩; exact ⟨x, .inl hx, h2⟩
          | node c => rintro ⟨⟨x, hx, h2⟩, h3⟩; exact ⟨⟨x, .inl hx, h2⟩, h3.add_apart hap⟩
      have hi' := h i0 hidx
      revert hi'
      cases ch.get i0 with
      | null =>
        intro h1
        have hn : ∃ k, n = k + 1 := ⟨n - 1, by omega⟩
        obtain ⟨k, rfl⟩ := hn
        obtain ⟨c', h2, h3⟩ := hput (Slots.fresh (2 ^ b)) (TreeOk.fresh h1)
        exact ⟨_, by simp [h2], h3⟩
      | leaf y l =>
        rintro ⟨x, hx, -, -, -, h2⟩
        have h3 : P ++ bitsOf b i0 <+: codeBits e := hsub ▸ List.prefix_append ..
        exact absurd (h2.trans h3) (hS x hx).1
      | node c =>
        rintro ⟨-, h1⟩
        obtain ⟨c', h2, h3⟩ := hput c h1
        exact ⟨_, by simp [h2], h3⟩
    · rw [if_neg hlt]
      have hle : R.length ≤ b := by omega
      generalize hv : e.code % 2 ^ R.length = v at *
      have hrange : ∀ i < 2 ^ b, codeBits e <+: P ++ bitsOf b i ↔
          v * 2 ^ (b - R.length) ≤ i ∧ i < v * 2 ^ (b - R.length) + 2 ^ (b - R.length) := by
        intro i hi
        rw [he, List.prefix_append_right_inj, ← chunk_range hle hRb hcode hi]
      have htop : v * 2 ^ (b - R.length) + 2 ^ (b - R.length) ≤ 2 ^ b := by
        have : (v + 1) * 2 ^ (b - R.length) ≤ 2 ^ R.length * 2 ^ (b - R.length) := Nat.mul_le_mul_right _ hcode
        rw [← Nat.pow_add, Nat.add_sub_cancel' hle, Nat.succ_mul] at this
        exact this
      obtain ⟨ch', h1, h2, h3⟩ := fanOut_some (.leaf e.sym e.len) (2 ^ (b - R.length)) (v * 2 ^ (b - R.length)) ch
        (by omega) (fun j hj1 hj2 => by
          have hp := (hrange j (by omega)).2 ⟨hj1, hj2⟩
          have hi' := h j (by omega)
          revert hi'
          cases ch.get j with
          | null => exact fun _ => rfl
          | leaf y l =>
            rintro ⟨x, hx, -, -, -, h2⟩
            exact absurd hp ((List.prefix_or_prefix_of_prefix h2 hp).elim (fun h => absurd h (hS x hx).1)
              (fun h => absurd h (hS x hx).2))
          | node c =>
            rintro ⟨⟨x, hx, h2, -⟩, -⟩
            exact absurd (hp.trans h2) (hS x hx).2)
      refine ⟨ch', h1, by omega, fun i hi => ?_⟩
      rw [h3]
      by_cases hin : v * 2 ^ (b - R.length) ≤ i ∧ i < v * 2 ^ (b - R.length) + 2 ^ (b - R.length)
      · rw [if_pos hin]
        refine ⟨e, .inr rfl, rfl, rfl, ?_, (hrange i hi).2 hin⟩
        rw [← length_codeBits, he, List.length_append]
        omega
      · rw [if_neg hin]
        have hap : apart (codeBits e) (P ++ bitsOf b i) := by
          have hno : ¬ codeBits e <+: P ++ bitsOf b i := fun h => hin ((hrange i hi).1 h)
          refine ⟨hno, fun hx => hno ?_⟩
          have hl := hx.length_le
          rw [he] at hl
          simp only [List.length_append, length_bitsOf] at hl
          rw [← hx.eq_of_length (by rw [he]; simp; omega)]
        have hi' := h i hi
        revert hi'
        cases ch.get i with
        | null =>
          intro h1 x hx
          rcases hx with hx | rfl
          · exact h1 x hx
          · exact hap
        | leaf y l => rintro ⟨x, hx, h2⟩; exact ⟨x, .inl hx, h2⟩
        | node c => rintro ⟨⟨x, hx, h2⟩, h3⟩; exact ⟨⟨x, .inl hx, h2⟩, h3.add_apart hap⟩

theorem insertCodes_ok {b : Nat} (hb : 1 ≤ b) : ∀ (es : List CodeEntry) (S : CodeEntry → Prop) (ch : Slots),
    (∀ e ∈ es, entryOk e) → (es.Pairwise fun a c => apart (codeBits a) (codeBits c)) →
    (∀ x, S x → ∀ e ∈ es, apart (codeBits x) (codeBits e)) → TreeOk b S lenMax [] ch →
    ∃ ch', insertCodes b es ch = some ch' ∧ TreeOk b (fun x => S x ∨ x ∈ es) lenMax [] ch'
  | [], S, ch, _, _, _, h => ⟨ch, rfl, by simpa using h⟩
  | e :: es, S, ch, hok, hp, hS, h => by
    have hp' := List.pairwise_cons.1 hp
    have he := hok e (by simp)
    obtain ⟨ch1, h1, h2⟩ := insertCode_ok hb (fun x hx => hS x hx e (by simp)) lenMax e.len [] (codeBits e) ch h rfl
      (by simpa using he.1) (by simp) (by simpa using he.2.1)
    rw [length_codeBits] at h1
    obtain ⟨ch2, h3, h4⟩ := insertCodes_ok hb es (fun x => S x ∨ x = e) ch1 (fun x hx => hok x (by simp [hx])) hp'.2
      (fun x hx y hy => by
        rcases hx with hx | rfl
        · exact hS x hx y (by simp [hy])
        · exact hp'.1 y hy) h2
    refine ⟨ch2, by simp [insertCodes, h1, h3], ?_⟩
    have : (fun x => (S x ∨ x = e) ∨ x ∈ es) = fun x => S x ∨ x ∈ e :: es := by
      funext x
      simp [or_assoc]
    rwa [this] at h4

/-- The tree of a legal list of codes exists and stands for exactly these codes. -/
theorem insertAll_ok {b : Nat} (hb : 1 ≤ b) {codes : List CodeEntry} (h : codesOk codes) :
    ∃ tree, insertAll b codes = some tree ∧ TreeOk b (fun e => e ∈ codes) lenMax [] tree := by
  have hp : codes.Pairwise fun a c => apart (codeBits a) (codeBits c) := by
    refine List.Pairwise.imp_of_mem (fun ha hc hn => ?_) h.2.2
    rw [begins_iff (h.2.1 _ ha).2.2 (h.2.1 _ hc).2.2, begins_iff (h.2.1 _ hc).2.2 (h.2.1 _ ha).2.2] at hn
    exact hn
  obtain ⟨tree, h1, h2⟩ := insertCodes_ok hb codes (fun _ => False) (Slots.fresh (2 ^ b)) h.2.1 hp (by simp)
    (TreeOk.fresh (n := 15) (by simp))
  refine ⟨tree, h1, ?_⟩
  simpa using h2

end Sys2Proof.Machine
end

