-- ==== Sys2Proof/Laws/Invariant.lean ====
section
/-! SUPPORT. The part of the invariant that does not speak of the engine's mode (`Core`), and that every operation keeps it,
whether it returns or raises. -/

namespace Sys2Proof.Machine

/-- The invariant but for what depends on the mode. -/
structure DataInv (s : State) : Prop where
  params : s.params.ok
  source : Memory.wf s.src = true
  cursor : cursorOk s
  tables : ∀ sel : Fin 8, tableOk s.params.aryLog2 s.tbl[sel]
  loc : s.chIdx < 4 ∧ s.blkIdx < 256
  coef : acRange s.coef
  outCount : s.outCount = BitVec.ofNat 32 s.out.length

theorem Inv.data {s : State} (h : Inv s) : DataInv s :=
  ⟨h.params, h.source, h.cursor, h.tables, ⟨h.coordinates.1, h.coordinates.2.1⟩, h.coef, h.outCount⟩

/-- Outside FAULT, with no fault recorded, the loop at the first block of an MCU and the unit in order, the rest is data. -/
theorem DataInv.inv {s : State} (h : DataInv s) (hm : s.mode ≠ .fault) (he : s.err = 0#8) (hc : s.chIdx = 0) (hb : s.blkIdx = 0)
    (hu : ∀ c k, s.unit = .ac c k → 1 ≤ k ∧ k ≤ 63) : Inv s :=
  ⟨h.params, h.source, h.cursor, h.tables, ⟨h.loc.1, h.loc.2, fun _ => ⟨hc, hb⟩⟩, ⟨by simp [hm, he], by simp [he]⟩, h.coef,
    h.outCount, ⟨fun h => absurd h hm, hu⟩⟩

theorem Err.code_bounds (e : Err) : e.code ≠ 0#8 ∧ 1 ≤ e.code.toNat ∧ e.code.toNat ≤ 8 := by cases e <;> decide

/-- The fault entry in any state whose data are in order. -/
theorem DataInv.raise {s : State} (h : DataInv s) (e : Err) : Inv (raise e s) :=
  ⟨h.params, h.source, h.cursor, h.tables, ⟨h.loc.1, h.loc.2, fun h => absurd rfl h⟩,
    ⟨by simp [(Err.code_bounds e).1], (Err.code_bounds e).2.2⟩, h.coef, h.outCount,
    ⟨fun _ => rfl, fun c k h => by simp at h⟩⟩

/-- What an operation that ends a command must show: its data in order, and on success the mode, the loop coordinates and
the recorded fault as before. -/
theorem Inv.finish {s t : State} {r : Res Unit} (h : Inv s) (hm : s.mode ≠ .fault)
    (hr : r.Sat (fun _ t => DataInv t ∧ t.mode ≠ .fault ∧ t.err = s.err ∧ t.chIdx = 0 ∧ t.blkIdx = 0 ∧
      ∀ c k, t.unit = .ac c k → 1 ≤ k ∧ k ≤ 63) (fun _ t => DataInv t))
    (ht : finish r = .next t) : Inv t := by
  have he : s.err = 0#8 := by
    by_contra hne
    exact hm (h.err.1.2 hne)
  exact finish_sat (P := Inv) (hr.mono (fun _ t ⟨h1, h2, h3, h4, h5, h6⟩ => h1.inv h2 (h3.trans he) h4 h5 h6)
    (fun e t h => h.raise e)) ht

/-- `t` keeps the mode, the recorded fault, the loop coordinates and the unit of `s`. -/
abbrev SamePlace (s t : State) : Prop :=
  t.mode = s.mode ∧ t.err = s.err ∧ t.chIdx = s.chIdx ∧ t.blkIdx = s.blkIdx ∧ t.unit = s.unit

/-- A command keeps the invariant when its effect keeps the data, and on success the place. -/
theorem Inv.command {s t : State} {ok : Mode → Bool} {effect : State → Res Unit} (h : Inv s)
    (hr : s.mode ≠ .fault → (effect s).Sat (fun _ t => DataInv t ∧ SamePlace s t) (fun _ t => DataInv t))
    (ht : command ok effect s = .next t) : Inv t := by
  rcases command_cases ht with ⟨-, rfl⟩ | ⟨-, -, rfl⟩ | ⟨hm, -, hf⟩
  · exact h
  · exact h.data.raise _
  · refine h.finish hm ((hr hm).mono ?_ (fun _ _ h => h)) hf
    rintro - t ⟨h1, h2, h3, h4, h5, h6⟩
    obtain ⟨g1, g2⟩ := h.coordinates.2.2 hm
    exact ⟨h1, by rw [h2]; exact hm, h3, h4.trans g1, h5.trans g2, fun c k hu => h.unit.2 c k (h6 ▸ hu)⟩

/-- The same for a command whose effect cannot fail. -/
theorem Inv.command_total {s t : State} {ok : Mode → Bool} {f : State → State} (h : Inv s) (hd : DataInv (f s))
    (hp : SamePlace s (f s)) (ht : Machine.command ok (fun s => .ok () (f s)) s = .next t) : Inv t :=
  h.command (effect := fun s => .ok () (f s)) (fun _ => ⟨hd, hp⟩) ht

/-! ### The operations -/

section
variable {s t : State}

theorem DataInv.of_feed (h : DataInv s) (hf : FeedFrame s t) (hc : cursorOk s → cursorOk t) : DataInv t := by
  have hc' := hc h.cursor
  rw [hf] at hc' ⊢
  exact ⟨h.params, h.source, hc', h.tables, h.loc, h.coef, h.outCount⟩

theorem DataInv.of_block (h : DataInv s) (hf : BlockFrame s t) (hd : DataOk s → DataOk t) : DataInv t := by
  have hd' := hd ⟨h.cursor, h.coef⟩
  rw [hf] at hd' ⊢
  exact ⟨h.params, h.source, hd'.1, h.tables, h.loc, hd'.2, h.outCount⟩

theorem DataInv.advance (h : DataInv s) {m : Nat} (hm : m ≤ avail s) : DataInv (advance m s) :=
  ⟨h.params, h.source, cursorOk_advance h.cursor hm, h.tables, h.loc, h.coef, h.outCount⟩

theorem DataInv.setCursor_nil (h : DataInv s) : DataInv (setCursor [] 0 s) :=
  ⟨h.params, h.source, ⟨Nat.le_refl 0, Nat.zero_le _, by simp [tail, setCursor], by simp [window, setCursor]⟩, h.tables, h.loc, h.coef, h.outCount⟩

theorem DataInv.append (h : DataInv s) (bs : List Byte) :
    (append bs s).Sat (fun _ t => DataInv t ∧ SamePlace s t) (fun _ t => DataInv t) := by
  rcases append_cases bs s with ⟨hr, ha⟩ | ⟨-, ha⟩
  · rw [ha]
    have hc := h.cursor
    refine ⟨⟨h.params, h.source, ⟨Nat.zero_le _, ?_, ?_, ?_⟩, h.tables, h.loc, h.coef, h.outCount⟩, rfl, rfl, rfl, rfl, rfl⟩
    · simp [setCursor]
      have := hc.2.1
      omega
    · have h0 : s.curPos % 8 / 8 = 0 := by omega
      simp only [tail, setCursor, List.length_append, List.length_drop, h0] at hr ⊢
      omega
    · simp only [tail, window, setCursor, List.length_append, List.length_drop] at hr ⊢
      omega
  · rw [ha]; exact h

theorem DataInv.nextBits (h : DataInv s) (n : Nat) :
    (nextBits n s).Sat (fun _ t => DataInv t ∧ SamePlace s t) (fun _ t => DataInv t) := by
  by_cases hn : n ≤ avail s
  · rw [nextBits_ok hn]; exact ⟨h.advance hn, rfl, rfl, rfl, rfl, rfl⟩
  · rw [nextBits_raised (by omega)]; exact h

theorem DataInv.backBits (h : DataInv s) (n : Nat) :
    (backBits n s).Sat (fun _ t => DataInv t ∧ SamePlace s t) (fun _ t => DataInv t) := by
  unfold Machine.backBits
  split
  · next hn =>
    obtain ⟨h1, h2, -, h4⟩ := h.cursor
    have hw : window (rewind n s) = window s := by
      simp only [window, rewind_curData, rewind_curPos, rewind_curBackable]
      congr 2
      omega
    refine ⟨⟨h.params, h.source, ⟨?_, ?_, Nat.le_trans (tail_le_window _) (hw ▸ h4), hw ▸ h4⟩, h.tables, h.loc, h.coef,
      h.outCount⟩, rfl, rfl, rfl, rfl, rfl⟩
    · simp; omega
    · simp; omega
  · exact h

theorem DataInv.setTable (h : DataInv s) {sel : Fin 8} {x : Table} (hx : tableOk s.params.aryLog2 x) :
    DataInv (setTable sel x s) := by
  refine ⟨h.params, h.source, h.cursor, fun sel' => ?_, h.loc, h.coef, h.outCount⟩
  show tableOk s.params.aryLog2 (s.tbl.set sel x)[sel']
  rw [Fin.getElem_fin, Vector.getElem_set]
  split
  · exact hx
  · exact h.tables sel'

theorem tableOk_empty (b : Nat) : tableOk b Table.empty := fun h => by cases h

theorem DataInv.loadTable (h : DataInv s) (sel : Fin 8) :
    (loadTable sel s).Sat (fun _ t => DataInv t ∧ SamePlace s t) (fun _ t => DataInv t) := by
  unfold Machine.loadTable
  split
  · next hc =>
    split
    · next tree ht =>
      refine ⟨h.setTable fun _ => ⟨?_, ht⟩, rfl, rfl, rfl, rfl, rfl⟩
      exact codesOk_assign _ (Nat.le_of_eq (length_stagedCounts s)) hc.1 hc.2
    · exact h.setTable (tableOk_empty _)
  · exact h.setTable (tableOk_empty _)

theorem DataInv.decodeSymbol (h : DataInv s) (sel : Fin 8) :
    (decodeSymbol sel s).Sat (fun _ t => DataInv t ∧ SamePlace s t) (fun _ t => t = s) := by
  refine (decodeSymbol_sat sel s).mono ?_ (fun _ _ h => h.1)
  rintro sym t ⟨e, -, -, rfl, he⟩
  exact ⟨h.advance he, rfl, rfl, rfl, rfl, rfl⟩

theorem DataInv.refill (h : DataInv s) :
    (refill s).Sat (fun _ t => DataInv t ∧ SamePlace s t) (fun _ t => DataInv t) := by
  refine (refill_frame s).mono ?_ (fun _ t ht => h.of_feed ht.1 ht.2.1)
  rintro - t ⟨h1, h2⟩
  refine ⟨h.of_feed h1 h2, ?_⟩
  rw [h1]
  exact ⟨rfl, rfl, rfl, rfl, rfl⟩

theorem DataInv.decodeBlock (h : DataInv s) (c : Fin 4) :
    (decodeBlock c s).Sat (fun _ t => DataInv t ∧ SamePlace s t) (fun _ t => DataInv t) := by
  refine (decodeBlock_frame c s).mono ?_ (fun _ t ht => h.of_block ht.1 ht.2)
  rintro - t ⟨h1, h2⟩
  refine ⟨h.of_block h1 h2, ?_⟩
  rw [h1]
  exact ⟨rfl, rfl, rfl, rfl, rfl⟩

/-- A block step at any block keeps the data and appends one block to `OUT`. -/
theorem DataInv.blockStep (h : DataInv s) {c j : Nat} (hc : c < 4) (hj : j < 255) :
    (blockStep (atBlock c j s)).Sat (fun _ t => DataInv t ∧ t.mode = s.mode ∧ t.err = s.err ∧ t.unit = s.unit)
      (fun _ t => DataInv t) := by
  have h' : DataInv (atBlock c j s) :=
    ⟨h.params, h.source, h.cursor, h.tables, ⟨hc, Nat.lt_succ_of_lt hj⟩, h.coef, h.outCount⟩
  refine (blockStep_frame (atBlock c j s)).mono ?_ (fun _ t ht => h'.of_block ht.1 ht.2)
  rintro - t ⟨u, hu, rfl, hd⟩
  have h'' := h'.of_block hu hd
  have hcj : u.chIdx = c ∧ u.blkIdx = j ∧ u.mode = s.mode ∧ u.err = s.err ∧ u.unit = s.unit := by rw [hu]; simp
  refine ⟨⟨h''.params, h''.source, h''.cursor, h''.tables, ⟨?_, ?_⟩, h''.coef, ?_⟩, hcj.2.2⟩
  · show u.chIdx < 4; omega
  · show u.blkIdx + 1 < 256; omega
  · show u.outCount + 1#32 = BitVec.ofNat 32 (u.out ++ [u.coef]).length
    rw [h''.outCount, List.length_append, List.length_singleton, BitVec.ofNat_add]

theorem blocksOf_lt (s : State) (c : Nat) : blocksOf s c < 256 := BitVec.isLt _

theorem DataInv.runMcus (h : DataInv s) (hn : s.numCh.toNat ≤ 4) (hm : s.mode ≠ .fault) (n : Nat)
    (hs : s.mcuStop.toNat - s.mcuIdx.toNat = n) (hc : s.chIdx = 0) (hb : s.blkIdx = 0) :
    (runMcus n s).Sat
      (fun _ t => DataInv t ∧ t.mode ≠ .fault ∧ t.err = s.err ∧ t.chIdx = 0 ∧ t.blkIdx = 0 ∧ t.unit = s.unit)
      (fun _ t => DataInv t) := by
  have key := runMcus_sat (P := fun t => DataInv t ∧ t.numCh.toNat ≤ 4 ∧ t.mode = s.mode ∧ t.err = s.err ∧ t.unit = s.unit)
    (E := fun _ t => DataInv t)
    (fun t c j ht _ hc hj => by
      have hj' := blocksOf_lt t c
      have h1 := ht.1.blockStep (c := c) (j := j) (by have := ht.2.1; omega) (by omega)
      have h2 := blockStep_next (atBlock c j t)
      cases hr : Machine.blockStep (atBlock c j t) with
      | raised e u => rw [hr] at h1; exact h1
      | ok a u =>
        rw [hr] at h1 h2
        obtain ⟨g1, g2, g3, g4⟩ := h1
        exact ⟨g1, by rw [h2.1.1]; exact ht.2.1, g2.trans ht.2.2.1, g3.trans ht.2.2.2.1, g4.trans ht.2.2.2.2⟩)
    (fun t ht _ => ⟨⟨ht.1.params, ht.1.source, ht.1.cursor, ht.1.tables, ⟨by show (0 : Nat) < 4; omega, by show (0 : Nat) < 256; omega⟩,
      ht.1.coef, ht.1.outCount⟩, ht.2⟩)
    n s hs ⟨h, hn, rfl, rfl, rfl⟩
  refine key.mono ?_ (fun _ _ h => h)
  rintro - t ⟨⟨h1, -, h2, h3, h4⟩, -, -, -, -, h5⟩
  refine ⟨h1, h2 ▸ hm, h3, ?_, ?_, h4⟩
  all_goals
    split at h5
    · first | exact h5.1 | exact h5.2
    · rw [h5]; assumption

theorem DataInv.endRun (h : DataInv s) : DataInv (endRun s) := by
  unfold Machine.endRun
  split
  · exact ⟨h.params, h.source, h.cursor, h.tables, h.loc, h.coef, h.outCount⟩
  · exact h

end

end Sys2Proof.Machine
end

