-- ==== Sys2Proof/Laws/Keep.lean ====
section
/-! SUPPORT. The invariant through an instruction and through an access of the outside. -/

namespace Sys2Proof.Machine

/-- RESET and hardware reset (R290). -/
theorem resetEngine_inv {s : State} (h : Inv s) : Inv (resetEngine s) := by
  refine ⟨h.params, h.source, ⟨Nat.le_refl 0, Nat.zero_le _, by simp [tail, resetEngine, State.reset], by simp [window, resetEngine, State.reset]⟩, ?_, ⟨Nat.zero_lt_succ _, Nat.zero_lt_succ _, fun _ => ⟨rfl, rfl⟩⟩,
    ⟨by simp [resetEngine, State.reset], by simp [resetEngine, State.reset]⟩, ?_, rfl, ⟨fun _ => rfl, fun c k h => by cases h⟩⟩
  · intro sel h; simp [resetEngine, State.reset, Table.empty] at h
  · intro k _; simp [resetEngine, State.reset]

/-- The fault entry (R270). -/
theorem inv_raise {s : State} (h : Inv s) (e : Err) : Inv (raise e s) := h.data.raise e

/-- Commands keep Inv. -/
theorem exec_command_inv {i : Instr} (hi : isCommand i = true) {s t : State} (h : Inv s) (ht : exec i s = .next t) : Inv t := by
  have hd := h.data
  cases i <;> simp only [isCommand, Bool.false_eq_true] at hi <;>
    simp only [exec, execNop, execReset, execClear, execAppend, execNextbits, execBackbits, execAlign, execLoadTable,
      execDecodeSym, execRefill, execDecodeBlock, execStartScan, execRun, execPredReset, execResync] at ht
  case nop => exact h.command_total (f := fun s => s) hd ⟨rfl, rfl, rfl, rfl, rfl⟩ ht
  case reset => simp only [Host.Outcome.next.injEq] at ht; exact ht ▸ resetEngine_inv h
  case clear =>
    refine h.command_total ?_ ⟨rfl, rfl, rfl, rfl, rfl⟩ ht
    have := hd.setCursor_nil
    exact ⟨this.params, this.source, this.cursor, this.tables, this.loc, this.coef, this.outCount⟩
  case append x => exact h.command (fun _ => hd.append _) ht
  case nextbits n =>
    refine h.command (fun _ => ?_) ht
    split
    · exact (hd.nextBits n).bind fun v u hu => ⟨⟨hu.1.params, hu.1.source, hu.1.cursor, hu.1.tables, hu.1.loc, hu.1.coef, hu.1.outCount⟩, hu.2⟩
    · exact hd
  case backbits n =>
    refine h.command (fun _ => ?_) ht
    split
    · exact hd.backBits n
    · exact hd
  case align =>
    refine h.command_total ?_ ⟨rfl, rfl, rfl, rfl, rfl⟩ ht
    by_cases h0 : padding s ≤ avail s
    · exact hd.advance h0
    · exfalso
      have := hd.cursor.2.1
      unfold padding avail at h0
      omega
  case loadTable sel => exact h.command (fun _ => hd.loadTable sel) ht
  case decodeSym sel =>
    refine h.command (fun _ => ?_) ht
    refine ((hd.decodeSymbol sel).mono (E' := fun _ t => DataInv t) (fun _ _ h => h) (fun _ t h => by rw [h]; exact hd)).bind fun v u hu => ?_
    exact ⟨⟨hu.1.params, hu.1.source, hu.1.cursor, hu.1.tables, hu.1.loc, hu.1.coef, hu.1.outCount⟩, hu.2⟩
  case refill => exact h.command (fun _ => hd.refill) ht
  case decodeBlock c => exact h.command (fun _ => hd.decodeBlock c) ht
  case startScan =>
    rcases command_cases ht with ⟨-, rfl⟩ | ⟨-, -, rfl⟩ | ⟨hm, -, hf⟩
    · exact h
    · exact inv_raise h _
    · refine h.finish hm ?_ hf
      unfold startScan
      split
      · have := hd.setCursor_nil
        exact ⟨⟨this.params, this.source, this.cursor, this.tables, ⟨by simp [beginScan], by simp [beginScan]⟩, this.coef, by simp [beginScan]⟩,
          by simp [beginScan], rfl, rfl, rfl, h.unit.2⟩
      · exact hd
  case run =>
    rcases command_cases ht with ⟨-, rfl⟩ | ⟨-, -, rfl⟩ | ⟨hm, -, hf⟩
    · exact h
    · exact inv_raise h _
    · refine h.finish hm ?_ hf
      obtain ⟨hc, hb⟩ := h.coordinates.2.2 hm
      by_cases hk : s.mcuStop ≤ s.mcuCount ∧ numChLegal s
      · rw [runScan_eq hk hc hb]
        refine (hd.runMcus hk.2.2 hm _ rfl hc hb).bind fun _ u ⟨h1, h2, h3, h4, h5, h6⟩ => ?_
        refine ⟨h1.endRun, ?_, ?_, ?_, ?_, ?_⟩
        · unfold endRun; split <;> simp [h2]
        · unfold endRun; split <;> exact h3
        · unfold endRun; split <;> exact h4
        · unfold endRun; split <;> exact h5
        · have : (endRun u).unit = s.unit := by unfold endRun; split <;> exact h6
          rw [this]; exact h.unit.2
      · rw [runScan_bad hk]; exact hd
  case predReset =>
    exact h.command_total ⟨hd.params, hd.source, hd.cursor, hd.tables, hd.loc, hd.coef, hd.outCount⟩ ⟨rfl, rfl, rfl, rfl, rfl⟩ ht
  case resync =>
    refine h.command_total ?_ ⟨rfl, rfl, rfl, rfl, rfl⟩ ht
    have := hd.setCursor_nil
    exact ⟨this.params, this.source, this.cursor, this.tables, this.loc, this.coef, this.outCount⟩

/-- What acts on an AC symbol keeps the data and the place, and answers an index up to 64. -/
theorem onAc_inv {op : Nat → State → Res Nat} {s t : State} (h : Inv s)
    (hop : ∀ c k, s.unit = .ac c k → (op k s).Sat (fun k' u => DataInv u ∧ SamePlace s u ∧ 1 ≤ k') (fun _ u => DataInv u))
    (ht : onAc op s = .next t) : Inv t := by
  unfold onAc at ht
  split at ht
  · next c k hu =>
    have hm : s.mode ≠ .fault := fun hm => by have := h.unit.1 hm; rw [hu] at this; cases this
    refine h.finish hm ((hop c k hu).bind fun k' u ⟨g1, g2, g3⟩ => ?_) ht
    obtain ⟨m1, m2, m3, m4, m5⟩ := g2
    obtain ⟨c1, c2⟩ := h.coordinates.2.2 hm
    refine ⟨⟨g1.params, g1.source, g1.cursor, g1.tables, g1.loc, g1.coef, g1.outCount⟩, m1 ▸ hm, m2, m3.trans c1, m4.trans c2, ?_⟩
    intro c' k'' hk
    simp only at hk
    split at hk
    · cases hk; omega
    · cases hk
  all_goals cases ht

/-- What acts on a DC symbol keeps the data and the place. -/
theorem onDc_inv {op : Fin 4 → State → Res Unit} {s t : State} (h : Inv s)
    (hop : ∀ c, (op c s).Sat (fun _ u => DataInv u ∧ SamePlace s u) (fun _ u => DataInv u))
    (ht : onDc op s = .next t) : Inv t := by
  unfold onDc at ht
  split at ht
  · next c hu =>
    have hm : s.mode ≠ .fault := fun hm => by have := h.unit.1 hm; rw [hu] at this; cases this
    refine h.finish hm ((hop c).bind fun _ u ⟨g1, g2⟩ => ?_) ht
    obtain ⟨m1, m2, m3, m4, m5⟩ := g2
    obtain ⟨c1, c2⟩ := h.coordinates.2.2 hm
    refine ⟨⟨g1.params, g1.source, g1.cursor, g1.tables, g1.loc, g1.coef, g1.outCount⟩, m1 ▸ hm, m2, m3.trans c1, m4.trans c2, ?_⟩
    intro c' k'' hk
    cases hk; omega
  all_goals cases ht

/-- What acts on an escape pair keeps the data and the place. -/
theorem onRefiller_inv {op : State → Res Unit} {b : Bool} {s t : State} (h : Inv s)
    (hop : (op s).Sat (fun _ u => DataInv u ∧ SamePlace s u) (fun _ u => DataInv u))
    (ht : onRefiller b op s = .next t) : Inv t := by
  unfold onRefiller at ht
  split at ht
  · next left hu =>
    have hm : s.mode ≠ .fault := fun hm => by have := h.unit.1 hm; rw [hu] at this; cases this
    refine h.finish hm (hop.bind fun _ u ⟨g1, g2⟩ => ?_) ht
    obtain ⟨m1, m2, m3, m4, m5⟩ := g2
    obtain ⟨c1, c2⟩ := h.coordinates.2.2 hm
    refine ⟨⟨g1.params, g1.source, g1.cursor, g1.tables, g1.loc, g1.coef, g1.outCount⟩, m1 ▸ hm, m2, m3.trans c1, m4.trans c2, ?_⟩
    intro c' k'' hk
    simp only at hk
    split at hk <;> cases hk
  all_goals cases ht

/-- The DC predictor's transition (R193). -/
theorem storeDc_data {s : State} (h : DataInv s) (c : Fin 4) (d : Int) : DataInv (storeDc c d s) ∧ SamePlace s (storeDc c d s) :=
  ⟨⟨h.params, h.source, h.cursor, h.tables, h.loc, acRange_set0 h.coef _, h.outCount⟩, rfl, rfl, rfl, rfl, rfl⟩

/-- Stream codes keep Inv. -/
theorem exec_stream_inv {i : Instr} (hi : isCommand i = false) {s t : State} (h : Inv s) (ht : exec i s = .next t) : Inv t := by
  have hd := h.data
  cases i <;> simp only [isCommand, Bool.true_eq_false] at hi <;> simp only [exec] at ht
  case eob =>
    refine onAc_inv h (fun c k _ => ?_) ht
    exact ⟨hd, ⟨rfl, rfl, rfl, rfl, rfl⟩, by omega⟩
  case zrl =>
    refine onAc_inv h (fun c k _ => ?_) ht
    unfold zrlOp
    split
    · exact ⟨hd, ⟨rfl, rfl, rfl, rfl, rfl⟩, by omega⟩
    · exact hd
  case runsize R S =>
    refine onAc_inv h (fun c k _ => ?_) ht
    unfold runsizeOp
    split
    · by_cases hn : S.val ≤ avail s
      · rw [nextBits_ok hn]
        have hd' := hd.advance hn
        exact ⟨⟨hd'.params, hd'.source, hd'.cursor, hd'.tables, hd'.loc, acRange_set hd'.coef (by omega) (peek_lt ..) _, hd'.outCount⟩,
          ⟨rfl, rfl, rfl, rfl, rfl⟩, by omega⟩
      · rw [nextBits_raised (by omega)]; exact hd
    · exact hd
  case acrsvd R =>
    refine onAc_inv h (fun c k _ => ?_) ht
    exact hd
  case dcsize S =>
    refine onDc_inv h (fun c => ?_) ht
    unfold dcsizeOp
    split
    · exact storeDc_data hd c 0
    · by_cases hn : S.val ≤ avail s
      · rw [nextBits_ok hn]
        exact storeDc_data (hd.advance hn) c _
      · rw [nextBits_raised (by omega)]; exact hd
  case dcrsvd y =>
    refine onDc_inv h (fun c => ?_) ht
    exact hd
  case stuff =>
    have h1 : DataInv (skipSource 2 s) := ⟨hd.params, hd.source, hd.cursor, hd.tables, hd.loc, hd.coef, hd.outCount⟩
    exact onRefiller_inv h (h1.append _) ht
  case eoi =>
    refine onRefiller_inv h ?_ ht
    exact ⟨⟨hd.params, hd.source, hd.cursor, hd.tables, hd.loc, hd.coef, hd.outCount⟩, rfl, rfl, rfl, rfl, rfl⟩
  case marker x =>
    refine onRefiller_inv h ?_ ht
    exact ⟨⟨hd.params, hd.source, hd.cursor, hd.tables, hd.loc, hd.coef, hd.outCount⟩, rfl, rfl, rfl, rfl, rfl⟩
  case badesc =>
    refine onRefiller_inv h ?_ ht
    exact hd

/-- Every instruction keeps Inv. -/
theorem exec_inv {i : Instr} {s t : State} (h : Inv s) (ht : exec i s = .next t) : Inv t := by
  cases hi : isCommand i with
  | true => exact exec_command_inv hi h ht
  | false => exact exec_stream_inv hi h ht

/-- What the host writes is no part of Inv. -/
theorem inv_congr {s : State} (h : Inv s) (f : State → State)
    (hf : f s = { s with script := (f s).script, lastRead := (f s).lastRead, mcuCount := (f s).mcuCount, mcuStop := (f s).mcuStop, numCh := (f s).numCh, chCfg := (f s).chCfg, srcPos := (f s).srcPos, srcLen := (f s).srcLen, tblCnt := (f s).tblCnt, tblSym := (f s).tblSym }) : Inv (f s) := by
  rw [hf]
  exact ⟨h.params, h.source, h.cursor, h.tables, h.coordinates, h.err, h.coef, h.outCount, h.unit⟩

/-- A new source space in canonical form. -/
theorem inv_src {s : State} (h : Inv s) {m : Memory} (hm : Memory.wf m = true) : Inv { s with src := m } :=
  ⟨h.params, hm, h.cursor, h.tables, h.coordinates, h.err, h.coef, h.outCount, h.unit⟩

/-- Every access of the outside keeps Inv. -/
theorem perform_inv {s t : State} {a : Access} (h : Inv s) (ht : perform a s = .next t) : Inv t := by
  cases a with
  | read w o =>
    simp only [perform, hostRead] at ht
    split at ht
    · next r _ =>
      cases ht
      exact inv_congr h (fun s => { s with lastRead := readReg s r }) rfl
    all_goals cases ht
  | write w o v =>
    simp only [perform, hostWrite] at ht
    split at ht
    · next r _ =>
      split at ht
      · unfold executeWord at ht
        split at ht
        · exact exec_inv h ht
        · refine h.command (fun _ => ?_) ht
          exact h.data
      · cases ht
        exact inv_congr h (fun s => writeReg v s r) (by cases r <;> rfl)
    all_goals cases ht
  | source bytes => cases ht; exact inv_src h (Memory.wf_ofBytes _)
  | poke i v => cases ht; exact inv_src h (Memory.wf_write _ _ h.source)
  | readOut i k =>
    simp only [perform] at ht
    split at ht
    · next b _ =>
      split at ht
      · next hk =>
        cases ht
        exact inv_congr h (fun s => { s with lastRead := b[k] }) rfl
      · cases ht
    · cases ht
  | hardwareReset => cases ht; exact resetEngine_inv h

end Sys2Proof.Machine
end

