-- ==== Sys2Proof/Laws/Streams.lean ====
section
/-! SUPPORT. Reads of the cursor as bit strings, sequences of appends and reads (spec/40_bitcursor.md R122), the word load (R113), and
several refills in a row (spec/42_refiller.md R181). -/

namespace Sys2Proof.Machine

/-- A read that has its bits, as a bit string (R113). -/
theorem take_bits {s : State} {n : Nat} (h : n ≤ avail s) : ∃ f, f < 2 ^ n ∧ (unreadBits s).take n = bitsOf n f ∧ nextBits n s = .ok f (advance n s) :=
  ⟨peek s n, peek_lt s n, take_unreadBits s n h, nextBits_ok h⟩

/-- Coefficient 0 is in bounds. -/
theorem coef_set0 (b : Block) (v : Word) : b.setIfInBounds 0 v = b.set 0 v := by
  apply Vector.ext
  intro i hi
  simp [Vector.getElem_set, Vector.getElem_setIfInBounds]

/-- A big-endian load is the bits of its bytes (R62). -/
theorem loadWord_eq (d : List Byte) (B : Nat) : ∀ k, loadWord d B k = bitsAt d (8 * B) (8 * k)
  | 0 => rfl
  | k + 1 => by
    rw [loadWord, loadWord_eq d B k, Nat.mul_add, bitsAt_add]
    have : bitsAt d (8 * B + 8 * k) 8 = (d.getD (B + k) 0#8).toNat := by
      have e : ∀ j < 8, (8 * B + 8 * k + j) / 8 = B + k ∧ (8 * B + 8 * k + j) % 8 = j := fun j hj => by omega
      simp only [bitsAt, bitAt]
      have h0 := e 0 (by omega)
      rw [(e 0 (by omega)).1, (e 0 (by omega)).2, (e 1 (by omega)).1, (e 1 (by omega)).2, (e 2 (by omega)).1, (e 2 (by omega)).2,
        (e 3 (by omega)).1, (e 3 (by omega)).2, (e 4 (by omega)).1, (e 4 (by omega)).2, (e 5 (by omega)).1, (e 5 (by omega)).2,
        (e 6 (by omega)).1, (e 6 (by omega)).2, (e 7 (by omega)).1, (e 7 (by omega)).2]
      generalize d.getD (B + k) 0#8 = x
      revert x; decide
    rw [this]; omega

/-- What a sequence of appends and reads does to the unread bits (R122 (a)). -/
theorem runOps_unread : ∀ (ops : List CursorOp) (s t : State) (bits : List Bool), s.curPos ≤ 8 * s.curData.length →
    runOps ops s = some (bits, t) → bits ++ unreadBits t = unreadBits s ++ byteBits (putBytes ops)
  | [], s, t, bits, _, h => by
    simp only [runOps, Option.some.injEq, Prod.mk.injEq] at h
    obtain ⟨rfl, rfl⟩ := h
    simp [putBytes]
  | .put bs :: ops, s, t, bits, hp, h => by
    simp only [runOps] at h
    split at h
    · next u hu =>
      have hp' : u.curPos ≤ 8 * u.curData.length := by
        rcases append_cases bs s with ⟨-, ha⟩ | ⟨-, ha⟩ <;> rw [ha] at hu <;> cases hu
        simp; omega
      rw [runOps_unread ops u t bits hp' h, unreadBits_append hp hu, putBytes, byteBits_append, List.append_assoc]
    · cases h
  | .take n :: ops, s, t, bits, hp, h => by
    simp only [runOps] at h
    split at h
    · next v u hu =>
      by_cases hn : n ≤ avail s
      · rw [nextBits_ok hn] at hu
        cases hu
        simp only [Option.map_eq_some_iff] at h
        obtain ⟨⟨b', t'⟩, h1, h2⟩ := h
        simp only [Prod.mk.injEq] at h2
        obtain ⟨rfl, rfl⟩ := h2
        have hp' : (advance n s).curPos ≤ 8 * (advance n s).curData.length := by
          simp; unfold avail at hn; omega
        rw [List.append_assoc, runOps_unread ops _ _ _ hp' h1, ← List.append_assoc, unreadBits_advance, ← unreadBits_eq s n hn]
        rfl
      · rw [nextBits_raised (by omega)] at hu; cases hu
    · cases h

/-- Several refills in a row append what one long refill would (R181). -/
theorem refills_sat : ∀ (n : Nat) (s : State), s.eoe = false → s.srcPos ≤ s.srcLen →
    (refills n s).Sat (fun _ t => ∃ D k, Fed D k s t ∧ (t.eoe = true → endedAt t))
      (fun e t => e = .malformedByteStuffing → ∃ D k, Fed D k s t ∧ malformedAt t ∧ t.eoe = false)
  | 0, s, he, _ => ⟨[], 0, Fed.refl s, fun h => by rw [he] at h; cases h⟩
  | n + 1, s, he, hle => by
    unfold refills
    have hs := refill_sat he hle
    cases hr : refill s with
    | raised e t =>
      rw [hr] at hs
      obtain ⟨D, k, u, hf, hee, (⟨-, rfl, hmal, -⟩ | ⟨rfl, -, -⟩)⟩ := hs
      · exact fun _ => ⟨D, k, hf, hmal, hee.trans he⟩
      · exact fun h => by cases h
    | ok a t =>
      rw [hr] at hs
      obtain ⟨D, k, hf, hD, hk, hend, hp⟩ := hs
      rw [Res.bind_ok]
      cases hte : t.eoe with
      | true =>
        have hstay : ∀ m, refills m t = .ok () t := by
          intro m
          induction m with
          | zero => rfl
          | succ m ih => rw [refills, refill_eoe hte]; exact ih
        rw [hstay]
        exact ⟨D, k, hf, fun _ => hend hte⟩
      | false =>
        refine (refills_sat n t hte (hf.le hle)).mono ?_ ?_
        · rintro - u ⟨D', k', hf', h⟩
          exact ⟨_, _, hf.trans hf', h⟩
        · intro e u h he'
          obtain ⟨D', k', hf', h⟩ := h he'
          exact ⟨_, _, hf.trans hf', h⟩

end Sys2Proof.Machine
end

