-- ==== Sys2Proof/Laws/Twin.lean ====
section
/-! SUPPORT. Two machines that differ in the OPEN parameters and in how far they have refilled (spec/00_scope.md R9,
spec/44_loop_commands.md R232): what one decodes, the other decodes. -/

namespace Sys2Proof.Machine

/-- The bits the refiller has still to bring. -/
def ahead (s : State) : List Bool := if s.eoe then [] else byteBits (destuff s).1

/-- `t` is `s` but for the parameters, the cursor's contents, `SRC_POS` and `EOE`. -/
abbrev TwinFrame (s t : State) : Prop :=
  t = { s with params := t.params, curData := t.curData, curPos := t.curPos, curBackable := t.curBackable, srcPos := t.srcPos, eoe := t.eoe }

/-- Two machines over the same bits still to come, each of which has `n` of them at hand or all of them. -/
structure Twin (n : Nat) (s t : State) : Prop where
  frame : TwinFrame s t
  same : unreadBits s ++ ahead s = unreadBits t ++ ahead t
  left : ahead s = [] ∨ n ≤ avail s
  right : ahead t = [] ∨ n ≤ avail t

def Res.Rel {α : Type} (r r' : Res α) (Q : α → State → State → Prop) (E : State → State → Prop) : Prop :=
  match r, r' with
  | .ok a s, .ok b t => a = b ∧ Q a s t
  | .raised e s, .raised f t => e = f ∧ E s t
  | _, _ => False

theorem Res.Rel.bind {α β : Type} {r r' : Res α} {Q : α → State → State → Prop} {E : State → State → Prop} {R : β → State → State → Prop}
    {k k' : α → State → Res β} (h : r.Rel r' Q E) (hk : ∀ a s t, Q a s t → (k a s).Rel (k' a t) R E) :
    (r.bind k).Rel (r'.bind k') R E := by
  cases r <;> cases r' <;> simp only [Res.Rel] at h
  · obtain ⟨rfl, h⟩ := h; exact hk _ _ _ h
  · obtain ⟨rfl, h⟩ := h; exact ⟨rfl, h⟩

theorem Res.Rel.mono {α : Type} {r r' : Res α} {Q Q' : α → State → State → Prop} {E E' : State → State → Prop} (h : r.Rel r' Q E)
    (hQ : ∀ a s t, Q a s t → Q' a s t) (hE : ∀ s t, E s t → E' s t) : r.Rel r' Q' E' := by
  cases r <;> cases r' <;> simp only [Res.Rel] at h ⊢
  · exact ⟨h.1, hQ _ _ _ h.2⟩
  · exact ⟨h.1, hE _ _ h.2⟩

section

variable {n : Nat} {s t : State}

theorem Twin.mono {m : Nat} (h : Twin n s t) (hm : m ≤ n) : Twin m s t :=
  ⟨h.frame, h.same, h.left.imp id (fun h => by omega), h.right.imp id (fun h => by omega)⟩

theorem ahead_advance (m : Nat) (s : State) : ahead (advance m s) = ahead s := rfl

theorem Twin.advance {m : Nat} (h : Twin (n + m) s t) (h1 : m ≤ avail s) (h2 : m ≤ avail t) : Twin n (advance m s) (advance m t) := by
  refine ⟨?_, ?_, ?_, ?_⟩
  · have := h.frame
    unfold TwinFrame at this ⊢
    have hb : t.bitpos = s.bitpos := by rw [this]
    rw [this]
    simp [Machine.advance]
  · rw [ahead_advance, ahead_advance, unreadBits_advance, unreadBits_advance]
    have := congrArg (List.drop m) h.same
    rwa [List.drop_append_of_le_length (by simpa using h1), List.drop_append_of_le_length (by simpa using h2)] at this
  · rw [ahead_advance, avail_advance]; exact h.left.imp id (fun h => by omega)
  · rw [ahead_advance, avail_advance]; exact h.right.imp id (fun h => by omega)

/-- A read of bits that one of the twins has at hand. -/
theorem Twin.take_eq {m : Nat} (h : Twin n s t) (hm : m ≤ n) (h1 : m ≤ avail s) : m ≤ avail t ∧ (unreadBits t).take m = (unreadBits s).take m := by
  have hl := congrArg List.length h.same
  simp only [List.length_append, length_unreadBits] at hl
  have h2 : m ≤ avail t := by
    rcases h.right with hr | hr
    · rw [hr] at hl; simp at hl; omega
    · omega
  refine ⟨h2, ?_⟩
  have := congrArg (List.take m) h.same
  rw [List.take_append_of_le_length (by simpa using h1), List.take_append_of_le_length (by simpa using h2)] at this
  exact this.symm

theorem Twin.symm (h : Twin n s t) : Twin n t s := by
  refine ⟨?_, h.same.symm, h.right, h.left⟩
  have := h.frame
  unfold TwinFrame at this ⊢
  rw [this]

theorem Twin.peek_eq {m : Nat} (h : Twin n s t) (hm : m ≤ n) (h1 : m ≤ avail s) : peek t m = peek s m := by
  obtain ⟨h2, h3⟩ := h.take_eq hm h1
  rw [take_unreadBits t m h2, take_unreadBits s m h1] at h3
  exact bitsOf_inj (peek_lt ..) (peek_lt ..) h3

theorem nextBits_twin {m : Nat} (h : Twin (n + m) s t) :
    (nextBits m s).Rel (nextBits m t) (fun _ u v => Twin n u v) (fun u v => TwinFrame u v) := by
  by_cases h1 : m ≤ avail s
  · have h2 := (h.take_eq (by omega) h1).1
    rw [nextBits_ok h1, nextBits_ok h2]
    exact ⟨(h.peek_eq (by omega) h1).symm, h.advance h1 h2⟩
  · have h2 : ¬ m ≤ avail t := fun h2 => h1 (h.symm.take_eq (by omega) h2).1
    rw [nextBits_raised (by omega), nextBits_raised (by omega)]
    exact ⟨rfl, h.frame⟩

theorem decodeSymbol_twin {sel : Fin 8} (h : Twin (n + 16) s t) (hc : s.tbl[sel].valid = true → codesOk s.tbl[sel].codes) :
    (decodeSymbol sel s).Rel (decodeSymbol sel t) (fun _ u v => Twin n u v) (fun u v => TwinFrame u v) := by
  have htbl : t.tbl = s.tbl := by rw [h.frame]
  cases hv : s.tbl[sel].valid with
  | false => rw [decodeSymbol_invalid hv, decodeSymbol_invalid (by rw [htbl]; exact hv)]; exact ⟨rfl, h.frame⟩
  | true =>
    have hc := hc hv
    have hvt : t.tbl[sel].valid = true := by rw [htbl]; exact hv
    have hct : codesOk t.tbl[sel].codes := by rw [htbl]; exact hc
    have hpre : ∀ e ∈ s.tbl[sel].codes, codeBits e <+: unreadBits s ↔ codeBits e <+: unreadBits t := by
      intro e he
      have hl : e.len ≤ 16 := (hc.2.1 e he).2.1
      have key : ∀ {s t : State}, Twin (n + 16) s t → codeBits e <+: unreadBits s → codeBits e <+: unreadBits t := by
        intro s t h hp
        have h1 : e.len ≤ avail s := by simpa using hp.length_le
        obtain ⟨h2, h3⟩ := h.take_eq (by omega) h1
        rw [List.prefix_iff_eq_take, length_codeBits] at hp ⊢
        rw [h3]; exact hp
      exact ⟨key h, key h.symm⟩
    by_cases hm : ∃ e ∈ s.tbl[sel].codes, codeBits e <+: unreadBits s
    · obtain ⟨e, he, hp⟩ := hm
      have hpt := (hpre e he).1 hp
      have hl : e.len ≤ 16 := (hc.2.1 e he).2.1
      rw [decodeSymbol_match hv hc he hp, decodeSymbol_match hvt hct (by rw [htbl]; exact he) hpt]
      refine ⟨rfl, (h.mono (by omega) : Twin (n + e.len) s t).advance ?_ ?_⟩
      · simpa using hp.length_le
      · simpa using hpt.length_le
    · have hn : ∀ e ∈ s.tbl[sel].codes, ¬ codeBits e <+: unreadBits s := fun e he hp => hm ⟨e, he, hp⟩
      have hnt : ∀ e ∈ t.tbl[sel].codes, ¬ codeBits e <+: unreadBits t := by
        rw [htbl]; exact fun e he hp => hn e he ((hpre e he).2 hp)
      have hext : ∀ {s t : State}, Twin (n + 16) s t → (∀ e ∈ s.tbl[sel].codes, e.len ≤ 16) → ∀ e ∈ s.tbl[sel].codes, unreadBits s <+: codeBits e → ¬ codeBits e <+: unreadBits s → unreadBits t <+: codeBits e := by
        intro s t h hl e he hp hnp
        have hlen : avail s < e.len := by
          have hle : avail s ≤ e.len := by simpa using hp.length_le
          refine Nat.lt_of_le_of_ne hle fun heq => hnp ?_
          rw [hp.eq_of_length (by simpa using heq)]
        have := hl e he
        have ha : ahead s = [] := h.left.resolve_right (by omega)
        have hs := h.same
        rw [ha, List.append_nil] at hs
        rw [hs] at hp
        exact (List.prefix_append ..).trans hp
      have hlens : ∀ e ∈ s.tbl[sel].codes, e.len ≤ 16 := fun e he => (hc.2.1 e he).2.1
      by_cases hx : ∃ e ∈ s.tbl[sel].codes, unreadBits s <+: codeBits e
      · obtain ⟨e, he, hp⟩ := hx
        rw [decodeSymbol_exhausted hv hc hn he hp,
          decodeSymbol_exhausted hvt hct hnt (e := e) (by rw [htbl]; exact he) (hext h hlens e he hp (hn e he))]
        exact ⟨rfl, h.frame⟩
      · rw [decodeSymbol_failed hv hc hn (fun e he hp => hx ⟨e, he, hp⟩),
          decodeSymbol_failed hvt hct hnt (fun e he hp => by
            rw [htbl] at he
            exact hx ⟨e, he, hext h.symm (by rw [htbl]; exact hlens) e (by rw [htbl]; exact he) hp (fun hp' => hn e he ((hpre e he).2 hp'))⟩)]
        exact ⟨rfl, h.frame⟩

theorem TwinFrame.sel (h : TwinFrame s t) (c : Fin 4) : dcSel t c = dcSel s c ∧ acSel t c = acSel s c := by
  have : t.chCfg = s.chCfg := by rw [h]
  simp only [dcSel, acSel, this, and_self]

/-- an update of coef and pred -/
theorem Twin.store {u v : State} (h : Twin n u v) (coef : Block) (pred : Vector Word 4) :
    Twin n { u with coef := coef, pred := pred } { v with coef := coef, pred := pred } := by
  refine ⟨?_, h.same, h.left, h.right⟩
  have := h.frame
  unfold TwinFrame at this ⊢
  rw [this]

theorem dcStep_twin {c : Fin 4} (h : Twin (n + 31) s t) (hc : s.tbl[dcSel s c].valid = true → codesOk s.tbl[dcSel s c].codes) :
    (dcStep c s).Rel (dcStep c t) (fun _ u v => Twin n u v) (fun u v => TwinFrame u v) := by
  unfold dcStep
  rw [(h.frame.sel c).1]
  refine (decodeSymbol_twin (n := n + 15) (h.mono (by omega)) hc).bind fun y u v huv => ?_
  have hcoef : v.coef = u.coef ∧ v.pred = u.pred := by rw [huv.frame]; exact ⟨rfl, rfl⟩
  have hstore : ∀ {u v : State}, Twin n u v → ∀ d, Twin n (storeDc c d u) (storeDc c d v) := by
    intro u v h d
    have hcoef : v.coef = u.coef ∧ v.pred = u.pred := by rw [h.frame]; exact ⟨rfl, rfl⟩
    rw [storeDc_eq, storeDc_eq, hcoef.1, hcoef.2]
    exact h.store _ _
  unfold dcCases
  split
  · unfold dcsizeOp
    beta_reduce
    split
    · exact ⟨rfl, hstore (huv.mono (by omega)) 0⟩
    · have hS := (sizeField y).isLt
      refine (nextBits_twin (n := n) (huv.mono (by omega))).bind fun f u v huv => ?_
      exact ⟨rfl, hstore huv _⟩
  · exact ⟨rfl, huv.frame⟩

theorem acStep_twin {c : Fin 4} {k : Nat} (h : Twin (n + 31) s t) (hc : s.tbl[acSel s c].valid = true → codesOk s.tbl[acSel s c].codes) :
    (acStep c k s).Rel (acStep c k t) (fun _ u v => Twin n u v) (fun u v => TwinFrame u v) := by
  unfold acStep
  rw [(h.frame.sel c).2]
  refine (decodeSymbol_twin (n := n + 15) (h.mono (by omega)) hc).bind fun y u v huv => ?_
  have huv' := huv.mono (m := n) (by omega)
  unfold acCases
  split
  · exact ⟨rfl, huv'⟩
  split
  · unfold zrlOp
    split
    · exact ⟨rfl, huv'⟩
    · exact ⟨rfl, huv.frame⟩
  split
  · exact ⟨rfl, huv.frame⟩
  · unfold runsizeOp
    beta_reduce
    split
    · have hS := (sizeField y).isLt
      refine (nextBits_twin (n := n) (huv.mono (by omega))).bind fun f u v huv => ⟨rfl, ?_⟩
      have hcoef : v.coef = u.coef ∧ v.pred = u.pred := by rw [huv.frame]; exact ⟨rfl, rfl⟩
      have := huv.store (u.coef.setIfInBounds (k + (runField y).val) (wrap32 (extend f (sizeField y).val))) u.pred
      have e : setCoef (k + (runField y).val) (wrap32 (extend f (sizeField y).val)) v = { v with coef := u.coef.setIfInBounds (k + (runField y).val) (wrap32 (extend f (sizeField y).val)), pred := u.pred } := by
        rw [setCoef, hcoef.1, ← hcoef.2]
      rw [e]
      exact this
    · exact ⟨rfl, huv.frame⟩

theorem acLoop_twin {c : Fin 4} : ∀ {turns k : Nat} {s t : State}, k ≤ 64 → Twin (31 * (64 - k)) s t →
    (s.tbl[acSel s c].valid = true → codesOk s.tbl[acSel s c].codes) →
    (acLoop c turns k s).Rel (acLoop c turns k t) (fun _ u v => Twin 0 u v) (fun u v => TwinFrame u v)
  | 0, k, s, t, hk, h, hc => ⟨rfl, h.mono (by omega)⟩
  | turns + 1, k, s, t, hk, h, hc => by
    unfold acLoop
    split
    · next h63 =>
      have hstep := acStep_twin (c := c) (k := k) (n := 31 * (64 - (k + 1))) (h.mono (by omega)) hc
      have hs := acStep_sat c k s h63
      cases hr : acStep c k s with
      | raised e u =>
        rw [hr] at hstep
        cases hr' : acStep c k t with
        | raised f v => rw [hr'] at hstep; exact hstep
        | ok b v => rw [hr'] at hstep; exact hstep.elim
      | ok k' u =>
        rw [hr] at hstep hs
        cases hr' : acStep c k t with
        | raised f v => rw [hr'] at hstep; exact hstep.elim
        | ok b v =>
          rw [hr'] at hstep
          obtain ⟨rfl, huv⟩ := hstep
          obtain ⟨m, coef, rfl, -, h1, h2, -⟩ := hs
          exact acLoop_twin h2 (huv.mono (by omega)) hc
    · exact ⟨rfl, h.mono (by omega)⟩

theorem decodeBlock_twin {c : Fin 4} (h : Twin 1984 s t) (hc : ∀ sel : Fin 8, s.tbl[sel].valid = true → codesOk s.tbl[sel].codes) :
    (decodeBlock c s).Rel (decodeBlock c t) (fun _ u v => Twin 0 u v) (fun u v => TwinFrame u v) := by
  have htbl : t.tbl = s.tbl := by rw [h.frame]
  have hval : blockTablesValid c t = blockTablesValid c s := by
    have e1 : ∀ sel : Fin 8, t.tbl[sel] = s.tbl[sel] := fun sel => by rw [htbl]
    show (t.tbl[dcSel t c].valid && t.tbl[acSel t c].valid) = _
    rw [e1, e1, (h.frame.sel c).1, (h.frame.sel c).2]; rfl
  unfold decodeBlock
  rw [hval]
  split
  · have hz : Twin 1984 (zeroCoef s) (zeroCoef t) := by
      have hp : t.pred = s.pred := by rw [h.frame]
      have := h.store (Vector.replicate 64 0#32) s.pred
      have e : zeroCoef t = { t with coef := Vector.replicate 64 0#32, pred := s.pred } := by rw [zeroCoef, ← hp]
      rw [e]; exact this
    have hstep := dcStep_twin (c := c) (n := 31 * 63) hz (hc _)
    have hs := dcStep_sat c (zeroCoef s)
    cases hr : dcStep c (zeroCoef s) with
    | raised e u =>
      rw [hr] at hstep
      cases hr' : dcStep c (zeroCoef t) with
      | raised f v => rw [hr'] at hstep; exact hstep
      | ok b v => rw [hr'] at hstep; exact hstep.elim
    | ok a u =>
      rw [hr] at hstep hs
      cases hr' : dcStep c (zeroCoef t) with
      | raised f v => rw [hr'] at hstep; exact hstep.elim
      | ok b v =>
        rw [hr'] at hstep
        obtain ⟨-, huv⟩ := hstep
        obtain ⟨m, w, rfl, -⟩ := hs
        exact acLoop_twin (by omega) huv (hc _)
  · exact ⟨rfl, h.frame⟩

/-- The source side of a machine in order: the cursor inside its data, and no malformed pair ahead. -/
abbrev SourceOk (s : State) : Prop :=
  s.params.ok ∧ s.curPos ≤ 8 * s.curData.length ∧ (s.eoe = true ∨ (s.srcPos ≤ s.srcLen ∧ (destuff s).2.2 ≠ .malformed))

theorem topUp_source (h : SourceOk s) : ∃ u, topUp s = .ok () u ∧ FeedFrame s u ∧ SourceOk u ∧ unreadBits u ++ ahead u = unreadBits s ++ ahead s ∧
    (ahead u = [] ∨ 1984 ≤ avail u) := by
  obtain ⟨h1, h2, h3⟩ := h
  have hle : s.eoe = true ∨ s.srcPos ≤ s.srcLen := h3.imp id (fun h => h.1)
  have hs := topUp_sat h1 hle
  cases hr : topUp s with
  | raised e u =>
    exfalso
    rw [hr] at hs
    obtain ⟨D, k, hf, -, he, -, hm⟩ := hs
    have h3 := h3.resolve_left (by simp [he])
    have := hf.stuff h3.1
    rw [this, hm] at h3
    exact h3.2 rfl
  | ok a u =>
    rw [hr] at hs
    obtain ⟨D, k, hf, hlow, hstay, hend⟩ := hs
    refine ⟨u, rfl, hf.frame, ?_, ?_, ?_⟩
    · cases he : s.eoe with
      | true => rw [hstay he]; exact ⟨h1, h2, h3⟩
      | false =>
        have h3 := h3.resolve_left (by simp [he])
        refine ⟨by rw [hf.params]; exact h1, hf.bound h2, .inr ⟨hf.le h3.1, ?_⟩⟩
        have := hf.stuff h3.1
        rw [this] at h3
        exact h3.2
    · cases he : s.eoe with
      | true => rw [hstay he]
      | false =>
        have h3 := h3.resolve_left (by simp [he])
        rw [hf.unreadBits h2, List.append_assoc]
        congr 1
        have hst := hf.stuff h3.1
        have : ahead s = byteBits (destuff s).1 := by simp [ahead, he]
        rw [this, hst]
        simp only [byteBits_append]
        congr 1
        cases hu : u.eoe with
        | true => simp [ahead, hu, (hend he hu).1]
        | false => simp [ahead, hu]
    · rcases hlow with h | h
      · left; simp [ahead, h]
      · right
        have hb : u.curPos ≤ 8 * u.curData.length := by
          cases he : s.eoe with
          | true => rw [hstay he]; exact h2
          | false => exact hf.bound h2
        have := h1.2.2.2.1
        unfold tail at h
        unfold avail
        omega

theorem eof_twin (h : Twin 1984 s t) : eof s = eof t := by
  have key : ∀ {s t : State}, Twin 1984 s t → eof s = true → eof t = true := by
    intro s t h hs
    rw [eof_iff] at hs ⊢
    have ha : ahead s = [] := by
      refine h.left.resolve_right ?_
      rw [← length_unreadBits, hs]; simp
    have := h.same
    rw [hs, ha] at this
    simp at this
    exact this.1
  cases h1 : eof s <;> cases h2 : eof t <;> first | rfl | skip
  · rw [key h.symm h2] at h1; cases h1
  · rw [key h h1] at h2; cases h2

/-- Two machines that will go on in the same way. -/
structure Same (s t : State) : Prop where
  frame : TwinFrame s t
  bits : unreadBits s ++ ahead s = unreadBits t ++ ahead t
  left : SourceOk s
  right : SourceOk t
  codes : ∀ sel : Fin 8, s.tbl[sel].valid = true → codesOk s.tbl[sel].codes

theorem TwinFrame.trans3 {s s' t t' : State} (h : TwinFrame s t) (h1 : FeedFrame s s') (h2 : FeedFrame t t') : TwinFrame s' t' := by
  unfold TwinFrame FeedFrame at *
  rw [h2, h, h1]

theorem SourceOk.of_block {c : Fin 4} (h : SourceOk s) : (decodeBlock c s).Sat (fun _ u => SourceOk u) (fun _ _ => True) := by
  refine (decodeBlock_sat c s).mono ?_ (fun _ _ _ => trivial)
  rintro - u ⟨m, v, coef, rfl, hm, -⟩
  refine ⟨h.1, ?_, h.2.2⟩
  have := h.2.1
  unfold avail at hm
  simp; omega

theorem codes_block {c : Fin 4} : (decodeBlock c s).Sat (fun _ u => u.tbl = s.tbl) (fun _ _ => True) := by
  refine (decodeBlock_sat c s).mono ?_ (fun _ _ _ => trivial)
  rintro - u ⟨m, v, coef, rfl, hm, -⟩; rfl

theorem blockStep_same (h : Same s t) : (blockStep s).Rel (blockStep t) (fun _ u v => Same u v) (fun u v => TwinFrame u v) := by
  obtain ⟨u, hu, fu, su, bu, au⟩ := topUp_source h.left
  obtain ⟨v, hv, fv, sv, bv, av⟩ := topUp_source h.right
  unfold blockStep
  rw [hu, hv, Res.bind_ok, Res.bind_ok]
  have htw : Twin 1984 u v := ⟨h.frame.trans3 fu fv, by rw [bu, bv]; exact h.bits, au, av⟩
  have htbl : u.tbl = s.tbl := by rw [fu]
  have hc : ∀ sel : Fin 8, u.tbl[sel].valid = true → codesOk u.tbl[sel].codes := by rw [htbl]; exact h.codes
  rw [← eof_twin htw]
  split
  · exact ⟨rfl, htw.frame⟩
  · have hch : v.chIdx = u.chIdx := by rw [htw.frame]
    rw [hch]
    have hb := decodeBlock_twin (c := Fin.ofNat 4 u.chIdx) htw hc
    have h1 := su.of_block (c := Fin.ofNat 4 u.chIdx)
    have h2 := sv.of_block (c := Fin.ofNat 4 u.chIdx)
    have h3 := codes_block (s := u) (c := Fin.ofNat 4 u.chIdx)
    cases hr : decodeBlock (Fin.ofNat 4 u.chIdx) u with
    | raised e u' =>
      rw [hr] at hb
      cases hr' : decodeBlock (Fin.ofNat 4 u.chIdx) v with
      | raised f v' => rw [hr'] at hb; exact hb
      | ok b v' => rw [hr'] at hb; exact hb.elim
    | ok a u' =>
      rw [hr] at hb h1 h3
      cases hr' : decodeBlock (Fin.ofNat 4 u.chIdx) v with
      | raised f v' => rw [hr'] at hb; exact hb.elim
      | ok b v' =>
        rw [hr'] at hb h2
        obtain ⟨-, htw'⟩ := hb
        refine ⟨rfl, ?_, htw'.same, h1, h2, ?_⟩
        · have := htw'.frame
          unfold TwinFrame at this ⊢
          rw [this]; rfl
        · show ∀ sel : Fin 8, u'.tbl[sel].valid = true → codesOk u'.tbl[sel].codes
          rw [show u'.tbl = u.tbl from h3]; exact hc

theorem runLoop_same : ∀ (n : Nat) {s t : State}, Same s t → (runLoop n s).Rel (runLoop n t) (fun _ u v => TwinFrame u v) (fun u v => TwinFrame u v)
  | 0, s, t, h => ⟨rfl, h.frame⟩
  | n + 1, s, t, h => by
    have hf : t.mcuIdx = s.mcuIdx ∧ t.mcuStop = s.mcuStop ∧ t.numCh = s.numCh ∧ t.chIdx = s.chIdx ∧ t.blkIdx = s.blkIdx ∧ t.chCfg = s.chCfg := by
      rw [h.frame]; simp
    obtain ⟨f1, f2, f3, f4, f5, f6⟩ := hf
    have hb : ∀ c, blocksOf t c = blocksOf s c := fun c => by simp only [blocksOf, f6]
    unfold runLoop
    rw [f1, f2, f3, f4, f5, hb]
    split
    · split
      · refine runLoop_same n ⟨?_, h.bits, h.left, h.right, h.codes⟩
        have := h.frame
        unfold TwinFrame at this ⊢
        rw [this]; rfl
      · split
        · refine runLoop_same n ⟨?_, h.bits, h.left, h.right, h.codes⟩
          have := h.frame
          unfold TwinFrame at this ⊢
          rw [this]; rfl
        · exact (blockStep_same h).bind fun _ u v huv => runLoop_same n huv
    · exact ⟨rfl, h.frame⟩

end

theorem sameScan_of_frame {u v : State} (h : TwinFrame u v) : sameScanResult u v := by
  rw [h]; exact ⟨rfl, rfl, rfl, rfl, rfl, rfl, rfl, rfl, rfl, rfl, rfl, rfl⟩

end Sys2Proof.Machine
end

