-- ==== Sys2Proof/Laws/Walk.lean ====
section
/-! SUPPORT. The tree walk from any node answers what the contract answers (spec/41_huffman.md R151 to R153), and the nodes a
tree takes (R146). -/

namespace Sys2Proof.Machine

/-! ### The walk -/

theorem anyChild_iff (ch : Slots) : ∀ n i : Nat, anyChild ch n i = true ↔ ∃ j, i ≤ j ∧ j < i + n ∧ ch.get j ≠ .null
  | 0, i => by simp [anyChild]; omega
  | n + 1, i => by
    simp only [anyChild, Bool.or_eq_true, decide_eq_true_eq, anyChild_iff ch n (i + 1)]
    constructor
    · rintro (h | ⟨j, h1, h2, h3⟩)
      · exact ⟨i, by omega, by omega, h⟩
      · exact ⟨j, by omega, by omega, h3⟩
    · rintro ⟨j, h1, h2, h3⟩
      by_cases hj : j = i
      · subst hj; exact .inl h3
      · exact .inr ⟨j, by omega, by omega, h3⟩

theorem not_prefix_of_apart {u w U : List Bool} (h : apart u w) (hw : w <+: U) : ¬ u <+: U :=
  fun hu => (List.prefix_or_prefix_of_prefix hu hw).elim h.1 h.2

/-- The fetch at the end of the data (R152) at a node that `consumed` bits lead to. -/
theorem shortFetch_eq {sel : Fin 8} {s : State} {b n consumed : Nat} {ch : Slots} (hv : s.tbl[sel].valid = true)
    (hc : codesOk s.tbl[sel].codes)
    (hT : TreeOk b (fun e => e ∈ s.tbl[sel].codes) n ((unreadBits s).take consumed) ch) (hle : consumed ≤ avail s)
    (hshort : avail s - consumed < b) :
    shortFetch b ch consumed s (advance consumed s) = decodeSymbol sel s := by
  cases n with
  | zero => exact hT.elim
  | succ n =>
    obtain ⟨r, hr⟩ : ∃ r, avail s = consumed + r := ⟨avail s - consumed, by omega⟩
    have hrb : r < b := by omega
    have hav : avail (advance consumed s) = r := by simp; omega
    have hUlen : (unreadBits s).length = consumed + r := by simpa using hr
    -- the unread bits are the path and the bits of the fetch
    have hU : unreadBits s = (unreadBits s).take consumed ++ bitsOf r (peek (advance consumed s) r) := by
      rw [← take_unreadBits _ _ (by omega : r ≤ avail (advance consumed s)), unreadBits_advance,
        List.take_of_length_le (l := (unreadBits s).drop consumed) (by simp; omega), List.take_append_drop]
    have hPl : ((unreadBits s).take consumed).length = consumed := by simp; omega
    generalize hP : (unreadBits s).take consumed = P at *
    have hpk := peek_lt (advance consumed s) r
    generalize hreal : peek (advance consumed s) r = real at *
    have hpow : 2 ^ r * 2 ^ (b - r) = 2 ^ b := by rw [← Nat.pow_add]; congr 1; omega
    have hi0 : real * 2 ^ (b - r) < 2 ^ b := by
      rw [← hpow]; exact Nat.mul_lt_mul_of_pos_right hpk (Nat.two_pow_pos _)
    have hrange : ∀ i < 2 ^ b, unreadBits s <+: P ++ bitsOf b i ↔
        real * 2 ^ (b - r) ≤ i ∧ i < real * 2 ^ (b - r) + 2 ^ (b - r) := by
      intro i hi
      rw [hU, List.prefix_append_right_inj]
      exact chunk_range (Nat.le_of_lt hrb) rfl hpk hi
    have htop : real * 2 ^ (b - r) + 2 ^ (b - r) ≤ 2 ^ b := by
      rw [← hpow, ← Nat.succ_mul]; exact Nat.mul_le_mul_right _ hpk
    have hU0 : unreadBits s <+: P ++ bitsOf b (real * 2 ^ (b - r)) :=
      (hrange _ hi0).2 ⟨Nat.le_refl _, by have := Nat.two_pow_pos (b - r); omega⟩
    obtain ⟨hsz, hslots⟩ := hT
    -- the state after the fetch
    have hfetch : (if r = 0 then Res.ok 0 (advance consumed s) else nextBits r (advance consumed s)) =
        .ok real (advance (consumed + r) s) := by
      split
      · next h0 =>
        subst h0
        have : real = 0 := by simpa using hpk
        simp [this]
      · rw [nextBits_ok (by omega), hreal, advance_advance]
    unfold shortFetch
    simp only [hav, hfetch, Res.bind_ok]
    have hi' := hslots _ hi0
    revert hi'
    cases hg : ch.get (real * 2 ^ (b - r)) with
    | leaf y l =>
      rintro ⟨e, he, rfl, rfl, hlen, hpre⟩
      simp only
      split
      · next hl =>
        have hm : codeBits e <+: unreadBits s := List.prefix_of_prefix_length_le hpre hU0 (by simp; omega)
        rw [decodeSymbol_match hv hc he hm, backBits_ok (by simp; omega)]
        have e1 : consumed + r = e.len + (consumed + r - e.len) := by omega
        rw [Res.bind_ok]
        conv_lhs => rw [e1, Nat.add_sub_cancel_left, rewind_advance_add]
      · next hl =>
        have hx : unreadBits s <+: codeBits e := List.prefix_of_prefix_length_le hU0 hpre (by simp; omega)
        rw [decodeSymbol_exhausted hv hc (fun e' he' hm => ?_) he hx]
        have := eq_of_prefixes hc he' he (.inl (hm.trans hx))
        subst this
        have := hm.length_le
        simp at this
        omega
    | null =>
      intro hnull
      simp only
      have hno : ∀ e ∈ s.tbl[sel].codes, ¬ codeBits e <+: unreadBits s := fun e he hm => (hnull e he).1 (hm.trans hU0)
      split
      · next ha =>
        obtain ⟨j, hj1, hj2, hj3⟩ := (anyChild_iff ..).1 ha
        have hj : j < 2 ^ b := by omega
        have hUj := (hrange j hj).2 ⟨hj1, hj2⟩
        have hj' := hslots j hj
        revert hj'
        cases hgj : ch.get j with
        | null => exact absurd hgj hj3
        | leaf y l =>
          rintro ⟨e, he, -, -, -, hpre⟩
          rcases List.prefix_or_prefix_of_prefix hpre hUj with h | h
          · exact absurd h (hno e he)
          · rw [decodeSymbol_exhausted hv hc hno he h]
        | node c =>
          rintro ⟨⟨e, he, hpre, -⟩, -⟩
          rw [decodeSymbol_exhausted hv hc hno he (hUj.trans hpre)]
      · next ha =>
        rw [decodeSymbol_failed hv hc hno (fun e he hx => ha ((anyChild_iff ..).2 ?_))]
        -- some slot in range lies on the way to `e`
        obtain ⟨w, hw⟩ := hx
        have hchunk : ∃ j < 2 ^ b, unreadBits s <+: P ++ bitsOf b j ∧
            (codeBits e <+: P ++ bitsOf b j ∨ P ++ bitsOf b j <+: codeBits e) := by
          have hlen : (bitsOf r real ++ (w ++ List.replicate b false).take (b - r)).length = b := by simp; omega
          obtain ⟨j, hj, hjw⟩ := exists_chunk (bitsOf r real ++ (w ++ List.replicate b false).take (b - r))
          rw [hlen] at hj hjw
          refine ⟨j, hj, ?_, ?_⟩
          · rw [hjw, hU, ← List.append_assoc, ← hU]; exact List.prefix_append ..
          · rw [hjw, ← hw, ← List.append_assoc, ← hU, List.prefix_append_right_inj, List.prefix_append_right_inj]
            by_cases hwl : w.length ≤ b - r
            · left
              rw [List.take_append, List.take_of_length_le hwl]
              exact List.prefix_append ..
            · right
              rw [List.take_append_of_le_length (by omega)]
              exact List.take_prefix ..
        obtain ⟨j, hj, hUj, hej⟩ := hchunk
        have hr1 := (hrange j hj).1 hUj
        refine ⟨j, hr1.1, hr1.2, fun hgj => ?_⟩
        have hj' := hslots j hj
        rw [hgj] at hj'
        exact hej.elim (hj' e he).1 (hj' e he).2
    | node c =>
      rintro ⟨⟨e, he, hpre, -⟩, -⟩
      simp only
      have hx := hU0.trans hpre
      rw [decodeSymbol_exhausted hv hc (fun e' he' hm => ?_) he hx]
      have := eq_of_prefixes hc he' he (.inl (hm.trans hx))
      subst this
      have h1 := hm.length_le
      have h2 := hpre.length_le
      simp at h1 h2
      omega

/-- The walk at a node that `consumed` bits lead to (R151). -/
theorem walkFrom_eq {sel : Fin 8} {s : State} {b : Nat} (hv : s.tbl[sel].valid = true) (hc : codesOk s.tbl[sel].codes) :
    ∀ (n levels consumed : Nat) (ch : Slots),
      TreeOk b (fun e => e ∈ s.tbl[sel].codes) n ((unreadBits s).take consumed) ch → n ≤ levels → consumed ≤ avail s →
      walkFrom b levels ch consumed s (advance consumed s) = decodeSymbol sel s
  | 0, _, _, _, h, _, _ => h.elim
  | n + 1, 0, _, _, _, h, _ => by omega
  | n + 1, levels + 1, consumed, ch, hT, hl, hle => by
    unfold walkFrom
    by_cases hb : b ≤ avail (advance consumed s)
    · rw [if_pos hb, nextBits_ok hb, Res.bind_ok]
      rw [avail_advance] at hb
      -- the path with the chunk just read
      have hP : (unreadBits s).take consumed ++ bitsOf b (peek (advance consumed s) b) =
          (unreadBits s).take (consumed + b) := by
        rw [← take_unreadBits _ _ (by simpa using hb), unreadBits_advance, ← List.take_add]
      have hPU : (unreadBits s).take (consumed + b) <+: unreadBits s := List.take_prefix ..
      have hPl : ((unreadBits s).take (consumed + b)).length = consumed + b := by simp; omega
      have hi' := hT.2 _ (peek_lt (advance consumed s) b)
      revert hi'
      cases ch.get (peek (advance consumed s) b) with
      | null =>
        intro hnull
        simp only
        rw [hP] at hnull
        rw [decodeSymbol_failed hv hc (fun e he => not_prefix_of_apart (hnull e he) hPU)
          (fun e he hx => (hnull e he).2 (hPU.trans hx))]
      | leaf y l =>
        rintro ⟨e, he, rfl, rfl, -, hpre⟩
        simp only
        rw [hP] at hpre
        have hlen := hpre.length_le
        rw [hPl, length_codeBits] at hlen
        rw [decodeSymbol_match hv hc he (hpre.trans hPU), backBits_ok (by simp; omega), Res.bind_ok, advance_advance]
        have e1 : consumed + b = e.len + (consumed + b - e.len) := by omega
        conv_lhs => rw [e1, Nat.add_sub_cancel_left, rewind_advance_add]
      | node c =>
        rintro ⟨-, hsub⟩
        simp only
        rw [hP] at hsub
        rw [advance_advance]
        exact walkFrom_eq hv hc n levels (consumed + b) c hsub (by omega) (by omega)
    · rw [if_neg hb]
      rw [avail_advance] at hb
      exact shortFetch_eq hv hc hT hle (by omega)

/-! ### The nodes of a tree -/

theorem Slots.nodes_fresh : ∀ n : Nat, (Slots.fresh n).nodes = 0
  | 0 => rfl
  | n + 1 => by simp [Slots.fresh, Slots.nodes, Slot.nodes, Slots.nodes_fresh n]

theorem Slots.nodes_set (x : Slot) : ∀ (ch : Slots) (i : Nat), (ch.set i x).nodes + (ch.get i).nodes ≤ ch.nodes + x.nodes
  | .nil, _ => by simp [Slots.set, Slots.get, Slots.nodes, Slot.nodes]
  | .cons s rest, 0 => by simp [Slots.set, Slots.get, Slots.nodes]; omega
  | .cons s rest, i + 1 => by
    have := Slots.nodes_set x rest i
    simp [Slots.set, Slots.get, Slots.nodes]
    omega

theorem fanOut_nodes {y : Byte} {l : Nat} : ∀ (n i : Nat) (ch ch' : Slots), fanOut (.leaf y l) n i ch = some ch' →
    ch'.nodes ≤ ch.nodes
  | 0, _, ch, ch', h => by simp [fanOut] at h; simp [h]
  | n + 1, i, ch, ch', h => by
    unfold fanOut at h
    split at h
    · have h1 := fanOut_nodes n (i + 1) _ _ h
      have h2 := Slots.nodes_set (.leaf y l) ch i
      simp only [Slot.nodes] at h2
      omega
    · simp at h

/-- The levels below the first that `rem` bits take. -/
theorem ceilDiv_sub {rem b : Nat} (hb : 1 ≤ b) (h : b < rem) : ceilDiv rem b = ceilDiv (rem - b) b + 1 ∧ 1 ≤ ceilDiv (rem - b) b := by
  have e : rem + b - 1 = (rem - b + b - 1) + b := by omega
  constructor
  · rw [ceilDiv, e, Nat.add_div_right _ (by omega)]
    rfl
  · exact (Nat.one_le_div_iff (by omega)).2 (by omega)

/-- Inserting one code adds at most one node for each level below the first (R146). -/
theorem insertCode_nodes {b : Nat} (hb : 1 ≤ b) {e : CodeEntry} : ∀ (levels rem : Nat) (ch ch' : Slots),
    insertCode b e levels rem ch = some ch' → ch'.nodes ≤ ch.nodes + (ceilDiv rem b - 1)
  | 0, _, _, _, h => by simp [insertCode] at h
  | levels + 1, rem, ch, ch', h => by
    unfold insertCode at h
    by_cases hlt : b < rem
    · rw [if_pos hlt] at h
      obtain ⟨hc1, hc2⟩ := ceilDiv_sub hb hlt
      generalize e.code / 2 ^ (rem - b) % 2 ^ b = i at h
      have hset := fun c => Slots.nodes_set (.node c) ch i
      revert h
      cases hg : ch.get i with
      | null =>
        intro h
        simp only [Option.map_eq_some_iff] at h
        obtain ⟨c, h1, rfl⟩ := h
        have h2 := insertCode_nodes hb levels (rem - b) _ _ h1
        have h3 := hset c
        rw [hg] at h3
        simp only [Slot.nodes, Slots.nodes_fresh] at h2 h3
        omega
      | leaf y l => intro h; simp at h
      | node c0 =>
        intro h
        simp only [Option.map_eq_some_iff] at h
        obtain ⟨c, h1, rfl⟩ := h
        have h2 := insertCode_nodes hb levels (rem - b) _ _ h1
        have h3 := hset c
        rw [hg] at h3
        simp only [Slot.nodes] at h3
        omega
    · rw [if_neg hlt] at h
      have := fanOut_nodes _ _ _ _ h
      omega

theorem ceilDiv_mono {x y : Nat} (b : Nat) (h : x ≤ y) : ceilDiv x b ≤ ceilDiv y b :=
  Nat.div_le_div_right (by omega)

theorem insertCodes_nodes {b : Nat} (hb : 1 ≤ b) : ∀ (es : List CodeEntry) (ch ch' : Slots), (∀ e ∈ es, e.len ≤ lenMax) →
    insertCodes b es ch = some ch' → ch'.nodes ≤ ch.nodes + es.length * (ceilDiv lenMax b - 1)
  | [], ch, ch', _, h => by simp [insertCodes] at h; simp [h]
  | e :: es, ch, ch', hl, h => by
    unfold insertCodes at h
    split at h
    · next ch1 h1 =>
      have h2 := insertCode_nodes hb _ _ _ _ h1
      have h3 := insertCodes_nodes hb es ch1 ch' (fun x hx => hl x (by simp [hx])) h
      have h4 := ceilDiv_mono b (hl e (by simp))
      have h5 : (e :: es).length * (ceilDiv lenMax b - 1) = es.length * (ceilDiv lenMax b - 1) + (ceilDiv lenMax b - 1) := by
        rw [List.length_cons, Nat.succ_mul]
      omega
    · simp at h

end Sys2Proof.Machine
end

