-- ==== Sys2Proof/Tests/Slice0.lean ====
section
/-! SUPPORT. Tests: ill-formed terms, words written out from the spec's encodings, at most two single steps for each
instruction with the values of spec/95_test_vectors.md, and a witness for the hypotheses of each statement. -/

open Sys2Proof
open Sys2Proof.Machine

namespace Sys2Proof.Tests

/-! ### Well-formedness: what the checks refuse -/

theorem test_wf_refuses_nextbits_0 : (Instr.nextbits 0).wf = false := by decide
theorem test_wf_refuses_nextbits_26 : (Instr.nextbits 26).wf = false := by decide
theorem test_wf_refuses_backbits_26 : (Instr.backbits 26).wf = false := by decide
theorem test_wf_refuses_runsize_s0 : (Instr.runsize 3 0).wf = false := by decide
theorem test_wf_refuses_acrsvd_0 : (Instr.acrsvd 0).wf = false := by decide
theorem test_wf_refuses_acrsvd_15 : (Instr.acrsvd 15).wf = false := by decide
theorem test_wf_refuses_dcrsvd_15 : (Instr.dcrsvd 0x0F#8).wf = false := by decide
theorem test_wf_refuses_marker_0 : (Instr.marker 0x00#8).wf = false := by decide
theorem test_wf_refuses_marker_255 : (Instr.marker 0xFF#8).wf = false := by decide
theorem test_wf_refuses_marker_eoi : (Instr.marker 0xD9#8).wf = false := by decide

/-! ### Decoding: one word for each constructor, from the encodings of R81, R88 and R90 -/

theorem test_decode_nop : decode (.cmd 0b00000000000000000000000000000000#32) = .ok .nop := by decide
theorem test_decode_reset : decode (.cmd 0b00000000000000000000000000000001#32) = .ok .reset := by decide
theorem test_decode_clear : decode (.cmd 0b00000000000000000000000000000010#32) = .ok .clear := by decide
theorem test_decode_append : decode (.cmd 0b00000000000000001010010100000011#32) = .ok (.append 0xA5#8) := by decide
theorem test_decode_nextbits : decode (.cmd 0b00000000000000000001100100000100#32) = .ok (.nextbits 25) := by decide
theorem test_decode_backbits : decode (.cmd 0b00000000000000000000011100000101#32) = .ok (.backbits 7) := by decide
theorem test_decode_align : decode (.cmd 0b00000000000000000000000000000110#32) = .ok .align := by decide
theorem test_decode_load_table : decode (.cmd 0b00000000000000000000010100000111#32) = .ok (.loadTable 5) := by decide
theorem test_decode_decode_sym : decode (.cmd 0b00000000000000000000010000001000#32) = .ok (.decodeSym 4) := by decide
theorem test_decode_refill : decode (.cmd 0b00000000000000000000000000001001#32) = .ok .refill := by decide
theorem test_decode_decode_block : decode (.cmd 0b00000000000000000000001000001010#32) = .ok (.decodeBlock 2) := by decide
theorem test_decode_start_scan : decode (.cmd 0b00000000000000000000000000001011#32) = .ok .startScan := by decide
theorem test_decode_run : decode (.cmd 0b00000000000000000000000000001100#32) = .ok .run := by decide
theorem test_decode_pred_reset : decode (.cmd 0b00000000000000000000000000001101#32) = .ok .predReset := by decide
theorem test_decode_resync : decode (.cmd 0b00000000000000000000000000001110#32) = .ok .resync := by decide
theorem test_decode_eob : decode (.acSym 0b00000000#8) = .ok .eob := by decide
theorem test_decode_zrl : decode (.acSym 0b11110000#8) = .ok .zrl := by decide
theorem test_decode_runsize : decode (.acSym 0b00100011#8) = .ok (.runsize 2 3) := by decide
theorem test_decode_acrsvd : decode (.acSym 0b11100000#8) = .ok (.acrsvd 14) := by decide
theorem test_decode_dcsize : decode (.dcSym 0b00001011#8) = .ok (.dcsize 11) := by decide
theorem test_decode_dcrsvd : decode (.dcSym 0b00010101#8) = .ok (.dcrsvd 0x15#8) := by decide
theorem test_decode_stuff : decode (.esc 0b1111111100000000#16) = .ok .stuff := by decide
theorem test_decode_eoi : decode (.esc 0b1111111111011001#16) = .ok .eoi := by decide
theorem test_decode_marker : decode (.esc 0b1111111111010000#16) = .ok (.marker 0xD0#8) := by decide
theorem test_decode_badesc : decode (.esc 0b1111111111111111#16) = .ok .badesc := by decide
/-- V80. -/
theorem test_decode_rejects :
    decode (.cmd 0x00010000#32) = .error .reservedBits ∧ decode (.cmd 0x0000000F#32) = .error .unknownOpcode ∧
    decode (.cmd 0x00000004#32) = .error .badArgument ∧ decode (.cmd 0x00000807#32) = .error .badArgument ∧
    decode (.cmd 0x0000040A#32) = .error .badArgument ∧ decode (.cmd 0x00000101#32) = .error .badArgument ∧
    decode (.esc 0xFE00#16) = .error .notEscape := by decide

/-! ### Small states -/

/-- The codes of the tables of spec/95_test_vectors.md, written out from its list of codewords. -/
def codesAB : List CodeEntry := [⟨0, 2, 0x41#8⟩, ⟨2, 3, 0x42#8⟩]
def codesDC : List CodeEntry := [⟨0, 2, 0x00#8⟩, ⟨1, 2, 0x02#8⟩, ⟨4, 3, 0x03#8⟩, ⟨5, 3, 0x05#8⟩]
def codesAC : List CodeEntry :=
  [⟨0, 2, 0x00#8⟩, ⟨2, 3, 0x01#8⟩, ⟨3, 3, 0x12#8⟩, ⟨8, 4, 0xF0#8⟩, ⟨9, 4, 0x23#8⟩]
def codesAC2 : List CodeEntry :=
  [⟨0, 2, 0x00#8⟩, ⟨2, 3, 0x01#8⟩, ⟨3, 3, 0x31#8⟩, ⟨8, 4, 0xF0#8⟩, ⟨9, 4, 0x41#8⟩, ⟨10, 4, 0x10#8⟩]
def codesEDC : List CodeEntry := [⟨0, 2, 0x00#8⟩]
def codesEAC : List CodeEntry := [⟨0, 1, 0x00#8⟩]

/-- A valid table of the given codes, its tree for one bit a level. -/
def tableOf (codes : List CodeEntry) : Table :=
  { valid := true, codes := codes, tree := (insertAll 1 codes).getD .nil }

/-- The reset state with bytes in the cursor, read up to a position inside the rewind window. -/
def cursorAt (bytes : List Byte) (pos : Nat) : State :=
  { State.reset with curData := bytes, curPos := pos, curBackable := pos }

/-- A state with a DC table and an AC table for channel 0. -/
def withTables (dc ac : List CodeEntry) (s : State) : State :=
  { s with tbl := (s.tbl.set 0 (tableOf dc)).set 4 (tableOf ac) }

/-- The reset state with source bytes from index 0 and `SRC_LEN` at their end. -/
def sourceOf (bytes : List Byte) : State :=
  { State.reset with src := Memory.ofBytes 0 bytes, srcLen := BitVec.ofNat 32 bytes.length }

/-- Scan setup E of spec/95_test_vectors.md with its two source bytes already in the cursor, the source at its end: one
channel of one block, a scan of `count` MCUs, stopping at `stop`. -/
def scanE (count stop : Word) : State :=
  { withTables codesEDC codesEAC (cursorAt [0x00#8, 0x00#8] 0) with
    mode := .active, eoe := true, numCh := 1#3, chCfg := State.reset.chCfg.set 0 0x001#12, mcuCount := count, mcuStop := stop }

/-- A state in FAULT with code 1. -/
def faulted : State := raise .streamExhausted State.reset

/-- What is read off the state an instruction ends in, when it ends in one. -/
def after {α : Type} (o : Host.Outcome State Fault Refusal) (f : State → α) : Option α :=
  match o with
  | .next s => some (f s)
  | .fault _ => none
  | .refused _ => none

/-- The cursor's bytes, position and rewind window, and `BITPOS`. -/
def cursorOf (s : State) : List Byte × Nat × Nat × Word := (s.curData, s.curPos, s.curBackable, s.bitpos)

/-- `STATUS` and `ERR` as the host reads them. -/
def statusErr (s : State) : Word × Word := (readReg s .status, readReg s .err)

/-! ### Single steps of the commands -/

/-- V82. -/
theorem test_nop : after (exec .nop (cursorAt [0xA5#8] 3)) cursorOf = some ([0xA5#8], 3, 3, 0#32) := by decide
/-- V81, last line. -/
theorem test_reset : after (exec .reset faulted) statusErr = some (4#32, 0#32) := by decide
/-- V13, last line. -/
theorem test_clear : after (exec .clear { cursorAt [0x12#8, 0x34#8] 9 with bitpos := 9#32 }) cursorOf = some ([], 0, 0, 0#32) := by
  decide
/-- V12: the consumed byte is dropped and the rewind window closes. -/
theorem test_append : after (exec (.append 0x7E#8) { cursorAt [0xA5#8, 0x3C#8] 10 with bitpos := 10#32 }) cursorOf =
    some ([0x3C#8, 0x7E#8], 2, 0, 10#32) := by decide
/-- V10, step 5. -/
theorem test_nextbits : after (exec (.nextbits 7) (cursorAt [0xA5#8, 0x3C#8] 3)) State.result = some 20#32 := by decide
/-- V11, the last read: nothing moves. -/
theorem test_nextbits_short : after (exec (.nextbits 9) (cursorAt [0x80#8] 0)) (fun s => (statusErr s, s.curPos)) =
    some ((3#32, 1#32), 0) := by decide
/-- V13, the borrow across a byte boundary. -/
theorem test_backbits : after (exec (.backbits 3) { cursorAt [0x12#8, 0x34#8, 0x56#8] 17 with bitpos := 17#32 }) cursorOf =
    some ([0x12#8, 0x34#8, 0x56#8], 14, 14, 14#32) := by decide
/-- V12, the second variant: the window is closed. -/
theorem test_backbits_closed : after (exec (.backbits 1) { cursorAt [0x3C#8, 0x7E#8] 2 with curBackable := 0 }) statusErr =
    some (3#32, 8#32) := by decide
/-- V13. -/
theorem test_align : after (exec .align (cursorAt [0x12#8, 0x34#8, 0x56#8] 14)) (fun s => (s.curPos, s.curBackable)) =
    some (16, 16) := by decide
/-- V20. -/
theorem test_load_table :
    after (exec (.loadTable 0) { State.reset with
      tblCnt := (State.reset.tblCnt.set 1 1#8).set 2 1#8
      tblSym := (State.reset.tblSym.set 0 0x41#8).set 1 0x42#8 }) (fun s => (s.tbl[(0 : Fin 8)].codes, readReg s .tblValid)) =
    some (codesAB, 1#32) := by decide +kernel
/-- V22, the first row. -/
theorem test_load_table_rejects :
    after (exec (.loadTable 0) { State.reset with tblCnt := State.reset.tblCnt.set 0 3#8 }) statusErr = some (7#32, 4#32) := by
  decide +kernel
/-- V23, row 1. -/
theorem test_decode_sym : after (exec (.decodeSym 0) (withTables codesAB [] (cursorAt [0x50#8] 0))) (fun s => (s.result, s.curPos)) =
    some (0x42#32, 3) := by decide
/-- V23, row 4. -/
theorem test_decode_sym_short : after (exec (.decodeSym 0) (withTables codesAB [] (cursorAt [0xFE#8] 7))) statusErr =
    some (3#32, 1#32) := by decide
/-- V30, `CHUNK = 1`, the second batch, which examines `FF 00`. -/
theorem test_refill :
    after (exec .refill { sourceOf [0x12#8, 0xFF#8, 0x00#8, 0x34#8, 0xFF#8, 0xD9#8] with srcPos := 1#32, curData := [0x12#8] })
      (fun s => (s.curData, s.srcPos, s.eoe)) = some ([0x12#8, 0xFF#8], 3#32, false) := by decide
/-- V34. -/
theorem test_refill_past_end : after (exec .refill { State.reset with srcPos := 4#32, srcLen := 3#32 }) statusErr = some (7#32, 8#32) := by
  decide
/-- V40, the state form. -/
theorem test_decode_block :
    after (exec (.decodeBlock 0)
      { withTables codesDC codesAC (cursorAt [0x8D#8, 0x5B#8, 0x13#8, 0x8F#8] 0) with pred := State.reset.pred.set 0 10#32 })
      (fun s => (s.coef.toList.filter (· ≠ 0#32), s.coef[(22 : Fin 64)], s.pred[(0 : Fin 4)], s.bitpos)) =
    some ([6#32, 1#32, 0xFFFFFFFE#32, 6#32], 6#32, 6#32, 28#32) := by decide +kernel
/-- V47, row 1: the DC step is done although the block faults. -/
theorem test_decode_block_cut :
    after (exec (.decodeBlock 0) (withTables codesDC codesAC (cursorAt [0x8D#8] 0)))
      (fun s => (statusErr s, s.pred[(0 : Fin 4)], s.coef[(0 : Fin 64)], s.bitpos)) =
    some ((3#32, 1#32), 0xFFFFFFFC#32, 0xFFFFFFFC#32, 6#32) := by decide +kernel
/-- V68: during a scan. -/
theorem test_start_scan :
    after (exec .startScan { scanE 4#32 2#32 with mcuIdx := 2#32, srcPos := 2#32, bitpos := 6#32 })
      (fun s => (readReg s .status, s.mcuIdx, s.bitpos, s.srcPos)) = some (5#32, 0#32, 0#32, 2#32) := by decide
/-- V60: the product `2^32`. -/
theorem test_start_scan_product :
    after (exec .startScan { State.reset with numCh := 1#3, chCfg := State.reset.chCfg.set 0 2#12, mcuCount := 0x80000000#32 })
      statusErr = some (7#32, 8#32) := by decide
/-- V64, the first RUN. -/
theorem test_run : after (exec .run (scanE 4#32 2#32)) (fun s => (readReg s .status, s.mcuIdx, s.outCount, s.bitpos)) =
    some (9#32, 2#32, 2#32, 6#32) := by decide +kernel
/-- V65 (b): the sixth block is cut short. -/
theorem test_run_cut : after (exec .run (scanE 6#32 6#32)) (fun s => (statusErr s, s.errMcu, s.outCount, s.bitpos)) =
    some ((0xB#32, 1#32), 5#32, 5#32, 15#32) := by decide +kernel
/-- V71. -/
theorem test_pred_reset : after (exec .predReset { State.reset with pred := State.reset.pred.set 2 6#32 }) (fun s => s.pred.toList) =
    some [0#32, 0#32, 0#32, 0#32] := by decide
/-- P2, after the first RUN. -/
theorem test_resync :
    after (exec .resync { cursorAt [0x96#8, 0xE4#8] 13 with eoe := true, bitpos := 37#32 }) (fun s => (cursorOf s, s.eoe)) =
    some (([], 0, 0, 37#32), false) := by decide

/-! ### Single steps of the stream codes -/

/-- The block decoder of channel 0 waiting for an AC symbol. -/
def atAc (k : Nat) (s : State) : State := { s with unit := .ac 0 k }
/-- The block decoder of channel 0 waiting for its DC symbol. -/
def atDc (s : State) : State := { s with unit := .dc 0 }
/-- The refiller at an escape pair it may still examine whole. -/
def atPair (left : Nat) (s : State) : State := { s with unit := .refill left }

/-- V41. -/
theorem test_eob : after (exec .eob (atAc 1 State.reset)) (fun s => (s.unit, s.curPos)) = some (.idle, 0) := by decide
/-- V45 (a): the third ZRL ends the block. -/
theorem test_zrl : after (exec .zrl (atAc 48 State.reset)) State.unit = some .idle := by decide
/-- V45 (b). -/
theorem test_zrl_overflow : after (exec .zrl (atAc 49 State.reset)) statusErr = some (7#32, 5#32) := by decide
/-- V40: symbol 23 at index 20, field 110. -/
theorem test_runsize :
    after (exec (.runsize 2 3) (atAc 20 (cursorAt [0xC0#8] 0))) (fun s => (s.coef[(22 : Fin 64)], s.unit, s.curPos)) =
    some (6#32, .ac 0 23, 3) := by decide
/-- V44: symbol 41 at index 60. -/
theorem test_runsize_overflow : after (exec (.runsize 4 1) (atAc 60 (cursorAt [0xC0#8] 0))) (fun s => (statusErr s, s.curPos)) =
    some ((3#32, 5#32), 0) := by decide
/-- V46 (a). -/
theorem test_acrsvd : after (exec (.acrsvd 1) (atAc 2 (cursorAt [0xFF#8] 0))) statusErr = some (3#32, 6#32) := by decide
/-- V51: the predictor wraps. -/
theorem test_dcsize :
    after (exec (.dcsize 2) (atDc { cursorAt [0xC0#8] 0 with pred := State.reset.pred.set 0 0x7FFFFFFF#32 }))
      (fun s => (s.pred[(0 : Fin 4)], s.coef[(0 : Fin 64)], s.unit)) = some (0x80000002#32, 0x80000002#32, .ac 0 1) := by decide
/-- V6 (b): size 0 reads nothing, coefficient 0 is the previous predictor. -/
theorem test_dcsize_0 :
    after (exec (.dcsize 0) (atDc { State.reset with pred := State.reset.pred.set 0 7#32 }))
      (fun s => (s.pred[(0 : Fin 4)], s.coef[(0 : Fin 64)], s.curPos)) = some (7#32, 7#32, 0) := by decide
/-- V46 (b). -/
theorem test_dcrsvd : after (exec (.dcrsvd 0x15#8) (atDc (cursorAt [0xA0#8] 3))) (fun s => (statusErr s, s.pred[(0 : Fin 4)])) =
    some ((3#32, 6#32), 0#32) := by decide
/-- V33: one byte for the pair. -/
theorem test_stuff : after (exec .stuff (atPair 4 (sourceOf [0xFF#8, 0x00#8, 0xFF#8, 0x00#8]))) (fun s => (s.curData, s.srcPos, s.unit)) =
    some ([0xFF#8], 2#32, .refill 2) := by decide
/-- V31, row 3. -/
theorem test_eoi : after (exec .eoi (atPair 2 (sourceOf [0xFF#8, 0xD9#8]))) (fun s => (s.curData, s.srcPos, readReg s .status)) =
    some ([], 0#32, 0xC#32) := by decide
/-- V31, row 7. -/
theorem test_marker : after (exec (.marker 0x01#8) (atPair 3 { sourceOf [0x11#8, 0xFF#8, 0x01#8, 0x22#8] with srcPos := 1#32 }))
    (fun s => (s.srcPos, s.eoe, s.unit)) = some (1#32, true, .idle) := by decide
/-- V32. -/
theorem test_badesc : after (exec .badesc (atPair 2 { sourceOf [0x12#8, 0xFF#8, 0xFF#8, 0xD9#8] with srcPos := 1#32 }))
    (fun s => (statusErr s, s.srcPos, s.eoe)) = some ((7#32, 3#32), 1#32, false) := by decide

/-! ### The step -/

/-- R22, R220: a write of 0x0000A503 at offset 0 appends `A5`. -/
theorem test_step_command : after (step { State.reset with script := [.write .word 0x000 0x0000A503#32] }) (fun s => (s.curData, s.script)) =
    some ([0xA5#8], []) := by decide
/-- R94, R83: a bit count that `ARG` does not hold sets a reserved bit of the word, which is illegal. -/
theorem test_script_nextbits : commandAccess (.nextbits 257) = [.write .word 0x000 0x00010104#32] ∧
    commandAccess (.backbits 25) = [.write .word 0x000 0x00001905#32] ∧
    after (executeWord 0x00010104#32 State.reset) statusErr = some (7#32, 8#32) := by decide

/-- A read of `CUR_AVAIL`, offset 0x050 (R22). -/
theorem test_step_read : after (step { cursorAt [0xA5#8] 3 with script := [.read .word 0x050] }) State.lastRead = some 5#32 := by decide
/-- R66: offset 0x068 is unmapped. -/
theorem test_step_unmapped : step { State.reset with script := [.read .word 0x068] } = .refused .badRegisterAccess := rfl
/-- V42: the rows of `S = 3` and `S = 15`. -/
theorem test_extend : extend 3 3 = -4 ∧ extend 6 3 = 6 ∧ extend 0 15 = -32767 ∧ extend 16384 15 = 16384 := by decide
/-- V25, `ARY_LOG2 = 1`: the walk finds the symbol and consumes three bits. -/
theorem test_walk :
    (match walkSymbol 0 (withTables codesAB [] (cursorAt [0x4F#8] 0)) with
      | .ok y s => some (y, s.curPos)
      | .raised _ _ => none) = some (0x42#8, 3) := by decide

/-! ### Witnesses: concrete states and operands that meet the hypotheses of each statement, clause by clause, at the ends of
their ranges -/

/-- A scan that is under way, its cursor part read, two blocks out: a state that meets the invariant. -/
def busy : State :=
  { withTables codesDC codesAC (cursorAt [0x8D#8, 0x5B#8, 0x13#8, 0x8F#8] 0) with
    mode := .active, numCh := 1#3, chCfg := State.reset.chCfg.set 0 0x001#12, mcuCount := 9#32, mcuStop := 5#32
    mcuIdx := 2#32, outCount := 2#32, out := [Vector.replicate 64 0#32, Vector.replicate 64 0#32]
    src := Memory.ofBytes 0 [0x12#8, 0xFF#8, 0x00#8, 0x34#8], srcLen := 4#32, coef := State.reset.coef.set 1 (-32767#32) }

/-- O1: an instruction at the end of each operand range. -/
theorem witness_DecodeOfEncodeIsIdentity :
    (Instr.nextbits 1).wf = true ∧ (Instr.nextbits 25).wf = true ∧ (Instr.backbits 0).wf = true ∧ (Instr.backbits 25).wf = true ∧
    (Instr.runsize 15 15).wf = true ∧ (Instr.acrsvd 1).wf = true ∧ (Instr.acrsvd 14).wf = true ∧ (Instr.dcrsvd 0x10#8).wf = true ∧
    (Instr.dcrsvd 0xFF#8).wf = true ∧ (Instr.marker 0x01#8).wf = true ∧ (Instr.marker 0xFE#8).wf = true := by decide

/-- O2. -/
theorem witness_DecodedCodeIsTheEncoding : decode (.acSym 0xFF#8) = .ok (.runsize 15 15) := by decide

/-- O4: NEXTBITS with 26 is illegal, with 25 legal; a state outside FAULT and one in it. -/
theorem witness_IllegalCommandWords :
    ((0x00001A04#32 : Word).toNat % 256 = 0x04 ∧ 25 < (0x00001A04#32 : Word).toNat / 256 % 256) ∧
    (0x00001904#32 : Word).toNat / 65536 = 0 ∧ (0x00001904#32 : Word).toNat / 256 % 256 = 25 ∧
    State.reset.mode ≠ .fault ∧ faulted.mode = .fault := by decide

/-- O5, its four clauses. -/
theorem witness_StepRunsDecodedInstruction :
    (State.reset.unit = .idle ∧ decodeCmd 0x0000A503#32 = .ok (.append 0xA5#8)) ∧
    (∃ t, (atDc busy).unit = .dc 0 ∧ decodeSymbol (dcSel (atDc busy) 0) (atDc busy) = .ok 0x03#8 t) ∧
    (∃ t, (atAc 1 (withTables [] codesAC (cursorAt [0x4F#8] 0))).unit = .ac 0 1 ∧
      decodeSymbol (acSel (atAc 1 (withTables [] codesAC (cursorAt [0x4F#8] 0))) 0) (atAc 1 (withTables [] codesAC (cursorAt [0x4F#8] 0))) =
        .ok 0x01#8 t) ∧
    ((atPair 1 (sourceOf [0xFF#8, 0xD9#8])).unit = .refill (0 + 1) ∧ (sourceOf [0xFF#8, 0xD9#8]).srcPos ≠ (sourceOf [0xFF#8, 0xD9#8]).srcLen ∧
      (sourceOf [0xFF#8, 0xD9#8]).srcPos + 1#32 ≠ (sourceOf [0xFF#8, 0xD9#8]).srcLen ∧
      srcByte (sourceOf [0xFF#8, 0xD9#8]) (sourceOf [0xFF#8, 0xD9#8]).srcPos = 0xFF#8) :=
  ⟨by decide, ⟨_, by decide, rfl⟩, ⟨_, by decide, rfl⟩, by decide⟩

/-- O6: one word of each width. -/
theorem witness_PlacedWordIsExecuted :
    Memory.wf busy.src = true ∧ decodeTableWord 32 0x00000507 = some (.loadTable 5) ∧ decodeTableWord 8 0xF0 = some .zrl ∧
    decodeTableWord 16 0xFFFF = some .badesc ∧ BitVec.ofNat 8 (0xFFFF / 256) = 0xFF#8 := by decide

/-- O7: the ends of the mapped ranges, and a neighbour of each that is not mapped. -/
theorem witness_UnmappedAccessIsRefused :
    mappedOffset 0x000 ∧ mappedOffset 0x064 ∧ ¬ mappedOffset 0x068 ∧ ¬ mappedOffset 0x07C ∧ mappedOffset 0x080 ∧ mappedOffset 0x0BC ∧ ¬ mappedOffset 0x0C0 ∧
    ¬ mappedOffset 0x0FC ∧ mappedOffset 0x100 ∧ mappedOffset 0x4FC ∧ mappedOffset 0x500 ∧ mappedOffset 0x5FC ∧ ¬ mappedOffset 0x600 ∧
    ¬ mappedOffset 0x002 ∧ (0x064 : Nat) ≠ 0 := by
  unfold mappedOffset; omega

/-- O8: a read/write register, a read-only one, and `CMD`. -/
theorem witness_HostAccessesReadAndStore :
    Reg.numCh ≠ .cmd ∧ storedBits .numCh = some 0x7#32 ∧ storedBits (.coef 63) = none ∧ Reg.coef 63 ≠ .numCh := by decide

/-- O9: the last coordinates the fields hold, and a cursor in order. -/
theorem witness_ReadBackValues :
    ({ busy with chIdx := 3, blkIdx := 255 } : State).chIdx < 4 ∧ ({ busy with chIdx := 3, blkIdx := 255 } : State).blkIdx < 256 ∧
    cursorOk busy ∧ busy.params.ok := by decide

/-- O10: a source in order, and the last coefficient of the last block of `OUT`. -/
theorem witness_SourceChangesAreExact :
    Memory.wf busy.src = true ∧ busy.outCount = BitVec.ofNat 32 busy.out.length ∧ 1 < busy.outCount.toNat ∧ 63 < 64 := by decide

/-- O11. -/
theorem witness_ResetPutsEveryElementToItsValue : busy.script = [] := by decide

theorem busy_unit : unitOk busy := ⟨fun h => (nomatch h), fun _ _ h => (nomatch h)⟩

/-- O13: a state of a running scan meets the invariant, and its step answers a next state. -/
theorem witness_StepKeepsInvariant : Inv busy ∧ ∃ t, step busy = .next t :=
  ⟨⟨by decide, by decide, by decide, by decide +kernel, by decide, by decide, by decide +kernel, by decide, busy_unit⟩, _, rfl⟩

/-- O17: a state with the invariant whose step answers a next state, and one at which the access is refused. -/
theorem witness_StepStopsOnlyAtRefusedAccess :
    (Inv busy ∧ ∃ t, step busy = .next t) ∧
    ∃ s, Inv s ∧ step s = .refused .badRegisterAccess :=
  have h := witness_StepKeepsInvariant
  ⟨h, { busy with script := [.write .half 0x000 0#32] },
    ⟨h.1.params, h.1.source, h.1.cursor, h.1.tables, h.1.coordinates, h.1.err, h.1.coef, h.1.outCount, h.1.unit⟩, rfl⟩

/-- O14: a read with no bits left. -/
theorem witness_FaultEntryRecordsCodeAndCoordinates :
    ∃ t, State.reset.mode ≠ .fault ∧ exec (.nextbits 1) State.reset = .next t ∧ t.mode = .fault :=
  ⟨_, by decide, rfl, rfl⟩

/-- O15: the word above RESET's, and a stored register. -/
theorem witness_OnlyResetActsInFault :
    faulted.mode = .fault ∧ (0x00000101#32 : Word) ≠ 0x00000001#32 ∧ isCommand .nop = true ∧ Instr.nop ≠ .reset ∧
    storedBits .mcuCount = some 0xFFFFFFFF#32 := by decide

/-- O16: a fault with a command next, and one with RESET next. -/
theorem witness_FaultIsStickyUntilReset :
    (unitOk { faulted with script := [.write .word 0 0x0000000F#32] } ∧
      ¬ resets { faulted with script := [.write .word 0 0x0000000F#32] } ∧
      ∃ t, step { faulted with script := [.write .word 0 0x0000000F#32] } = .next t) ∧
    (unitOk { faulted with script := [.write .word 0 0x00000001#32] } ∧
      resets { faulted with script := [.write .word 0 0x00000001#32] } ∧
      ∃ t, step { faulted with script := [.write .word 0 0x00000001#32] } = .next t) := by
  refine ⟨⟨⟨fun _ => rfl, fun _ _ h => (nomatch h)⟩, ?_, _, rfl⟩, ⟨fun _ => rfl, fun _ _ h => (nomatch h)⟩, ⟨_, _, rfl, rfl⟩, _, rfl⟩
  rintro ⟨a, rest, h, ha⟩
  cases h
  exact absurd ha (by decide)

/-- O18: an idle unit waits for none of the codes. -/
theorem witness_StreamCodeOutsideItsUnitStops :
    (∀ c k, State.reset.unit ≠ .ac c k) ∧ (∀ c, State.reset.unit ≠ .dc c) ∧ (∀ left, State.reset.unit ≠ .refill left) :=
  ⟨fun _ _ h => (nomatch h), fun _ h => (nomatch h), fun _ h => (nomatch h)⟩

/-- O19: an instruction outside every list, with `EOE` 0 and 1, and one that faults. -/
theorem witness_OnlyNamedInstructionsWrite :
    (∃ t, exec .align busy = .next t ∧ Instr.align ≠ .reset ∧ writesResult .align = false ∧ writesPred .align = false ∧
      writesCoef .align = false ∧ readsSource .align = false ∧ busy.eoe = false ∧ Instr.align ≠ .loadTable 7 ∧ Instr.align ≠ .run ∧
      Instr.align ≠ .startScan) ∧
    (∃ t, exec .run (scanE 1#32 1#32) = .next t ∧ Instr.run ≠ .reset ∧ Instr.run ≠ .startScan ∧ Instr.run ≠ .resync ∧
      (scanE 1#32 1#32).eoe = true) ∧
    (∃ t, exec (.nextbits 1) State.reset = .next t ∧ State.reset.mode ≠ .fault ∧ t.mode = .fault) :=
  ⟨⟨_, rfl, by decide⟩, ⟨_, rfl, by decide⟩, _, rfl, by decide, rfl⟩

/-- O20. -/
theorem witness_NopWritesNothing : (1#8 : Byte) ≠ 0#8 := by decide

/-- O21: a tail of 248 bytes has room for one more, a tail of 249 has not. -/
theorem witness_AppendPutsByteAfterUnreadTail :
    (∃ s : State, s.mode ≠ .fault ∧ s.curData.length - s.curPos / 8 = 248 ∧ s.curData.length - s.curPos / 8 + 1 ≤ s.params.capMax) ∧
    (∃ s : State, s.mode ≠ .fault ∧ s.curData.length - s.curPos / 8 = 249 ∧ s.params.capMax < s.curData.length - s.curPos / 8 + 1) :=
  ⟨⟨cursorAt (List.replicate 249 0#8) 8, by decide +kernel⟩, cursorAt (List.replicate 249 0#8) 7, by decide +kernel⟩

/-- O22. -/
theorem witness_AppendExtendsUnreadBits :
    ∃ t, (cursorAt [0xA5#8] 8).curPos ≤ 8 * (cursorAt [0xA5#8] 8).curData.length ∧ [0x3C#8] ≠ [] ∧
      append [0x3C#8] (cursorAt [0xA5#8] 8) = .ok () t :=
  ⟨_, by decide, by decide, rfl⟩

/-- O23: the widest read with just its bits left, one bit fewer left, and the counts outside 1 to 25. -/
theorem witness_NextbitsReadsMostSignificantFirst :
    (∃ s : State, s.mode ≠ .fault ∧ 1 ≤ 25 ∧ 25 ≤ 25 ∧ avail s = 25 ∧ 25 ≤ avail s) ∧
    (∃ s : State, s.mode ≠ .fault ∧ 1 ≤ 25 ∧ 25 ≤ 25 ∧ avail s = 24 ∧ avail s < 25) ∧
    (∃ s : State, s.mode ≠ .fault ∧ ((0 = 0 ∨ 25 < 0) ∧ (26 = 0 ∨ 25 < 26))) :=
  ⟨⟨cursorAt [0#8, 0#8, 0#8, 0#8] 7, by decide⟩, ⟨cursorAt [0#8, 0#8, 0#8, 0#8] 8, by decide⟩, busy, by decide⟩

/-- O24. -/
theorem witness_WordLoadGivesTheSameBits :
    1 ≤ 25 ∧ 25 ≤ 25 ∧ 25 ≤ avail (cursorAt [0x01#8, 0xFF#8, 0xFF#8, 0xFF#8] 7) := by decide

/-- O25: the whole window, one bit more, and the count 26. -/
theorem witness_BackbitsRewindsInsideTheWindow :
    ∃ s : State, s.mode ≠ .fault ∧ (17 ≤ 25 ∧ 17 ≤ s.curBackable) ∧ (25 < 18 ∨ s.curBackable < 18) ∧ (25 < 26 ∨ s.curBackable < 26) ∧
      17 ≤ s.curPos :=
  ⟨cursorAt [0#8, 0#8, 0#8] 17, by decide⟩

/-- O26: off a boundary and on one, at the write end. -/
theorem witness_AlignMovesToByteBoundary :
    (∃ s : State, s.mode ≠ .fault ∧ s.curPos % 8 = 1 ∧ s.curPos ≤ 8 * s.curData.length) ∧
    (∃ s : State, s.mode ≠ .fault ∧ s.curPos % 8 = 0 ∧ s.curPos = 8 * s.curData.length) :=
  ⟨⟨cursorAt [0#8] 1, by decide⟩, cursorAt [0#8] 8, by decide⟩

/-- O27. -/
theorem witness_ClearEmptiesTheCursor : busy.mode ≠ .fault := by decide

/-- O28: V10, reads across an append. -/
theorem witness_ReadChunksRebuildAppendedBytes :
    ∃ bits t, State.reset.curData = [] ∧ State.reset.curPos = 0 ∧
      runOps [.put [0xA5#8], .take 3, .put [0x3C#8], .take 7, .take 6] State.reset = some (bits, t) :=
  ⟨_, _, by decide, by decide, rfl⟩

/-- O29: two reads that take the last bits. -/
theorem witness_ReadsInvertAndSplit : 5 ≤ avail (cursorAt [0xDE#8, 0xAD#8] 0) ∧ 5 + 11 ≤ avail (cursorAt [0xDE#8, 0xAD#8] 0) := by decide

/-- A physical cursor of three bytes, one retained but read, full to its end. -/
def phys : PhysCursor := { bytes := [0x11#8, 0x22#8, 0x33#8], first := 0, readByte := 1, readBit := 3, writeEnd := 3 }

/-- O30: each placement, in place with the last byte of room, the others with none behind the write end. -/
theorem witness_PhysicalBufferRefinesTheCursor :
    ∀ how ∈ [Placement.inPlace, .compact, .grow [0xEE#8]],
      ∃ (p q : PhysCursor) (s t : State), p.ok ∧ s.curData = p.data ∧ s.curPos = p.pos ∧ p.append how [0x44#8] = some q ∧
        append [0x44#8] s = .ok () t := by
  intro how h
  simp only [List.mem_cons, List.not_mem_nil, or_false] at h
  rcases h with rfl | rfl | rfl
  · exact ⟨{ phys with writeEnd := 2 }, _, cursorAt [0x11#8, 0x22#8] 11, _, by decide, by decide, by decide, rfl, rfl⟩
  · exact ⟨phys, _, cursorAt [0x11#8, 0x22#8, 0x33#8] 11, _, by decide, by decide, by decide, rfl, rfl⟩
  · exact ⟨phys, _, cursorAt [0x11#8, 0x22#8, 0x33#8] 11, _, by decide, by decide, by decide, rfl, rfl⟩

/-- A staging area with the given counts at two lengths. -/
def staged (l1 : Fin 16) (c1 : Byte) (l2 : Fin 16) (c2 : Byte) : State :=
  { State.reset with tblCnt := (State.reset.tblCnt.set l1 c1).set l2 c2 }

/-- O31, V22: 256 codes accepted, 257 codes, and an over-subscribed length. -/
theorem witness_LoadTableBuildsOrInvalidates :
    (∃ s : State, s.mode ≠ .fault ∧ 1 ≤ s.params.aryLog2 ∧ (stagedCounts s).sum = 256 ∧ countsFit 1 0 (stagedCounts s) = true) ∧
    (∃ s : State, s.mode ≠ .fault ∧ 1 ≤ s.params.aryLog2 ∧ 256 < (stagedCounts s).sum ∧ countsFit 1 0 (stagedCounts s) = true) ∧
    (∃ s : State, s.mode ≠ .fault ∧ 1 ≤ s.params.aryLog2 ∧ countsFit 1 0 (stagedCounts s) = false) :=
  ⟨⟨staged 7 255#8 8 1#8, by decide +kernel⟩, ⟨staged 7 255#8 8 2#8, by decide +kernel⟩, staged 0 3#8 1 0#8, by decide +kernel⟩

/-- O32: no code at all, two codes of one bit, and a code of 2 bits before one of 3 (V3). -/
theorem witness_AssignedCodesArePrefixFree :
    (stagedCounts State.reset).sum ≤ 256 ∧ countsFit 1 0 (stagedCounts State.reset) = true ∧
    (stagedCounts (staged 0 2#8 1 0#8)).sum ≤ 256 ∧ countsFit 1 0 (stagedCounts (staged 0 2#8 1 0#8)) = true ∧
    (stagedCounts (staged 1 1#8 2 1#8)).sum ≤ 256 ∧ countsFit 1 0 (stagedCounts (staged 1 1#8 2 1#8)) = true ∧
    (stagedCodes (staged 1 1#8 2 1#8))[0]? = some ⟨0, 2, 0#8⟩ ∧ (stagedCodes (staged 1 1#8 2 1#8))[0 + 1]? = some ⟨2, 3, 0#8⟩ := by
  decide +kernel

/-- O33, V23: rows 1, 2 and 4, and a table never loaded. -/
theorem witness_DecodeSymMatchesOneCodeword :
    (∃ s : State, s.mode ≠ .fault ∧ s.tbl[(1 : Fin 8)].valid = false) ∧
    (∃ s : State, s.mode ≠ .fault ∧ s.tbl[(0 : Fin 8)].valid = true ∧ codesOk s.tbl[(0 : Fin 8)].codes ∧
      ∃ e ∈ s.tbl[(0 : Fin 8)].codes, codeBits e <+: unreadBits s) ∧
    (∃ s : State, s.mode ≠ .fault ∧ s.tbl[(0 : Fin 8)].valid = true ∧ codesOk s.tbl[(0 : Fin 8)].codes ∧
      (∀ e ∈ s.tbl[(0 : Fin 8)].codes, ¬ codeBits e <+: unreadBits s) ∧ ∃ e ∈ s.tbl[(0 : Fin 8)].codes, unreadBits s <+: codeBits e) ∧
    (∃ s : State, s.mode ≠ .fault ∧ s.tbl[(0 : Fin 8)].valid = true ∧ codesOk s.tbl[(0 : Fin 8)].codes ∧
      (∀ e ∈ s.tbl[(0 : Fin 8)].codes, ¬ codeBits e <+: unreadBits s) ∧ ∀ e ∈ s.tbl[(0 : Fin 8)].codes, ¬ unreadBits s <+: codeBits e) :=
  ⟨⟨State.reset, by decide⟩, ⟨withTables codesAB [] (cursorAt [0xFA#8] 5), by decide⟩,
    ⟨withTables codesAB [] (cursorAt [0xFE#8] 7), by decide⟩, withTables codesAB [] (cursorAt [0x60#8] 0), by decide⟩

/-- O34: a table and its tree at the two ends of `ARY_LOG2`. -/
theorem witness_TreeWalkEqualsContract :
    (∃ s : State, s.params.aryLog2 = 1 ∧ s.tbl[(0 : Fin 8)].valid = true ∧ tableOk s.params.aryLog2 s.tbl[(0 : Fin 8)]) ∧
    (∃ s : State, s.params.aryLog2 = 8 ∧ s.tbl[(0 : Fin 8)].valid = true ∧ tableOk s.params.aryLog2 s.tbl[(0 : Fin 8)]) :=
  ⟨⟨withTables codesAB [] State.reset, by decide +kernel⟩,
    { State.reset with
      params := { Params.least with aryLog2 := 8 }
      tbl := State.reset.tbl.set 0 { tableOf codesAB with tree := (insertAll 8 codesAB).getD .nil } }, by decide +kernel⟩

/-- O35. -/
theorem witness_ReadAheadEqualsContract : busy.tbl[(4 : Fin 8)].valid = true ∧ codesOk busy.tbl[(4 : Fin 8)].codes := by decide

/-- O36. -/
theorem witness_TreeFitsTheArena : 1 ≤ 1 ∧ codesOk codesAC ∧ ∃ tree, insertAll 1 codesAC = some tree := ⟨by decide, by decide, _, rfl⟩

/-- O37: `EOE = 1`; `SRC_POS` one past `SRC_LEN`; a batch that just has room, at the source's end; one with bytes ahead; a malformed
pair on the last byte a batch examines, and one byte further; and a full cursor with a plain byte ahead. -/
theorem witness_RefillRunsOneBatch :
    (∃ s : State, s.mode ≠ .fault ∧ s.eoe = true) ∧
    (∃ s : State, s.mode ≠ .fault ∧ s.eoe = false ∧ s.srcLen < s.srcPos ∧ s.srcPos = s.srcLen + 1#32) ∧
    (∃ s : State, s.mode ≠ .fault ∧ s.eoe = false ∧ s.srcPos = s.srcLen ∧ s.srcPos ≤ s.srcLen ∧
      tail s + s.params.chunk = s.params.capMax ∧ (destuff s).2.2 ≠ .malformed) ∧
    (busy.mode ≠ .fault ∧ busy.eoe = false ∧ busy.srcPos ≤ busy.srcLen ∧ tail busy + busy.params.chunk ≤ busy.params.capMax ∧
      (destuff busy).2.2 ≠ .malformed) ∧
    (∃ s : State, s.mode ≠ .fault ∧ s.eoe = false ∧ s.srcPos ≤ s.srcLen ∧ tail s + s.params.chunk ≤ s.params.capMax ∧
      (destuff s).2.2 = .malformed ∧ (destuff s).2.1 + 1 = s.srcPos.toNat + s.params.chunk) ∧
    (∃ s : State, s.mode ≠ .fault ∧ s.eoe = false ∧ s.srcPos ≤ s.srcLen ∧ tail s + s.params.chunk ≤ s.params.capMax ∧
      (destuff s).2.2 = .malformed ∧ (destuff s).2.1 = s.srcPos.toNat + s.params.chunk) ∧
    (∃ s : State, s.mode ≠ .fault ∧ s.eoe = false ∧ s.srcPos < s.srcLen ∧ srcByte s s.srcPos ≠ 0xFF#8 ∧ 1 ≤ s.params.chunk ∧
      s.params.capMax < tail s + 1) :=
  ⟨⟨scanE 1#32 1#32, by decide⟩, ⟨{ State.reset with srcPos := 1#32 }, by decide⟩,
    ⟨cursorAt (List.replicate 249 0#8) 8, by decide +kernel⟩, by decide, ⟨sourceOf [0xFF#8, 0xFF#8], by decide⟩,
    ⟨sourceOf [0x12#8, 0xFF#8, 0xFF#8], by decide⟩,
    { cursorAt (List.replicate 249 0#8) 7 with src := Memory.ofBytes 0 [0x12#8], srcLen := 1#32 }, by decide +kernel⟩

/-- O38, V31 and V32: to the end of the source, and into a malformed pair. -/
theorem witness_RefillsAppendTheDestuffedBytes :
    (∃ t, (sourceOf [0x12#8, 0xFF#8]).eoe = false ∧ (sourceOf [0x12#8, 0xFF#8]).srcPos ≤ (sourceOf [0x12#8, 0xFF#8]).srcLen ∧
      refills 2 (sourceOf [0x12#8, 0xFF#8]) = .ok () t ∧ t.eoe = true) ∧
    (∃ t, (sourceOf [0x12#8, 0xFF#8, 0xFF#8]).eoe = false ∧
      refills 2 (sourceOf [0x12#8, 0xFF#8, 0xFF#8]) = .raised .malformedByteStuffing t) :=
  ⟨⟨_, by decide, by decide, rfl, rfl⟩, _, by decide, rfl⟩

/-- O39: to the end of the source, and into a malformed pair. -/
theorem witness_TopUpReachesLowWaterOrEnd :
    (∃ t, State.reset.params.ok ∧ topUp (sourceOf [0xFF#8, 0xFF#8]) = .raised .malformedByteStuffing t) ∧ ∃ t, busy.params.ok ∧ busy.curPos ≤ 8 * busy.curData.length ∧ topUp { busy with srcLen := 0#32 } = .ok () t :=
  ⟨⟨_, by decide, rfl⟩, _, by decide, by decide, rfl⟩

/-- O40: a tail with room for one byte, and a full one. -/
theorem witness_StuffAppendsOneByte :
    (∃ s : State, s.unit = .refill 3 ∧ tail s = 248 ∧ tail s + 1 ≤ s.params.capMax) ∧
    (∃ s : State, s.unit = .refill 2 ∧ tail s = 249 ∧ s.params.capMax < tail s + 1) :=
  ⟨⟨atPair 3 (cursorAt (List.replicate 248 0#8) 0), by decide +kernel⟩, atPair 2 (cursorAt (List.replicate 249 0#8) 0), by decide +kernel⟩

/-- O41. -/
theorem witness_MarkerEndsTheEntropyData : (atPair 1 busy).unit = .refill 1 ∧ (Instr.marker 0xFE#8).wf = true := by decide

/-- O42. -/
theorem witness_BadEscapeIsMalformedStuffing : (atPair 1 busy).unit = .refill 1 := by decide

/-- O43: the two ends of each range. -/
theorem witness_ExtendIsTheSignConversion : 1 ≤ 15 ∧ 15 ≤ 15 ∧ 32767 < 2 ^ 15 ∧ 2 ^ (15 - 1) ≤ 16384 ∧ 16383 < 2 ^ (15 - 1) ∧ 0 < 2 ^ 1 := by
  decide

/-- O44: a field that takes the last bits, one bit fewer, and the first reserved symbol. -/
theorem witness_DcStepAddsTheDifference :
    ∃ s : State, s.unit = .dc 0 ∧ (8 : Fin 16) ≠ 0 ∧ (8 : Fin 16).val ≤ avail s ∧ avail s < (9 : Fin 16).val ∧ 16 ≤ (0x10#8 : Byte).toNat :=
  ⟨atDc (cursorAt [0xC0#8] 0), by decide⟩

/-- O45: the running indices 47, 48 and 49. -/
theorem witness_EobAndZrlMoveOnlyTheIndex :
    (atAc 47 busy).unit = .ac 0 47 ∧ 47 < 48 ∧ (atAc 48 busy).unit = .ac 0 48 ∧ (atAc 49 busy).unit = .ac 0 49 ∧ 48 < 49 := by decide

/-- O46: a run that ends at 63, one that ends at 64, and a field cut short. -/
theorem witness_RunsizeStoresOneCoefficient :
    ∃ s : State, s.unit = .ac 0 60 ∧ (8 : Fin 16) ≠ 0 ∧ (60 + (3 : Fin 16).val ≤ 63 ∧ (8 : Fin 16).val ≤ avail s) ∧
      63 < 60 + (4 : Fin 16).val ∧ (60 + (3 : Fin 16).val ≤ 63 ∧ avail s < (9 : Fin 16).val) :=
  ⟨atAc 60 (cursorAt [0xC0#8] 0), by decide⟩

/-- O47. -/
theorem witness_ReservedAcSymbolsFault : (atAc 1 busy).unit = .ac 0 1 ∧ (0xE0#8 : Byte).toNat % 16 = 0 ∧ (0xE0#8 : Byte).toNat / 16 = 14 := by
  decide

/-- The text of V40, and its coefficients with the predictor 10. -/
def textV40 : BlockText :=
  { dc := ⟨4, 3, 0x03#8⟩, dcField := 3
    items := [⟨⟨2, 3, 0x01#8⟩, 1⟩, ⟨⟨3, 3, 0x12#8⟩, 1⟩, ⟨⟨8, 4, 0xF0#8⟩, 0⟩, ⟨⟨9, 4, 0x23#8⟩, 6⟩]
    eob := some ⟨0, 2, 0x00#8⟩ }

/-- The text of V43, which ends at index 64 with no EOB. -/
def textV43 : BlockText :=
  { dc := ⟨0, 2, 0x00#8⟩, dcField := 0
    items := List.replicate 3 ⟨⟨8, 4, 0xF0#8⟩, 0⟩ ++ List.replicate 11 ⟨⟨2, 3, 0x01#8⟩, 1⟩ ++ [⟨⟨3, 3, 0x31#8⟩, 1⟩]
    eob := none }

/-- O48: the texts of V40 and V43 with their padding bits behind them. -/
theorem witness_DecodeBlockDecodesItsText :
    (∃ s : State, s.mode ≠ .fault ∧ s.tbl[dcSel s 0].valid = true ∧ s.tbl[acSel s 0].valid = true ∧
      codesOk s.tbl[dcSel s 0].codes ∧ codesOk s.tbl[acSel s 0].codes ∧
      (textV40.meaning s.tbl[dcSel s 0].codes s.tbl[acSel s 0].codes s.pred[(0 : Fin 4)]).isSome = true ∧
      unreadBits s = textV40.bits ++ [true, true, true, true]) ∧
    (∃ s : State, s.mode ≠ .fault ∧ s.tbl[dcSel s 0].valid = true ∧ s.tbl[acSel s 0].valid = true ∧
      codesOk s.tbl[dcSel s 0].codes ∧ codesOk s.tbl[acSel s 0].codes ∧
      (textV43.meaning s.tbl[dcSel s 0].codes s.tbl[acSel s 0].codes s.pred[(0 : Fin 4)]).isSome = true ∧
      unreadBits s = textV43.bits ++ [true, true]) :=
  ⟨⟨withTables codesDC codesAC (cursorAt [0x8D#8, 0x5B#8, 0x13#8, 0x8F#8] 0), by decide +kernel⟩,
    withTables codesDC codesAC2 (cursorAt [0x22#8, 0x21#8, 0x55#8, 0x55#8, 0x55#8, 0x55#8, 0x55#8, 0x5F#8] 0), by decide +kernel⟩

/-- O49: a table that is not valid, and two that are. -/
theorem witness_DecodeBlockWritesOnlyItsBlock :
    (∃ s : State, s.mode ≠ .fault ∧ s.tbl[dcSel s 0].valid = true ∧ s.tbl[acSel s 0].valid = false) ∧
    (busy.mode ≠ .fault ∧ busy.tbl[dcSel busy 0].valid = true ∧ busy.tbl[acSel busy 0].valid = true ∧ (3 : Fin 4) ≠ 0) :=
  ⟨⟨{ busy with tbl := busy.tbl.set 4 Table.empty }, by decide⟩, by decide⟩

/-- O50: a block that decodes, and 1984 unread bits. -/
theorem witness_BlockTakesAtMost1984Bits :
    codesOk busy.tbl[dcSel busy 0].codes ∧ codesOk busy.tbl[acSel busy 0].codes ∧ (∃ t, decodeBlock 0 busy = .ok () t) ∧
    1984 ≤ avail (cursorAt (List.replicate 248 0#8) 0) := by
  refine ⟨by decide, by decide, ?_, by decide +kernel⟩
  have h : (match decodeBlock 0 busy with
    | .ok _ _ => true
    | .raised _ _ => false) = true := by decide +kernel
  split at h
  · exact ⟨_, by assumption⟩
  · cases h

/-- O51. -/
theorem witness_StreamCodesMakeUpTheirCommands :
    busy.mode ≠ .fault ∧ busy.unit = .idle ∧ busy.tbl[dcSel busy 0].valid = true ∧ busy.tbl[acSel busy 0].valid = true ∧
    busy.eoe = false ∧ busy.srcPos ≤ busy.srcLen := by decide

/-- O52, V60: the product one MCU below `2^32`, the product `2^32`, and `NUM_CH` at 0 and 5. -/
theorem witness_StartScanBeginsAtTheFirstBlock :
    (∃ s : State, s.mode ≠ .fault ∧ 1 ≤ s.numCh.toNat ∧ s.numCh.toNat ≤ 4 ∧ s.mcuCount.toNat * blocksPerMcu s = 2 ^ 32 - 2) ∧
    (∃ s : State, s.mode ≠ .fault ∧ 1 ≤ s.numCh.toNat ∧ s.numCh.toNat ≤ 4 ∧ s.mcuCount.toNat * blocksPerMcu s = 2 ^ 32) ∧
    (∃ s : State, s.mode ≠ .fault ∧ s.numCh.toNat = 0) ∧ (∃ s : State, s.mode ≠ .fault ∧ s.numCh.toNat = 5) :=
  ⟨⟨{ State.reset with numCh := 1#3, chCfg := State.reset.chCfg.set 0 2#12, mcuCount := 0x7FFFFFFF#32 }, by decide⟩,
    ⟨{ State.reset with numCh := 1#3, chCfg := State.reset.chCfg.set 0 2#12, mcuCount := 0x80000000#32 }, by decide⟩,
    ⟨State.reset, by decide⟩, { State.reset with numCh := 5#3 }, by decide⟩

/-- O53. -/
theorem witness_RestartHooksWriteOnlyTheirState : busy.mode ≠ .fault := by decide

/-- O54: IDLE, DONE, a stop past the count, a scan at its stop, and an MCU without blocks. -/
theorem witness_RunChecksAndEmptyRuns :
    State.reset.mode = .idle ∧ ({ busy with mode := .done } : State).mode = .done ∧
    (∃ s : State, s.mode = .active ∧ s.mcuCount < s.mcuStop ∧ ¬ (s.mcuStop ≤ s.mcuCount ∧ 1 ≤ s.numCh.toNat ∧ s.numCh.toNat ≤ 4)) ∧
    (∃ s : State, s.mode = .active ∧ s.mcuStop ≤ s.mcuCount ∧ 1 ≤ s.numCh.toNat ∧ s.numCh.toNat ≤ 4 ∧ s.mcuStop = s.mcuIdx ∧
      s.mcuStop ≤ s.mcuIdx) ∧
    (∃ s : State, s.mode = .active ∧ s.mcuStop ≤ s.mcuCount ∧ 1 ≤ s.numCh.toNat ∧ s.numCh.toNat ≤ 4 ∧ s.mcuIdx < s.mcuStop ∧ s.chIdx = 0 ∧
      s.blkIdx = 0 ∧ blocksPerMcu s = 0) :=
  ⟨by decide, by decide, ⟨scanE 1#32 2#32, by decide⟩, ⟨scanE 1#32 0#32, by decide⟩, { busy with chCfg := State.reset.chCfg }, by decide⟩

/-- The text of a block of scan setup E. -/
def textE : BlockText := { dc := ⟨0, 2, 0x00#8⟩, dcField := 0, items := [], eob := some ⟨0, 1, 0x00#8⟩ }

/-- O55: the cursor at its end, with `EOE = 1` and with the end still to be found, at the last MCU; the one block of the one MCU of
V62, the source at its end; and a cursor at the low-water mark. -/
theorem witness_RunDecodesAndAppendsABlock :
    (∃ s : State, s.mode = .active ∧ s.mcuStop ≤ s.mcuCount ∧ 1 ≤ s.numCh.toNat ∧ s.numCh.toNat ≤ 4 ∧ s.mcuIdx < s.mcuStop ∧
      s.chIdx < s.numCh.toNat ∧ s.blkIdx < blocksOf s s.chIdx ∧ s.eoe = true ∧ avail s = 0) ∧
    (∃ s t : State, s.mode = .active ∧ s.mcuStop ≤ s.mcuCount ∧ 1 ≤ s.numCh.toNat ∧ s.numCh.toNat ≤ 4 ∧ s.mcuIdx < s.mcuStop ∧
      s.chIdx < s.numCh.toNat ∧ s.blkIdx < blocksOf s s.chIdx ∧ s.eoe = false ∧ topUp s = .ok () t ∧ eof t = true) ∧
    (scanE 1#32 1#32).mode = .active ∧ (scanE 1#32 1#32).numCh = 1#3 ∧ blocksOf (scanE 1#32 1#32) 0 = 1 ∧ (scanE 1#32 1#32).chIdx = 0 ∧
    (scanE 1#32 1#32).blkIdx = 0 ∧ (scanE 1#32 1#32).mcuIdx < (scanE 1#32 1#32).mcuStop ∧
    (scanE 1#32 1#32).mcuIdx + 1#32 = (scanE 1#32 1#32).mcuStop ∧ (scanE 1#32 1#32).mcuStop ≤ (scanE 1#32 1#32).mcuCount ∧
    (scanE 1#32 1#32).eoe = true ∧ Params.least.lowWater ≤ tail (cursorAt (List.replicate 249 0#8) 7) ∧
    (scanE 1#32 1#32).tbl[dcSel (scanE 1#32 1#32) 0] = tableOf codesEDC ∧ (scanE 1#32 1#32).tbl[acSel (scanE 1#32 1#32) 0] = tableOf codesEAC ∧
    (tableOf codesEDC).valid = true ∧ (tableOf codesEAC).valid = true ∧ codesOk codesEDC ∧ codesOk codesEAC ∧
    (textE.meaning codesEDC codesEAC 0#32).isSome = true ∧
    unreadBits (scanE 1#32 1#32) = textE.bits ++ List.replicate 13 false :=
  ⟨⟨{ scanE 1#32 1#32 with curPos := 16 }, by decide⟩,
    ⟨{ scanE 1#32 1#32 with curPos := 16, eoe := false }, { scanE 1#32 1#32 with curPos := 16 }, by decide, by decide, by decide,
      by decide, by decide, by decide, by decide, rfl, rfl, by decide⟩, by decide +kernel⟩

/-- O56 and O57. -/
theorem witness_RunFollowsTheNestingOrder :
    busy.mode = .active ∧ busy.mcuStop ≤ busy.mcuCount ∧ 1 ≤ busy.numCh.toNat ∧ busy.numCh.toNat ≤ 4 ∧ busy.chIdx = 0 ∧ busy.blkIdx = 0 := by
  decide

/-- O57: a RUN that ends in DONE and one that faults. -/
theorem witness_RunEndsAtStopOrFault :
    after (exec .run (scanE 5#32 5#32)) State.mode = some .done ∧ after (exec .run (scanE 6#32 6#32)) State.mode = some .fault ∧
    (scanE 6#32 6#32).mode = .active ∧ (scanE 6#32 6#32).mcuStop ≤ (scanE 6#32 6#32).mcuCount := by decide +kernel

/-- O58, V64: a pause at 2 of 4, continued to 4. -/
theorem witness_PausedRunContinuesUnchanged :
    (scanE 4#32 2#32).mode = .active ∧ (scanE 4#32 2#32).mcuIdx ≤ (scanE 4#32 2#32).mcuStop ∧ (scanE 4#32 2#32).mcuStop ≤ 4#32 ∧
    (4#32 : Word) ≤ (scanE 4#32 2#32).mcuCount ∧ (scanE 4#32 2#32).chIdx = 0 ∧ (scanE 4#32 2#32).blkIdx = 0 ∧
    after (exec .run (scanE 4#32 2#32)) State.mode = some .active := by decide +kernel

/-- O59: two blocks out at MCU 2 of one block each. -/
theorem witness_OutputCountFollowsCoordinates :
    isCommand .run = true ∧ coordinatesOk busy ∧ busy.out.length = loopCount busy ∧ (∃ t, exec .align busy = .next t) :=
  ⟨by decide, by decide, by decide, _, rfl⟩

/-- O60: two choices of the parameters, and a scan whose source has no malformed pair. -/
theorem witness_ScanResultIndependentOfParameters :
    Params.least.ok ∧ ({ aryLog2 := 8, capMax := 400, chunk := 7, lowWater := 260, nodeMax := 257 } : Params).ok ∧ busy.mode = .active ∧
    busy.chIdx < 4 ∧ busy.curPos ≤ 8 * busy.curData.length ∧ (∀ sel : Fin 8, busy.tbl[sel].valid = true → codesOk busy.tbl[sel].codes) ∧
    busy.srcPos ≤ busy.srcLen ∧ (destuff busy).2.2 ≠ .malformed ∧ (scanE 1#32 1#32).eoe = true := by decide +kernel

end Sys2Proof.Tests
end

section
/-! ### Which turn a step is -/

namespace Sys2Proof.Machine

/-- With no unit at work the outside has its turn (R7). -/
theorem step_of_idle {s : State} (hu : s.unit = .idle) : step s = hostTurn s := by simp only [step, hu]

/-- A unit at work has its turn (log entry 4). -/
theorem step_of_working {s : State} (hu : s.unit ≠ .idle) : step s = unitTurn s := by
  unfold step
  split
  · next hidle => exact absurd hidle hu
  all_goals rfl

end Sys2Proof.Machine
end

section
/-! ### The invariant through a turn of a unit and through a step -/

namespace Sys2Proof.Machine

/-- Moving on in the source writes nothing the invariant speaks of. -/
theorem DataInv.skipSource {s : State} (h : DataInv s) (n : Nat) : DataInv (skipSource n s) :=
  ⟨h.params, h.source, h.cursor, h.tables, h.loc, h.coef, h.outCount⟩

/-- Observing the end of the entropy data writes nothing the invariant speaks of (R174, R175). -/
theorem DataInv.setEoe {s : State} (h : DataInv s) : DataInv (setEoe s) :=
  ⟨h.params, h.source, h.cursor, h.tables, h.loc, h.coef, h.outCount⟩

/-- One turn of the refiller, wherever `SRC_POS` stands (R172): it ends the batch, feeds one byte, or finds a malformed pair. -/
theorem DataInv.refillTurn {s : State} (h : DataInv s) (left : Nat) :
    (refillTurn left s).Sat (fun _ t => DataInv t ∧ SamePlace s t) (fun _ t => DataInv t) := by
  have ends : DataInv (Machine.setEoe s) ∧ SamePlace s (Machine.setEoe s) := ⟨h.setEoe, rfl, rfl, rfl, rfl, rfl⟩
  have feeds (x : Byte) (n : Nat) (next : Option Nat) :
      ((Machine.append [x] (Machine.skipSource n s)).bind fun _ t => .ok next t).Sat
        (fun _ t => DataInv t ∧ SamePlace s t) (fun _ t => DataInv t) :=
    ((h.skipSource n).append [x]).bind fun _ _ ht => ht
  unfold Machine.refillTurn
  split
  · exact ends
  split
  · exact feeds _ _ _
  split
  · exact ends
  unfold escCases
  split
  · exact feeds _ _ _
  split
  · exact ends
  split
  · exact ends
  · exact h

/-- A symbol fetched and presented to the block decoder (R193, R194). -/
theorem presentSymbol_inv {toInstr : Byte → Instr} {sel : Fin 8} {s t : State} (h : Inv s) (hm : s.mode ≠ .fault)
    (ht : presentSymbol toInstr (decodeSymbol sel s) = .next t) : Inv t := by
  have hs := h.data.decodeSymbol sel
  cases hr : decodeSymbol sel s with
  | raised e u =>
    rw [hr] at hs ht
    cases ht
    rw [show u = s from hs]
    exact inv_raise h e
  | ok y u =>
    rw [hr] at hs ht
    obtain ⟨hu, hmode, herr, hch, hblk, hunit⟩ := hs
    obtain ⟨hch0, hblk0⟩ := h.coordinates.2.2 hm
    have herr0 : s.err = 0#8 := by_contra fun hne => hm (h.err.1.2 hne)
    exact exec_inv (hu.inv (hmode ▸ hm) (herr.trans herr0) (hch.trans hch0) (hblk.trans hblk0) (hunit ▸ h.unit.2)) ht

/-- A turn of the refiller at work (R171, R172): the pair at `SRC_POS` as an instruction, or a turn without one. -/
theorem refillerTurn_inv {left : Nat} {s t : State} (h : Inv s) (hm : s.mode ≠ .fault)
    (ht : refillerTurn left s = .next t) : Inv t := by
  unfold refillerTurn at ht
  split at ht
  · exact exec_inv h ht
  · obtain ⟨hch0, hblk0⟩ := h.coordinates.2.2 hm
    refine h.finish hm ((h.data.refillTurn left).bind fun next u ⟨hu, hmode, herr, hch, hblk, _⟩ => ?_) ht
    refine ⟨⟨hu.params, hu.source, hu.cursor, hu.tables, hu.loc, hu.coef, hu.outCount⟩, hmode ▸ hm, herr,
      hch.trans hch0, hblk.trans hblk0, fun c k hk => ?_⟩
    rcases next with _ | _ | l <;> cases hk

/-- Every turn of a unit keeps the invariant. A unit at work is never in FAULT (R270). -/
theorem unitTurn_inv {s t : State} (h : Inv s) (ht : unitTurn s = .next t) : Inv t := by
  have working (hne : s.unit ≠ .idle) : s.mode ≠ .fault := fun hm => hne (h.unit.1 hm)
  unfold unitTurn at ht
  split at ht
  · cases ht; exact h
  · cases ht
    exact ⟨h.params, h.source, h.cursor, h.tables, h.coordinates, h.err, h.coef, h.outCount, fun _ => rfl, nofun⟩
  · next hu => exact refillerTurn_inv h (working (by simp [hu])) ht
  · next hu => exact presentSymbol_inv h (working (by simp [hu])) ht
  · next hu => exact presentSymbol_inv h (working (by simp [hu])) ht

/-- Every turn of the outside keeps the invariant. -/
theorem hostTurn_inv {s t : State} (h : Inv s) (ht : hostTurn s = .next t) : Inv t := by
  unfold hostTurn at ht
  split at ht
  · cases ht; exact h
  · next rest _ => exact perform_inv (inv_congr h (fun s => { s with script := rest }) rfl) ht

/-- Settles O13: a step is a turn of the outside or of the unit at work, and each keeps the invariant. -/
theorem stepKeepsInvariant : Obligations.StepKeepsInvariant := by
  intro s t h ht
  by_cases hu : s.unit = .idle
  · exact hostTurn_inv h (step_of_idle hu ▸ ht)
  · exact unitTurn_inv h (step_of_working hu ▸ ht)

end Sys2Proof.Machine
end

section
/-! ### A RUN of two machines that differ in the OPEN parameters -/

namespace Sys2Proof.Machine

/-- A machine with its parameters chosen anew; the source side must be in order, the parameters within R8. -/
theorem same_params {s : State} {p q : Params} (hp : p.ok) (hq : q.ok) (hpos : s.curPos ≤ 8 * s.curData.length)
    (hcodes : ∀ sel : Fin 8, s.tbl[sel].valid = true → codesOk s.tbl[sel].codes)
    (hsrc : s.eoe = true ∨ (s.srcPos ≤ s.srcLen ∧ (destuff s).2.2 ≠ .malformed)) :
    Same { s with params := p } { s with params := q } :=
  ⟨rfl, rfl, ⟨hp, hpos, hsrc⟩, ⟨hq, hpos, hsrc⟩, hcodes⟩

/-- The end of RUN looks at nothing in which the two machines differ. -/
theorem TwinFrame.endRun {s t : State} (h : TwinFrame s t) : TwinFrame (endRun s) (endRun t) := by
  have hidx : t.mcuIdx = s.mcuIdx ∧ t.mcuCount = s.mcuCount := by rw [h]; exact ⟨rfl, rfl⟩
  unfold Machine.endRun
  rw [hidx.1, hidx.2]
  split
  · rw [h]
  · exact h

/-- The fault entry looks at nothing in which the two machines differ (R270). -/
theorem TwinFrame.raise {s t : State} (h : TwinFrame s t) (e : Err) : TwinFrame (raise e s) (raise e t) := by
  rw [h]; rfl

/-- Two operations that end alike end a command alike. -/
theorem finish_twin {r r' : Res Unit} (h : r.Rel r' (fun _ u v => TwinFrame u v) TwinFrame) :
    ∃ t u, finish r = .next t ∧ finish r' = .next u ∧ TwinFrame t u := by
  cases r <;> cases r' <;> simp only [Res.Rel] at h
  · exact ⟨_, _, rfl, rfl, h.2⟩
  · obtain ⟨rfl, h⟩ := h
    exact ⟨_, _, rfl, rfl, h.raise _⟩

/-- RUN's effect on two machines that will go on in the same way, with one bound on the turns. -/
theorem runScan_twin {s t : State} (h : Same s t) :
    (runScan s).Rel (runScan t) (fun _ u v => TwinFrame u v) TwinFrame := by
  obtain ⟨hstop, hcount, hidx, hnum, hcfg⟩ : t.mcuStop = s.mcuStop ∧ t.mcuCount = s.mcuCount ∧ t.mcuIdx = s.mcuIdx ∧
      t.numCh = s.numCh ∧ t.chCfg = s.chCfg := by rw [h.frame]; exact ⟨rfl, rfl, rfl, rfl, rfl⟩
  have hbound : runBound t = runBound s := by
    simp only [runBound, hstop, hidx, hnum, (blocksPerMcu_same hnum hcfg).1]
  unfold runScan numChLegal
  rw [hstop, hcount, hnum, hbound]
  split
  · exact (runLoop_same _ h).bind fun _ u v huv => ⟨rfl, huv.endRun⟩
  · exact ⟨rfl, h.frame⟩

/-- Settles O60: the two machines have the same bits still to come, so block by block they decode the same. -/
theorem scanResultIndependentOfParameters : Obligations.ScanResultIndependentOfParameters := by
  intro s p q hp hq hmode _ hpos hcodes hsrc
  obtain ⟨t, u, ht, hu, htu⟩ := finish_twin (runScan_twin (same_params hp hq hpos hcodes hsrc))
  refine ⟨t, u, ?_, ?_, sameScan_of_frame htu⟩
  · rw [exec_run_active (by exact hmode)]; exact ht
  · rw [exec_run_active (by exact hmode)]; exact hu

end Sys2Proof.Machine
end

section
/-! ### A step as the execution of one decoded instruction -/

namespace Sys2Proof.Machine

/-- A legal command word executes the instruction it decodes to (R220). -/
theorem executeWord_legal {w : Word} {i : Instr} (hw : decodeCmd w = .ok i) (s : State) : executeWord w s = exec i s := by
  simp only [executeWord, hw]

/-- A write of a legal command word as the next access: `CMD` stands at offset 0 (R22, R25). -/
theorem step_command {s : State} {w : Word} {rest : List Access} {i : Instr} (hu : s.unit = .idle)
    (hs : s.script = .write .word 0 w :: rest) (hw : decodeCmd w = .ok i) : step s = exec i { s with script := rest } :=
  calc step s = hostTurn s := step_of_idle hu
    _ = perform (.write .word 0 w) { s with script := rest } := by simp only [hostTurn, hs]
    _ = executeWord w { s with script := rest } := rfl
    _ = exec i { s with script := rest } := executeWord_legal hw _

/-- A DC symbol the block decoder fetches (R193). -/
theorem step_dc {s t : State} {c : Fin 4} {sym : Byte} (hu : s.unit = .dc c) (hd : decodeSymbol (dcSel s c) s = .ok sym t) :
    step s = exec (decodeDc sym) t := by
  rw [step_of_working (by simp [hu])]
  simp only [unitTurn, hu, hd, presentSymbol]

/-- An AC symbol the block decoder fetches (R194). -/
theorem step_ac {s t : State} {c : Fin 4} {k : Nat} {sym : Byte} (hu : s.unit = .ac c k)
    (hd : decodeSymbol (acSel s c) s = .ok sym t) : step s = exec (decodeAc sym) t := by
  rw [step_of_working (by simp [hu])]
  simp only [unitTurn, hu, hd, presentSymbol]

/-- An escape pair the refiller examines (R171). -/
theorem step_escape {s : State} {left : Nat} (hu : s.unit = .refill (left + 1)) (h0 : s.srcPos ≠ s.srcLen)
    (h1 : s.srcPos + 1#32 ≠ s.srcLen) (hx : srcByte s s.srcPos = 0xFF#8) :
    step s = exec (decodeEscByte (srcByte s (s.srcPos + 1#32))) s := by
  rw [step_of_working (by simp [hu])]
  simp only [unitTurn, hu]
  exact if_pos ⟨h0, hx, h1⟩

/-- Settles O5, one lemma for each place a code is fetched from. -/
theorem stepRunsDecodedInstruction : Obligations.StepRunsDecodedInstruction :=
  ⟨fun _ _ _ _ hu hs hw => step_command hu hs hw, fun _ _ _ _ hu hd => step_dc hu hd,
    fun _ _ _ _ _ hu hd => step_ac hu hd, fun _ _ hu h0 h1 hx => step_escape hu h0 h1 hx⟩

end Sys2Proof.Machine
end

section
/-! ### Reset -/

namespace Sys2Proof.Machine

/-- Reset empties the cursor, the output and the tables, and `Params.least` is within R8 (R42, log entry 1). -/
theorem dataInv_reset : DataInv State.reset where
  params := by decide
  source := rfl
  cursor := by decide
  tables _ hvalid := by simp [State.reset, Table.empty] at hvalid
  loc := ⟨Nat.zero_lt_succ _, Nat.zero_lt_succ _⟩
  coef _ _ := by simp [State.reset]
  outCount := rfl

/-- Settles O12: reset records no fault, stands at the first block and leaves no unit at work. -/
theorem resetMeetsInvariant : Obligations.ResetMeetsInvariant :=
  dataInv_reset.inv (by simp [State.reset]) rfl rfl rfl nofun

/-- With no access left and no unit at work the engine waits (R290). -/
theorem step_waits {s : State} (hu : s.unit = .idle) (hs : s.script = []) : step s = .next s := by
  rw [step_of_idle hu]
  simp only [hostTurn, hs]

/-- Settles O11: both resets answer `resetEngine s`, whose elements are those of `State.reset` (R42). -/
theorem resetPutsEveryElementToItsValue : Obligations.ResetPutsEveryElementToItsValue := by
  intro s
  refine ⟨rfl, resetEngine s, rfl, rfl, rfl, rfl, rfl, rfl, rfl, rfl, rfl, rfl, rfl, ?chCfg, rfl, rfl, rfl, rfl, rfl, rfl,
    rfl, rfl, ?pred, ?coef, rfl, rfl, ?tblCnt, ?tblSym, ?tbl, rfl, rfl, rfl, fun hs => step_waits rfl hs⟩
  case tbl => exact fun _ => by simp [resetEngine, State.reset, Table.empty]
  all_goals exact fun _ => by simp [resetEngine, State.reset]

end Sys2Proof.Machine
end

section
/-! ### The source and the consumer's read -/

namespace Sys2Proof.Machine

/-- A poke changes the byte at its index (R73). -/
theorem srcByte_poke {s : State} (hwf : Memory.wf s.src = true) (i : Word) (v : Byte) (j : Word) :
    srcByte { s with src := Memory.write s.src i.toNat v } j = if j = i then v else srcByte s j := by
  simp only [srcByte, Memory.read_write _ _ _ hwf, BitVec.toNat_inj]

/-- `.src` makes the source hold the bytes given (R93); beyond them it reads as 0 (log entry 2). -/
theorem srcByte_ofBytes (s : State) (bytes : List Byte) (j : Word) :
    srcByte { s with src := Memory.ofBytes 0 bytes } j = bytes.getD j.toNat 0#8 :=
  Memory.read_ofBytes j.toNat 0 bytes (Nat.zero_le _)

/-- A consumer's read of a coefficient of a block that `OUT` holds (R38, R60). -/
theorem perform_readOut {s : State} {i k : Nat} {b : Block} (hb : s.out[i]? = some b) (hk : k < 64) :
    perform (.readOut i k) s = .next { s with lastRead := b[k] } := by
  simp only [perform, hb, dif_pos hk]

/-- Settles O10: below `OUT_COUNT` there is a block, since `OUT_COUNT` is at most the number of blocks. -/
theorem sourceChangesAreExact : Obligations.SourceChangesAreExact := by
  intro s hwf
  refine ⟨fun i v => ⟨_, rfl, rfl, srcByte_poke hwf i v⟩, fun bytes => ⟨_, rfl, rfl, srcByte_ofBytes s bytes⟩, ?_⟩
  intro hcount i k hk hi
  have hlen : i < s.out.length := by
    rw [hcount, BitVec.toNat_ofNat] at hi
    exact Nat.lt_of_lt_of_le hi (Nat.mod_le _ _)
  exact ⟨s.out[i], List.getElem?_eq_getElem hlen, perform_readOut (List.getElem?_eq_getElem hlen) hk⟩

end Sys2Proof.Machine
end

section
/-! ### The register window: reads and writes -/

namespace Sys2Proof.Machine

/-- A host read at a register's offset gives its value and changes nothing of the engine (R23). -/
theorem hostRead_register (r : Reg) (s : State) : hostRead .word r.offset s = .next { s with lastRead := readReg s r } := by
  simp only [hostRead, regAt_offset]

/-- A host write at the offset of a register other than `CMD` (R23). -/
theorem hostWrite_register {r : Reg} (hr : r ≠ .cmd) (v : Word) (s : State) :
    hostWrite .word r.offset v s = .next (writeReg v s r) := by
  simp only [hostWrite, regAt_offset, if_neg hr]

/-- No register shows the value the host read last (log entry 5). -/
theorem readReg_lastRead (s : State) (x : Word) (r : Reg) : readReg { s with lastRead := x } r = readReg s r := by
  cases r <;> rfl

/-- A field of `n` bits, written from a word and read back zero-extended, holds the low `n` bits of the word. -/
theorem setWidth_setWidth_eq_and (n : Nat) (v : Word) :
    (v.setWidth n).setWidth 32 = v &&& (BitVec.allOnes n).setWidth 32 := by
  ext i hi
  simp [BitVec.getLsbD_eq_getElem hi, Bool.and_comm]

/-- A stored register reads back as the bits of the width used (R22, R23). -/
theorem readReg_writeReg_same {r : Reg} {m : Word} (hm : storedBits r = some m) (v : Word) (s : State) :
    readReg (writeReg v s r) r = v &&& m := by
  cases r <;> cases hm
  case mcuCount | mcuStop | srcPos | srcLen => exact BitVec.and_allOnes.symm
  case numCh => exact setWidth_setWidth_eq_and 3 v
  case chCfg | tblCnt | tblSym =>
    simp only [readReg, writeReg, Fin.getElem_fin, Vector.getElem_set_self]
    exact setWidth_setWidth_eq_and _ v

/-- A write of a register that stores nothing is ignored (R23). -/
theorem writeReg_of_storedBits_none {r : Reg} (hr : storedBits r = none) (v : Word) (s : State) : writeReg v s r = s := by
  cases r with
  | mcuCount | mcuStop | numCh | chCfg | srcPos | srcLen | tblCnt | tblSym => cases hr
  | _ => rfl

/-- One entry of a register array written, another one read. -/
theorem getElem_set_of_ne {α : Type} {n : Nat} (xs : Vector α n) {i j : Fin n} (h : j ≠ i) (x : α) : (xs.set i x)[j] = xs[j] :=
  Vector.getElem_set_ne i.isLt j.isLt fun hij => h (Fin.ext hij.symm)

/-- A write of a register changes no other one (R23). -/
theorem readReg_writeReg_of_ne {r r' : Reg} (h : r' ≠ r) (v : Word) (s : State) : readReg (writeReg v s r) r' = readReg s r' := by
  cases r <;> cases r'
  case mcuCount.mcuCount | mcuStop.mcuStop | numCh.numCh | srcPos.srcPos | srcLen.srcLen => exact absurd rfl h
  case chCfg.chCfg | tblCnt.tblCnt | tblSym.tblSym =>
    exact congrArg (BitVec.setWidth 32) (getElem_set_of_ne _ (fun hij => h (congrArg _ hij)) _)
  all_goals rfl

/-- A write of a register changes nothing of the state but the elements of the read/write registers (R23). -/
theorem writeReg_frame (v : Word) (s : State) (r : Reg) :
    { writeReg v s r with
      mcuCount := s.mcuCount, mcuStop := s.mcuStop, numCh := s.numCh, chCfg := s.chCfg, srcPos := s.srcPos
      srcLen := s.srcLen, tblCnt := s.tblCnt, tblSym := s.tblSym } = s := by
  cases r <;> rfl

/-- Settles O8: the registers are found at their offsets, and a write is `writeReg` there. -/
theorem hostAccessesReadAndStore : Obligations.HostAccessesReadAndStore := by
  intro r v s
  refine ⟨hostRead_register r s, readReg_lastRead s _, rfl, fun hr => ⟨_, hostWrite_register hr v s, ?_⟩⟩
  exact ⟨fun m hm => readReg_writeReg_same hm v s, fun hn => writeReg_of_storedBits_none hn v s,
    fun r' hne => readReg_writeReg_of_ne hne v s, writeReg_frame v s r⟩

end Sys2Proof.Machine
end

section
/-! ### What the computed registers read as -/

namespace Sys2Proof.Machine

/-- The value of two fields side by side. -/
theorem toNat_append_eq {m n : Nat} (x : BitVec m) (y : BitVec n) : (x ++ y).toNat = x.toNat * 2 ^ n + y.toNat := by
  rw [BitVec.toNat_append, ← Nat.shiftLeft_add_eq_or_of_lt y.isLt, Nat.shiftLeft_eq]

/-- `EOF` is 0 exactly while the read position is before the write end (R26, R118). -/
theorem eof_eq_decide (s : State) : eof s = !decide (s.curPos < 8 * s.curData.length) := by
  rw [eof, avail, beq_eq_decide, ← decide_not]
  exact decide_eq_decide.2 (by omega)

/-- `STATUS` (R26). -/
theorem statusWord_toNat (s : State) :
    (statusWord s).toNat = s.mode.code.toNat + (if s.curPos < 8 * s.curData.length then 0 else 4) + (if s.eoe then 8 else 0) := by
  have heof : (eof s).toNat = if s.curPos < 8 * s.curData.length then 0 else 1 := by
    rw [eof_eq_decide]
    split <;> simp [*]
  have heoe : s.eoe.toNat = if s.eoe then 1 else 0 := by cases s.eoe <;> rfl
  simp only [statusWord, toNat_append_eq, BitVec.toNat_ofBool, heof, heoe, BitVec.toNat_ofNat]
  split <;> split <;> omega

/-- `LOOP_POS` when its fields hold the coordinates (R30). -/
theorem loopPosWord_toNat {s : State} (hch : s.chIdx < 4) (hblk : s.blkIdx < 256) :
    (loopPosWord s).toNat = 256 * s.chIdx + s.blkIdx := by
  simp only [loopPosWord, toNat_append_eq, locWord, BitVec.toNat_ofNat]
  omega

/-- `CUR_AVAIL` holds the unread bits of a cursor in order: there are less than `8 * CAP_MAX` (R31, R32). -/
theorem curAvailWord_toNat {s : State} (hcur : cursorOk s) (hp : s.params.ok) :
    (curAvailWord s).toNat = 8 * s.curData.length - s.curPos := by
  obtain ⟨-, -, htail, -⟩ := hcur
  obtain ⟨-, -, -, -, -, hcap, -⟩ := hp
  rw [curAvailWord, BitVec.toNat_ofNat, avail]
  rw [tail] at htail
  exact Nat.mod_eq_of_lt (by omega)

/-- `CUR_BIT` (R32). -/
theorem curBitWord_toNat (s : State) : (curBitWord s).toNat = s.curPos % 8 := by
  rw [curBitWord, BitVec.toNat_ofNat]
  omega

/-- `TBL_VALID`, bit by bit (R37). -/
theorem tblValidWord_bit (s : State) (j : Fin 8) : (tblValidWord s).getLsbD j = s.tbl[j].valid := by
  simp only [tblValidWord, BitVec.getLsbD_append, BitVec.getLsbD_ofBool]
  fin_cases j <;> simp

/-- One more bit at the low end doubles the bound. -/
theorem toNat_append_ofBool_lt {n k : Nat} {x : BitVec n} (h : x.toNat < 2 ^ k) (b : Bool) :
    (x ++ BitVec.ofBool b).toNat < 2 ^ (k + 1) := by
  have hb : b.toNat < 2 := Bool.toNat_lt b
  rw [toNat_append_eq, BitVec.toNat_ofBool, Nat.pow_succ]
  omega

/-- The upper 24 bits of `TBL_VALID` are reserved (R37). -/
theorem tblValidWord_lt (s : State) : (tblValidWord s).toNat < 2 ^ 8 := by
  unfold tblValidWord
  iterate 8 apply toNat_append_ofBool_lt
  decide

/-- Settles O9: a read at the offset of R22 is a read of the register that stands there. -/
theorem readBackValues : Obligations.ReadBackValues := by
  intro s
  have reads (r : Reg) := hostRead_register r s
  refine ⟨reads .cmd, reads .status, reads .err, reads .errMcu, reads .errLoc, reads .result, reads .mcuCount, reads .mcuStop,
    reads .numCh, fun c => reads (.chCfg c), reads .mcuIdx, reads .loopPos, reads .outCount, fun c => reads (.pred c),
    reads .curAvail, reads .curBit, reads .bitpos, reads .srcPos, reads .srcLen, reads .tblValid, fun i => reads (.tblCnt i),
    fun i => reads (.tblSym i), fun k => reads (.coef k), ?status, loopPosWord_toNat, curAvailWord_toNat,
    curBitWord_toNat s, tblValidWord_bit s, tblValidWord_lt s⟩
  case status =>
    rw [show readReg s .status = statusWord s from rfl, statusWord_toNat]
    cases s.mode <;> rfl

end Sys2Proof.Machine
end

section
/-! ### The frame of every instruction -/

namespace Sys2Proof.Machine

/-- Settles O19: RESET writes only the engine, and every other instruction has the frame of `exec_frame`. -/
theorem onlyNamedInstructionsWrite : Obligations.OnlyNamedInstructionsWrite := by
  intro i s t ht
  by_cases hi : i = .reset
  · subst hi
    cases ht
    exact ⟨rfl, rfl, rfl, rfl, fun hne => absurd rfl hne⟩
  · obtain ⟨⟨hparams, hsrc, hscript, hlast, hpred, hcoef, hread, -, htbl, hloop, hcount, hstop, hnum, hcfg, hlen, hcnt, hsym, hres⟩,
      hfault⟩ := exec_frame hi ht
    refine ⟨hparams, hsrc, hscript, hlast, fun _ => ⟨?result, hpred, hcoef, hread, ?eoe, htbl, hloop, hcount, hstop, hnum, hcfg,
      hlen, hcnt, hsym⟩⟩
    case result =>
      rintro (hw | ⟨hs, hf⟩)
      · exact hres hw
      · exact (hfault hs hf).2
    case eoe => exact fun hscan hresync heoe => exec_eoe hi hscan hresync heoe ht

end Sys2Proof.Machine
end

section
/-! ### The codes of an accepted table definition -/

namespace Sys2Proof.Machine

/-- There is a symbol for each code of an accepted definition (R142). -/
theorem staged_syms_suffice {s : State} (h : (stagedCounts s).sum ≤ 256) : (stagedCounts s).sum ≤ s.tblSym.toList.length := by
  simpa using h

/-- Settles O32, from the laws of `assign` with one symbol for each code. -/
theorem assignedCodesArePrefixFree : Obligations.AssignedCodesArePrefixFree := by
  intro s hsum hfit
  have hsyms := staged_syms_suffice hsum
  refine ⟨codesOk_assign _ (length_stagedCounts s).le hsum hfit, fun e he => ?first, fun j e e' he he' => ?next, fun i => ?count,
    assign_syms ..⟩
  case first =>
    obtain ⟨-, hcode⟩ := assign_head hsyms (List.head?_eq_getElem? ▸ he)
    simpa using hcode
  case next =>
    obtain ⟨hj, rfl⟩ := List.getElem?_eq_some_iff.1 he
    obtain ⟨hj', rfl⟩ := List.getElem?_eq_some_iff.1 he'
    exact List.isChain_iff_getElem.1 (assign_chain 1 0 _ _ hsyms) j hj'
  case count =>
    rw [stagedCodes, assign_count _ 1 0 _ _ (Nat.le_add_left 1 _) hsyms]
    simp [stagedCounts]

end Sys2Proof.Machine
end

section
/-! ### What DECODE_BLOCK may write -/

namespace Sys2Proof.Machine

/-- The codes of the faults of a block (R201, R260). -/
theorem code_of_blockFault {e : Err} (h : blockFault e) : e.code = 1#8 ∨ e.code = 2#8 ∨ e.code = 5#8 ∨ e.code = 6#8 := by
  rcases h with rfl | rfl | rfl | rfl <;> simp [Err.code]

/-- Settles O49: a block ends, with or without a fault, `m` bits on, with its predictor and `COEF` written. -/
theorem decodeBlockWritesOnlyItsBlock : Obligations.DecodeBlockWritesOnlyItsBlock := by
  intro s c hmode
  have hexec : exec (.decodeBlock c) s = finish (decodeBlock c s) := command_any hmode
  refine ⟨fun hinvalid => ?_, fun hdc hac => ?_⟩
  · rw [hexec, decodeBlock_invalid (Bool.and_eq_false_iff.2 hinvalid), finish_raised]
  · have hv := blockTablesValid_iff.2 ⟨hdc, hac⟩
    have hsat := decodeBlock_sat c s
    cases hr : decodeBlock c s with
    | ok a t =>
      rw [hr] at hsat
      obtain ⟨m, v, coef, rfl, hm, -⟩ := hsat
      exact ⟨_, hexec.trans (congrArg finish hr), rfl, ⟨m, hm, rfl, rfl, rfl⟩, fun c' hc => getElem_set_of_ne _ hc _,
        .inl ⟨rfl, rfl, rfl, rfl, rfl⟩⟩
    | raised e t =>
      rw [hr] at hsat
      rcases hsat with ⟨hbad, -⟩ | ⟨-, hfault, m, v, coef, rfl, hm, -⟩
      · rw [hv] at hbad; cases hbad
      · exact ⟨_, hexec.trans (congrArg finish hr), rfl, ⟨m, hm, rfl, rfl, rfl⟩, fun c' hc => getElem_set_of_ne _ hc _,
          .inr ⟨rfl, rfl, code_of_blockFault hfault⟩⟩

end Sys2Proof.Machine
end

section
/-! ### `OUT` and the coordinates -/

namespace Sys2Proof.Machine

/-- At the first block of the first MCU nothing has been counted (R30). -/
theorem loopCount_start {s : State} (hm : s.mcuIdx = 0#32) (hc : s.chIdx = 0) (hb : s.blkIdx = 0) : loopCount s = 0 := by
  simp [loopCount, hm, hc, hb]

/-- START_SCAN empties `OUT` and puts the coordinates at the start, or changes neither (R223). -/
theorem startScan_count {s t : State} (h : s.out.length = loopCount s) (ht : exec .startScan s = .next t) :
    t.out.length = loopCount t := by
  refine command_sat (P := fun t => t.out.length = loopCount t) ht h h fun _ => ?_
  unfold startScan
  split
  · exact (loopCount_start rfl rfl rfl).symm
  · exact h

/-- RUN keeps the count from the first block of an MCU on (R225, R228). -/
theorem run_count {s t : State} (hcoord : coordinatesOk s) (h : s.out.length = loopCount s) (ht : exec .run s = .next t) :
    t.out.length = loopCount t := by
  refine command_sat (P := fun t => t.out.length = loopCount t) ht h h fun hmode => ?_
  obtain ⟨-, -, hzero⟩ := hcoord
  obtain ⟨hc, hb⟩ := hzero hmode
  have hcounted : Counted s := ⟨h, by omega, fun _ => hb, fun _ => by omega⟩
  unfold runScan
  split
  · refine ((runLoop_counted _ s hcounted).mono (fun _ _ hu => hu) (fun _ _ hu => hu)).bind fun _ u hu => ?_
    show (endRun u).out.length = loopCount (endRun u)
    unfold endRun
    split <;> exact hu
  · exact h

/-- Settles O59: RESET and START_SCAN begin at 0, RUN counts, and the other commands write no coordinate. -/
theorem outputCountFollowsCoordinates : Obligations.OutputCountFollowsCoordinates := by
  intro i s t _ hcoord h ht
  by_cases hreset : i = .reset
  · subst hreset
    cases ht
    exact (loopCount_start rfl rfl rfl).symm
  by_cases hscan : i = .startScan
  · exact startScan_count h (hscan ▸ ht)
  by_cases hrun : i = .run
  · exact run_count hcoord h (hrun ▸ ht)
  obtain ⟨-, -, -, -, -, -, -, -, -, hloop, -, -, hnum, hcfg, -⟩ := (exec_frame hreset ht).1
  obtain ⟨hout, -, hmcu, hch, hblk, -⟩ := hloop hrun hscan
  rw [hout, loopCount_congr hnum hcfg hmcu hch hblk, h]

end Sys2Proof.Machine
end

section
/-! ### Which accesses of the registers are refused -/

namespace Sys2Proof.Machine

/-- A register stands at every mapped offset (R22). -/
theorem exists_reg_of_mapped {o : Nat} (ho : mappedOffset o) : ∃ r : Reg, r.offset = o := by
  obtain ⟨r, hr⟩ := Option.ne_none_iff_exists'.1 fun hnone => (regAt_none o).1 hnone ho
  rw [regAt, if_pos ho.1] at hr
  exact ⟨r, (regAtWord_offset _ _ hr).trans (Nat.mul_div_cancel' (Nat.dvd_of_mod_eq_zero ho.1))⟩

/-- A read of another width or at an unmapped offset is refused (R66). -/
theorem hostRead_refused {w : Width} {o : Nat} (h : ¬ (w = .word ∧ mappedOffset o)) (s : State) :
    hostRead w o s = .refused .badRegisterAccess := by
  cases w with
  | byte | half => rfl
  | word =>
    have hnone : regAt o = none := (regAt_none o).2 fun ho => h ⟨rfl, ho⟩
    simp only [hostRead, hnone]

/-- A write of another width or at an unmapped offset is refused (R66). -/
theorem hostWrite_refused {w : Width} {o : Nat} (h : ¬ (w = .word ∧ mappedOffset o)) (v : Word) (s : State) :
    hostWrite w o v s = .refused .badRegisterAccess := by
  cases w with
  | byte | half => rfl
  | word =>
    have hnone : regAt o = none := (regAt_none o).2 fun ho => h ⟨rfl, ho⟩
    simp only [hostWrite, hnone]

/-- A 32-bit read at a mapped offset is performed (R23). -/
theorem hostRead_next {o : Nat} (ho : mappedOffset o) (s : State) : ∃ t, hostRead .word o s = .next t := by
  obtain ⟨r, rfl⟩ := exists_reg_of_mapped ho
  exact ⟨_, hostRead_register r s⟩

/-- A register write enters no other mode and records no fault (R23). -/
theorem writeReg_mode_err (v : Word) (s : State) (r : Reg) : (writeReg v s r).mode = s.mode ∧ (writeReg v s r).err = s.err := by
  cases r <;> exact ⟨rfl, rfl⟩

/-- A 32-bit write at a mapped offset is performed; only the command a write of `CMD` executes can raise a fault (R23, R25). -/
theorem hostWrite_next {o : Nat} (ho : mappedOffset o) (v : Word) (s : State) :
    ∃ t, hostWrite .word o v s = .next t ∧ (o ≠ 0 → t.mode = s.mode ∧ t.err = s.err) := by
  obtain ⟨r, rfl⟩ := exists_reg_of_mapped ho
  by_cases hr : r = .cmd
  · subst hr
    obtain ⟨t, ht⟩ := executeWord_next v s
    exact ⟨t, ht, fun hne => absurd rfl hne⟩
  · exact ⟨_, hostWrite_register hr v s, fun _ => writeReg_mode_err v s r⟩

/-- Settles O7: the mapped offsets are those at which a register stands. -/
theorem unmappedAccessIsRefused : Obligations.UnmappedAccessIsRefused := by
  intro w o v s
  refine ⟨fun h => ⟨hostRead_refused h s, hostWrite_refused h v s⟩, ?_⟩
  rintro rfl ho
  exact ⟨hostRead_next ho s, hostWrite_next ho v s⟩

end Sys2Proof.Machine
end

section
/-! ### Which steps answer a next state -/

namespace Sys2Proof.Machine

/-- Fetching a symbol moves the read position only, so the unit goes on waiting (R150). -/
theorem decodeSymbol_unit {sel : Fin 8} {s t : State} {y : Byte} (h : decodeSymbol sel s = .ok y t) : t.unit = s.unit := by
  have hsat := decodeSymbol_sat sel s
  rw [h] at hsat
  obtain ⟨_, -, -, rfl, -⟩ := hsat
  rfl

/-- A turn of the refiller answers a next state, with an escape pair at `SRC_POS` or without (R171, R172). -/
theorem refillerTurn_next {left l : Nat} {s : State} (hu : s.unit = .refill l) : ∃ t, refillerTurn left s = .next t := by
  unfold refillerTurn
  split
  · exact exec_esc_next hu _
  · exact finish_next _

/-- A unit presents a code only to itself, so its turn answers a next state (log entry 4). -/
theorem unitTurn_next (s : State) : ∃ t, unitTurn s = .next t := by
  unfold unitTurn
  split
  · exact ⟨_, rfl⟩
  · exact ⟨_, rfl⟩
  · next hu => exact refillerTurn_next hu
  · next hu => exact presentSymbol_next fun y _ hy => exec_dc_next ((decodeSymbol_unit hy).trans hu) y
  · next hu => exact presentSymbol_next fun y _ hy => exec_ac_next ((decodeSymbol_unit hy).trans hu) y

/-- With no unit at work a step makes the next access of the script (R7). -/
theorem step_access {s : State} {a : Access} {rest : List Access} (hu : s.unit = .idle) (hs : s.script = a :: rest) :
    step s = perform a { s with script := rest } := by
  rw [step_of_idle hu]
  simp only [hostTurn, hs]

/-- A consumer's read of what is not in `OUT` is refused (R60, log entry 16). -/
theorem perform_readOut_refused {s : State} {i k : Nat} (h : ¬ (i < s.out.length ∧ k < 64)) :
    perform (.readOut i k) s = .refused .badOutIndex := by
  simp only [perform]
  split
  · next hb =>
    obtain ⟨hi, -⟩ := List.getElem?_eq_some_iff.1 hb
    exact dif_neg fun hk => h ⟨hi, hk⟩
  · rfl

/-- Settles O17: a unit at work never stops, and an access stops only where it is refused. -/
theorem stepStopsOnlyAtRefusedAccess : Obligations.StepStopsOnlyAtRefusedAccess := by
  intro s _
  by_cases hu : s.unit = .idle
  case neg => exact .inl (step_of_working hu ▸ unitTurn_next s)
  cases hs : s.script with
  | nil => exact .inl ⟨s, step_waits hu hs⟩
  | cons a rest =>
    rw [step_access hu hs]
    cases a with
    | read w o =>
      by_cases h : w = .word ∧ mappedOffset o
      · obtain ⟨rfl, ho⟩ := h
        exact .inl (hostRead_next ho _)
      · exact .inr ⟨hu, rest, .inl ⟨hostRead_refused h _, .inl ⟨w, o, rfl, h⟩⟩⟩
    | write w o v =>
      by_cases h : w = .word ∧ mappedOffset o
      · obtain ⟨rfl, ho⟩ := h
        obtain ⟨t, ht, -⟩ := hostWrite_next ho v { s with script := rest }
        exact .inl ⟨t, ht⟩
      · exact .inr ⟨hu, rest, .inl ⟨hostWrite_refused h v _, .inr ⟨w, o, v, rfl, h⟩⟩⟩
    | readOut i k =>
      by_cases h : i < s.out.length ∧ k < 64
      · obtain ⟨hi, hk⟩ := h
        exact .inl ⟨_, perform_readOut (s := { s with script := rest }) (List.getElem?_eq_getElem hi) hk⟩
      · exact .inr ⟨hu, rest, .inr ⟨perform_readOut_refused h, i, k, rfl, h⟩⟩
    | source | poke | hardwareReset => exact .inl ⟨_, rfl⟩

end Sys2Proof.Machine
end

section
/-! ### The word load of a read -/

namespace Sys2Proof.Machine

/-- The low `n` bits of a run of bits are its last `n`. -/
theorem bitsAt_mod (d : List Byte) (q m n : Nat) : bitsAt d q (m + n) % 2 ^ n = bitsAt d (q + m) n := by
  rw [bitsAt_add, Nat.mul_add_mod_of_lt (bitsAt_lt ..)]

/-- A run of bits without its low `m` bits is its first `n`. -/
theorem bitsAt_div (d : List Byte) (q n m : Nat) : bitsAt d q (n + m) / 2 ^ m = bitsAt d q n := by
  rw [bitsAt_add, Nat.mul_comm, Nat.mul_add_div (Nat.two_pow_pos m), Nat.div_eq_of_lt (bitsAt_lt ..), Nat.add_zero]

/-- The word load takes the `n` bits at the read position out of the whole bytes around them (R113). -/
theorem wordRead_eq_bitsAt (d : List Byte) (pos n : Nat) : wordRead d pos n = bitsAt d pos n := by
  obtain ⟨r, hr⟩ : ∃ r, 8 * bytesSpanned pos n = pos % 8 + (n + r) :=
    ⟨8 * bytesSpanned pos n - pos % 8 - n, by unfold bytesSpanned; omega⟩
  rw [wordRead, loadWord_eq, hr, Nat.add_sub_cancel_left, Nat.add_sub_cancel_left, bitsAt_mod, Nat.div_add_mod, bitsAt_div]

/-- A read of 1 to 25 bits spans 1 to 4 bytes (R67). -/
theorem bytesSpanned_bounds (pos : Nat) {n : Nat} (h1 : 1 ≤ n) (h25 : n ≤ 25) :
    1 ≤ bytesSpanned pos n ∧ bytesSpanned pos n ≤ 4 := by
  unfold bytesSpanned
  omega

/-- Settles O24. -/
theorem wordLoadGivesTheSameBits : Obligations.WordLoadGivesTheSameBits := fun s n h1 h25 _ =>
  ⟨wordRead_eq_bitsAt s.curData s.curPos n, bytesSpanned_bounds s.curPos h1 h25⟩

end Sys2Proof.Machine
end

section
/-! ### Decoding and encoding are inverse (spec/30_encoding.md R80 to R90) -/

namespace Sys2Proof

/-- A well-formed instruction is what its code decodes to, instruction by instruction. -/
theorem decode_encode (i : Instr) : i.wf = true → decode (encode i) = .ok i :=
  match i with
  | .nop => Laws.RoundTrip.nop
  | .reset => Laws.RoundTrip.reset
  | .clear => Laws.RoundTrip.clear
  | .append x => Laws.RoundTrip.append x
  | .nextbits n => Laws.RoundTrip.nextbits n
  | .backbits n => Laws.RoundTrip.backbits n
  | .align => Laws.RoundTrip.align
  | .loadTable sel => Laws.RoundTrip.loadTable sel
  | .decodeSym sel => Laws.RoundTrip.decodeSym sel
  | .refill => Laws.RoundTrip.refill
  | .decodeBlock c => Laws.RoundTrip.decodeBlock c
  | .startScan => Laws.RoundTrip.startScan
  | .run => Laws.RoundTrip.run
  | .predReset => Laws.RoundTrip.predReset
  | .resync => Laws.RoundTrip.resync
  | .eob => Laws.RoundTrip.eob
  | .zrl => Laws.RoundTrip.zrl
  | .runsize r s => Laws.RoundTrip.runsize r s
  | .acrsvd r => Laws.RoundTrip.acrsvd r
  | .dcsize s => Laws.RoundTrip.dcsize s
  | .dcrsvd sym => Laws.RoundTrip.dcrsvd sym
  | .stuff => Laws.RoundTrip.stuff
  | .eoi => Laws.RoundTrip.eoi
  | .marker x => Laws.RoundTrip.marker x
  | .badesc => Laws.RoundTrip.badesc

/-- Settles O1. -/
theorem decodeOfEncodeIsIdentity : Obligations.DecodeOfEncodeIsIdentity := decode_encode

/-- The instruction `i` is well formed and `c` is its code. -/
abbrev IsCodeOf (c : Code) (i : Instr) : Prop := i.wf = true ∧ encode i = c

/-! #### Command words -/

section
variable {op arg : Byte} {i : Instr}

/-- A command without argument is accepted with `ARG = 0` only (R82). -/
theorem noArgument_isCodeOf {j : Instr} (hj : IsCodeOf (.cmd (cmdWord op 0#8)) j) (h : noArgument arg j = .ok i) :
    IsCodeOf (.cmd (cmdWord op arg)) i := by
  unfold noArgument at h
  split at h
  · next harg => cases h; rwa [harg]
  · cases h

/-- A selector is accepted only when it is all of `ARG` (R82). -/
theorem selectorArgument_isCodeOf {f : Fin 8 → Instr}
    (hf : ∀ sel : Fin 8, IsCodeOf (.cmd (cmdWord op (BitVec.ofNat 8 sel.val))) (f sel))
    (h : selectorArgument arg f = .ok i) : IsCodeOf (.cmd (cmdWord op arg)) i := by
  unfold selectorArgument at h
  split at h
  · next harg => cases h; simpa using hf ⟨arg.toNat, harg⟩
  · cases h

/-- A channel is accepted only when it is all of `ARG` (R82). -/
theorem channelArgument_isCodeOf {f : Fin 4 → Instr}
    (hf : ∀ c : Fin 4, IsCodeOf (.cmd (cmdWord op (BitVec.ofNat 8 c.val))) (f c))
    (h : channelArgument arg f = .ok i) : IsCodeOf (.cmd (cmdWord op arg)) i := by
  unfold channelArgument at h
  split at h
  · next harg => cases h; simpa using hf ⟨arg.toNat, harg⟩
  · cases h

/-- A bit count is accepted only in its range (R83). -/
theorem countArgument_isCodeOf {lo : Nat} {f : Nat → Instr}
    (hf : ∀ n, lo ≤ n → n ≤ nbitsMax → IsCodeOf (.cmd (cmdWord op (BitVec.ofNat 8 n))) (f n))
    (h : countArgument lo arg f = .ok i) : IsCodeOf (.cmd (cmdWord op arg)) i := by
  unfold countArgument at h
  split at h
  · next harg => cases h; simpa using hf arg.toNat harg.1 harg.2
  · cases h

/-- The opcode map loses nothing of `OP` and `ARG` (R81). -/
theorem decodeOpcode_isCodeOf (h : decodeOpcode op arg = .ok i) : IsCodeOf (.cmd (cmdWord op arg)) i := by
  have hop : BitVec.ofNat 8 op.toNat = op := by simp
  unfold decodeOpcode at h
  generalize op.toNat = n at h hop
  subst hop
  split at h
  -- In the order of `OP`: APPEND, the two bit counts, the two selectors, the channel, the unknown opcodes; the others have no argument.
  case h_4 => cases h; exact ⟨rfl, rfl⟩
  case h_5 => exact countArgument_isCodeOf (fun n h1 h25 => ⟨by simp [Instr.wf, h1, h25], rfl⟩) h
  case h_6 => exact countArgument_isCodeOf (fun n _ h25 => ⟨by simp [Instr.wf, h25], rfl⟩) h
  case h_8 | h_9 => exact selectorArgument_isCodeOf (fun _ => ⟨rfl, rfl⟩) h
  case h_11 => exact channelArgument_isCodeOf (fun _ => ⟨rfl, rfl⟩) h
  case h_16 => cases h
  all_goals exact noArgument_isCodeOf ⟨rfl, rfl⟩ h

/-- A legal command word is the code of its instruction (R80, R83). -/
theorem decodeCmd_isCodeOf {w : Word} (h : decodeCmd w = .ok i) : IsCodeOf (.cmd w) i := by
  unfold decodeCmd at h
  split at h
  · next hres => exact cmdWord_fields w hres ▸ decodeOpcode_isCodeOf h
  · cases h

end

/-! #### Symbols and escape pairs -/

/-- A DC symbol is the code of its class (R88). -/
theorem decodeDc_isCodeOf (y : Byte) : IsCodeOf (.dcSym y) (decodeDc y) := by
  have hy := symbol_fields y
  unfold decodeDc dcCases
  split
  · next hrun => exact ⟨rfl, by rw [hrun] at hy; rw [encode, hy]⟩
  · next hrun =>
    refine ⟨decide_eq_true (Nat.le_of_not_lt fun hlt => hrun ?_), rfl⟩
    exact Machine.runField_eq_zero (Nat.le_of_lt_succ hlt)

/-- An AC symbol is the code of its class: a reserved one has `R` in 1 to 14, since `R = 0` is EOB and `R = 15` is ZRL (R88). -/
theorem decodeAc_isCodeOf (y : Byte) : IsCodeOf (.acSym y) (decodeAc y) := by
  have hy := symbol_fields y
  unfold decodeAc acCases
  split
  · next heob => exact ⟨rfl, by rw [heob]; rfl⟩
  split
  · next hzrl => exact ⟨rfl, by rw [hzrl]; rfl⟩
  split
  · next heob hzrl hsize =>
    rw [hsize] at hy
    have h0 : runField y ≠ 0 := fun h => heob (by rw [← hy, h]; rfl)
    have h15 : runField y ≠ 15 := fun h => hzrl (by rw [← hy, h]; rfl)
    refine ⟨?_, congrArg Code.acSym hy⟩
    simp only [Instr.wf, Bool.and_eq_true, decide_eq_true_eq]
    omega
  · next hsize => exact ⟨decide_eq_true hsize, congrArg Code.acSym hy⟩

/-- The byte after a `0xFF` is the second byte of the pair it stands for (R90). -/
theorem decodeEscByte_isCodeOf (x : Byte) : IsCodeOf (.esc (escWord x)) (decodeEscByte x) := by
  unfold decodeEscByte escCases
  split
  · next hstuff => exact ⟨rfl, by rw [hstuff]; rfl⟩
  split
  · next heoi => exact ⟨rfl, by rw [heoi]; rfl⟩
  split
  · next heoi hmarker => exact ⟨by simpa [Instr.wf, isMarker, heoi] using hmarker, rfl⟩
  · next hstuff _ hmarker =>
    have hff : x = 0xFF#8 := by
      simp only [isMarker, Bool.and_eq_true, decide_eq_true_eq] at hmarker
      bv_omega
    exact ⟨rfl, by rw [hff]; rfl⟩

/-- A pair whose first byte is `0xFF` is given by its second byte (R90). -/
theorem escWord_lowByte {w : BitVec 16} (h : w.extractLsb' 8 8 = 0xFF#8) : escWord (w.extractLsb' 0 8) = w := by
  rw [escWord, ← h]
  exact (BitVec.extractLsb'_append_extractLsb'_eq_extractLsb' rfl).trans BitVec.extractLsb'_eq_self

/-- An escape pair is the code of its class (R90). -/
theorem decodeEsc_isCodeOf {w : BitVec 16} {i : Instr} (h : decodeEsc w = .ok i) : IsCodeOf (.esc w) i := by
  unfold decodeEsc at h
  split at h
  · next hff =>
    cases h
    obtain ⟨hwf, henc⟩ := decodeEscByte_isCodeOf (w.extractLsb' 0 8)
    exact ⟨hwf, henc.trans (congrArg Code.esc (escWord_lowByte hff))⟩
  · cases h

/-- Settles O2, format by format. -/
theorem decodedCodeIsTheEncoding : Obligations.DecodedCodeIsTheEncoding := by
  intro c i h
  cases c with
  | cmd w => exact decodeCmd_isCodeOf h
  | dcSym y => cases h; exact decodeDc_isCodeOf y
  | acSym y => cases h; exact decodeAc_isCodeOf y
  | esc w => exact decodeEsc_isCodeOf h

/-- Settles O3: a sample that decodes is the encoding of its instruction, and a count of 26 is out of range. -/
theorem sampleCodesDecode : Obligations.SampleCodesDecode :=
  ⟨decode_encode .nop rfl, decode_encode (.append 0xA5#8) rfl, decode_encode (.nextbits 25) rfl, decode_encode (.backbits 0) rfl,
    decode_encode (.loadTable 5) rfl, decode_encode (.decodeBlock 3) rfl, decode_encode .run rfl, rfl,
    decode_encode (.runsize 2 3) rfl, decode_encode (.acrsvd 14) rfl, decode_encode (.dcsize 15) rfl,
    decode_encode (.marker 0xD0#8) rfl⟩

end Sys2Proof
end

section
/-! ### The illegal command words (spec/30_encoding.md R83) -/

namespace Sys2Proof.Machine

/-- `OP` and `ARG` are such that no command has them (R83). -/
abbrev illegalFields (op arg : Nat) : Prop :=
  0x0F ≤ op ∨ (op = 0x04 ∧ (arg = 0 ∨ 25 < arg)) ∨ (op = 0x05 ∧ 25 < arg) ∨
    ((op = 0x07 ∨ op = 0x08) ∧ 7 < arg) ∨ (op = 0x0A ∧ 3 < arg) ∨
    ((op < 0x03 ∨ op = 0x06 ∨ op = 0x09 ∨ (0x0B ≤ op ∧ op ≤ 0x0E)) ∧ arg ≠ 0)

/-- R83's objections to a command word: its reserved bits, then its fields. -/
abbrev illegalWord (w : Word) : Prop := w.toNat / 65536 ≠ 0 ∨ illegalFields (w.toNat % 256) (w.toNat / 256 % 256)

/-- The reserved bits of a word are 0 when it is below `2^16` (R80). -/
theorem reservedField_eq_zero_iff (w : Word) : reservedField w = 0#16 ↔ w.toNat / 65536 = 0 := by
  rw [← toNat_reservedField]
  exact BitVec.toNat_inj.symm

/-- A command word is illegal and rejected, or legal and decoded (R83). -/
theorem decodeCmd_cases (w : Word) :
    (illegalWord w ∧ ∃ r, decodeCmd w = .error r) ∨ (¬ illegalWord w ∧ ∃ i, decodeCmd w = .ok i) := by
  by_cases hres : reservedField w = 0#16
  · have hdec : decodeCmd w = decodeOpcode (opField w) (argField w) := if_pos hres
    have hlow : ¬ w.toNat / 65536 ≠ 0 := not_not.2 ((reservedField_eq_zero_iff w).1 hres)
    rw [hdec]
    rcases decodeOpcode_cases (opField w) (argField w) _ _ (toNat_opField w) (toNat_argField w) with ⟨hill, he⟩ | ⟨hleg, hi⟩
    · exact .inl ⟨.inr hill, he⟩
    · exact .inr ⟨not_or.2 ⟨hlow, hleg⟩, hi⟩
  · exact .inl ⟨.inl (hres ∘ (reservedField_eq_zero_iff w).2), .reservedBits, if_neg hres⟩

/-- A rejected word is a command that only raises `BadCommand` (R83, R220). -/
theorem executeWord_illegal {w : Word} {r : Reject} (hw : decodeCmd w = .error r) (s : State) :
    executeWord w s = command anyState (fun s => .raised .badCommand s) s := by
  simp only [executeWord, hw]

/-- Settles O4: an illegal word is a rejected one, and no word is both illegal and legal. -/
theorem illegalCommandWords : Obligations.IllegalCommandWords := by
  intro w s op arg illegal
  rcases decodeCmd_cases w with ⟨hill, r, hr⟩ | ⟨hleg, hi⟩
  · refine ⟨fun _ hm => ?_, fun _ hm => ?_, fun hleg => absurd hill hleg⟩
    · rw [executeWord_illegal hr, command_any hm, finish_raised]
    · rw [executeWord_illegal hr, command_fault hm]
  · exact ⟨fun hill => absurd hill hleg, fun hill => absurd hill hleg, fun _ => hi⟩

end Sys2Proof.Machine
end

section
/-! ### A placed code is the one fetched -/

namespace Sys2Proof.Machine

/-- A table word that is read as an instruction is a code of one of the three widths, and that code decodes (log entry 3). -/
theorem decodeTableWord_eq_some {nbits w : Nat} {i : Instr} (h : decodeTableWord nbits w = some i) :
    ∃ c, codeOfTableWord nbits w = some c ∧ decode c = .ok i := by
  unfold decodeTableWord at h
  split at h
  · next c hc =>
    split at h
    · next hd => cases h; exact ⟨c, hc, hd⟩
    · cases h
  · cases h

/-- The widths of a table word (log entry 3). -/
theorem width_of_codeOfTableWord {nbits w : Nat} {c : Code} (h : codeOfTableWord nbits w = some c) :
    nbits = 32 ∨ nbits = 16 ∨ nbits = 8 := by
  by_contra hne
  obtain ⟨h32, h16, h8⟩ : nbits ≠ 32 ∧ nbits ≠ 16 ∧ nbits ≠ 8 := by omega
  simp [codeOfTableWord, h32, h16, h8] at h

/-- A placed command word is the next access (log entry 6). -/
theorem step_placeCommand {w : Word} {i : Instr} (hw : decodeCmd w = .ok i) (s : State) :
    step (placeCommand w s) = exec i { s with unit := .idle } :=
  step_command rfl rfl hw

/-- A placed AC symbol is the one the block decoder fetches, its one-bit codeword consumed (log entry 6). -/
theorem step_placeSymbol_ac (y : Byte) (s : State) :
    step (placeSymbol (acSel s 0) y (.ac 0 1) s) = exec (decodeAc y) (advance 1 (placeSymbol (acSel s 0) y (.ac 0 1) s)) :=
  step_ac rfl (decode_placed (acSel s 0) y (.ac 0 1) s)

/-- A placed pair is the one the refiller examines: its second byte gives the instruction (log entry 6). -/
theorem step_placeEscape {v : BitVec 16} {i : Instr} (hv : decodeEsc v = .ok i) {s : State} (hs : Memory.wf s.src = true) :
    step (placeEscape v s) = exec i (placeEscape v s) := by
  have hbyte := placeEscape_byte v s hs
  unfold decodeEsc at hv
  split at hv
  · next hff =>
    cases hv
    have hfirst : srcByte (placeEscape v s) (placeEscape v s).srcPos = 0xFF#8 := by
      rw [hbyte]; exact (if_pos rfl).trans hff
    have hsecond : srcByte (placeEscape v s) ((placeEscape v s).srcPos + 1#32) = v.extractLsb' 0 8 := by
      rw [hbyte]; exact (if_neg (ne_succ s.srcPos 1 (by omega) (by omega)).symm).trans (if_pos rfl)
    have hend : s.srcPos + 1#32 ≠ s.srcPos + 2#32 := by bv_omega
    rw [← hsecond]
    exact step_escape rfl (ne_succ s.srcPos 2 (by omega) (by omega)) hend hfirst
  · cases hv

/-- The first byte of a pair is its high one (R90). -/
theorem highByte_ofNat (w : Nat) : (BitVec.ofNat 16 w).extractLsb' 8 8 = BitVec.ofNat 8 (w / 256) := by
  apply BitVec.eq_of_toNat_eq
  simp [Nat.shiftRight_eq_div_pow]
  omega

/-- The second byte of a pair is its low one (R90). -/
theorem lowByte_ofNat (w : Nat) : (BitVec.ofNat 16 w).extractLsb' 0 8 = BitVec.ofNat 8 w := by
  apply BitVec.eq_of_toNat_eq
  simp

/-- Settles O6, one width after the other. -/
theorem placedWordIsExecuted : Obligations.PlacedWordIsExecuted := by
  intro s nbits w i hs h
  obtain ⟨c, hc, hd⟩ := decodeTableWord_eq_some h
  have hplace : s.withFetchWord nbits w = placeCode c s := by simp only [State.withFetchWord, hc]
  rw [hplace]
  refine ⟨width_of_codeOfTableWord hc, ?cmd, ?esc, ?sym⟩ <;> rintro rfl <;> cases hc
  case cmd => exact ⟨hd, step_placeCommand hd s⟩
  case esc =>
    refine ⟨hd, step_placeEscape hd hs, rfl, fun j => ?_⟩
    rw [placeEscape_byte _ _ hs, highByte_ofNat, lowByte_ofNat]
  case sym =>
    cases hd
    exact ⟨rfl, step_placeSymbol_ac _ s⟩

end Sys2Proof.Machine
end

section
/-! ### Stream codes outside their units -/

namespace Sys2Proof.Machine

/-- An AC symbol is acted upon at an AC place only (log entry 4). -/
theorem onAc_outside {s : State} (h : ∀ c k, s.unit ≠ .ac c k) (op : Nat → State → Res Nat) :
    onAc op s = .fault .codeOutsideUnit := by
  unfold onAc
  split
  · next hu => exact absurd hu (h _ _)
  all_goals rfl

/-- A DC symbol is acted upon at a DC place only (log entry 4). -/
theorem onDc_outside {s : State} (h : ∀ c, s.unit ≠ .dc c) (op : Fin 4 → State → Res Unit) :
    onDc op s = .fault .codeOutsideUnit := by
  unfold onDc
  split
  · next hu => exact absurd hu (h _)
  all_goals rfl

/-- An escape pair is acted upon by the refiller at work only (log entry 4). -/
theorem onRefiller_outside {s : State} (h : ∀ left, s.unit ≠ .refill left) (goesOn : Bool) (op : State → Res Unit) :
    onRefiller goesOn op s = .fault .codeOutsideUnit := by
  unfold onRefiller
  split
  · next hu => exact absurd hu (h _)
  all_goals rfl

/-- Settles O18, unit by unit. -/
theorem streamCodeOutsideItsUnitStops : Obligations.StreamCodeOutsideItsUnitStops := fun _ =>
  ⟨fun h => ⟨onAc_outside h _, onAc_outside h _, fun _ _ => onAc_outside h _, fun _ => onAc_outside h _⟩,
    fun h => ⟨fun _ => onDc_outside h _, fun _ => onDc_outside h _⟩,
    fun h => ⟨onRefiller_outside h _ _, onRefiller_outside h _ _, fun _ => onRefiller_outside h _ _, onRefiller_outside h _ _⟩⟩

end Sys2Proof.Machine
end

section
/-! ### DECODE_BLOCK on the text of a block (spec/30_encoding.md R91) -/

namespace Sys2Proof.Machine

/-- The bits of the end of a block: the EOB codeword, or nothing where the block ends at index 64 (R91). -/
def endBits (eob : Option CodeEntry) : List Bool := (eob.map codeBits).getD []

/-- The bits of a block are those of its DC item, its AC items and its end (R91). -/
theorem BlockText.bits_eq (t : BlockText) :
    t.bits = codeBits t.dc ++ bitsOf (sizeField t.dc.sym).val t.dcField ++ t.items.flatMap AcItem.bits ++ endBits t.eob := by
  unfold BlockText.bits
  cases t.eob <;> rfl

/-- A block may end at index `k`: at 64 of itself, and at 63 or below by EOB (R194, R195). -/
def endsAt (acCodes : List CodeEntry) (k : Nat) : Option CodeEntry → Prop
  | some e => e ∈ acCodes ∧ e.sym = 0#8 ∧ k ≤ 63
  | none => k = 64

/-- What a text needs to be a block, taken apart: the DC item, the AC items and the end (R91). -/
theorem BlockText.meaning_eq_some {t : BlockText} {dcCodes acCodes : List CodeEntry} {p : Word} {b : Block}
    (h : t.meaning dcCodes acCodes p = some b) :
    (t.dc ∈ dcCodes ∧ t.dc.sym.toNat ≤ 15 ∧ t.dcField < 2 ^ (sizeField t.dc.sym).val ∧ ∀ i ∈ t.items, i.entry ∈ acCodes) ∧
    ∃ k, acEffect t.items 1 ((Vector.replicate 64 0#32).set 0 (wrap32 (p.toInt + t.delta))) = some (k, b) ∧
      endsAt acCodes k t.eob := by
  unfold BlockText.meaning at h
  split at h
  · next hitems =>
    split at h
    · next k coef heffect =>
      split at h
      · next e he =>
        split at h
        · next hend => cases h; exact ⟨hitems, k, heffect, by rw [he]; exact hend⟩
        · cases h
      · next he =>
        split at h
        · next hend => cases h; exact ⟨hitems, k, heffect, by rw [he]; exact hend⟩
        · cases h
    · cases h
  · cases h

/-- The AC loop at the end of a block takes the bits of the end and stops (R194, R195). -/
theorem acLoop_endBits {c : Fin 4} {k turns : Nat} {eob : Option CodeEntry} {s : State} {rest : List Bool}
    (hv : s.tbl[acSel s c].valid = true) (hc : codesOk s.tbl[acSel s c].codes) (hend : endsAt s.tbl[acSel s c].codes k eob)
    (h : unreadBits s = endBits eob ++ rest) (hturns : 64 - k ≤ turns) :
    acLoop c turns k s = .ok () (advance (endBits eob).length s) := by
  cases eob with
  | none =>
    cases hend
    exact (acLoop_end c turns s).trans (congrArg _ (advance_zero s).symm)
  | some e =>
    obtain ⟨hmem, hsym, hk⟩ := hend
    obtain ⟨n, rfl⟩ : ∃ n, turns = n + 1 := ⟨turns - 1, by omega⟩
    rw [acLoop, if_pos hk, acStep_eob hv hc hmem hsym h, Res.bind_ok, acLoop_end]
    exact congrArg (fun m => Res.ok () (advance m s)) (length_codeBits e).symm

/-- The AC loop on the AC items of a block and its end (R194). -/
theorem acLoop_items_end {c : Fin 4} {k : Nat} {items : List AcItem} {eob : Option CodeEntry} {s : State} {b : Block}
    {rest : List Bool} (hv : s.tbl[acSel s c].valid = true) (hc : codesOk s.tbl[acSel s c].codes)
    (hitems : ∀ i ∈ items, i.entry ∈ s.tbl[acSel s c].codes) (heffect : acEffect items 1 s.coef = some (k, b))
    (hend : endsAt s.tbl[acSel s c].codes k eob) (h : unreadBits s = items.flatMap AcItem.bits ++ (endBits eob ++ rest)) :
    acLoop c 63 1 s =
      .ok () { advance ((items.flatMap AcItem.bits).length + (endBits eob).length) s with coef := b } := by
  obtain ⟨turns, hloop, hturns, -⟩ := acLoop_text hv hc hitems heffect h (turns := 63) (by omega) (by omega)
  have hrest := unreadBits_advance_append rfl h
  have hstop := acLoop_endBits (s := { advance (items.flatMap AcItem.bits).length s with coef := b }) hv hc hend hrest hturns
  rw [hloop, hstop, ← advance_advance]
  rfl

/-- The state after the DC item of a block: `COEF` is 0 but for the DC coefficient, which is the new predictor (R192, R193). -/
def afterDc (c : Fin 4) (text : BlockText) (s : State) : State :=
  { advance (text.dc.len + (sizeField text.dc.sym).val) s with
    pred := s.pred.set c (wrap32 (s.pred[c].toInt + text.delta))
    coef := (Vector.replicate 64 0#32).set 0 (wrap32 (s.pred[c].toInt + text.delta)) }

section
variable {s : State} {c : Fin 4} {text : BlockText} {rest : List Bool}

/-- The DC step of a block on its DC item, in the state with `COEF` set to 0 (R192, R193). -/
theorem dcStep_afterDc (hv : s.tbl[dcSel s c].valid = true) (hc : codesOk s.tbl[dcSel s c].codes)
    (hmem : text.dc ∈ s.tbl[dcSel s c].codes) (hsym : text.dc.sym.toNat ≤ 15)
    (hfield : text.dcField < 2 ^ (sizeField text.dc.sym).val)
    (h : unreadBits s = codeBits text.dc ++ (bitsOf (sizeField text.dc.sym).val text.dcField ++ rest)) :
    dcStep c (zeroCoef s) = .ok () (afterDc c text s) :=
  dcStep_text (s := zeroCoef s) hv hc hmem hsym hfield h

/-- The DC item is consumed. -/
theorem unreadBits_afterDc (h : unreadBits s = codeBits text.dc ++ (bitsOf (sizeField text.dc.sym).val text.dcField ++ rest)) :
    unreadBits (afterDc c text s) = rest :=
  unreadBits_advance_append (s := s) (u := codeBits text.dc ++ bitsOf (sizeField text.dc.sym).val text.dcField) (by simp)
    (h.trans (List.append_assoc ..).symm)

/-- `decodeBlock(c)` on the text of a block (R191 to R197): its DC item, its AC items, its end. -/
theorem decodeBlock_text {b : Block} (hdc : s.tbl[dcSel s c].valid = true) (hac : s.tbl[acSel s c].valid = true)
    (hdcCodes : codesOk s.tbl[dcSel s c].codes) (hacCodes : codesOk s.tbl[acSel s c].codes)
    (hb : text.meaning s.tbl[dcSel s c].codes s.tbl[acSel s c].codes s.pred[c] = some b)
    (hbits : unreadBits s = text.bits ++ rest) :
    decodeBlock c s = .ok () { advance text.bits.length s with coef := b, pred := s.pred.set c b[0] } := by
  obtain ⟨⟨hmem, hsym, hfield, hitems⟩, k, heffect, hend⟩ := BlockText.meaning_eq_some hb
  rw [BlockText.bits_eq] at hbits
  simp only [List.append_assoc] at hbits
  have hloop : acLoop c 63 1 (afterDc c text s) = _ :=
    acLoop_items_end hac hacCodes hitems heffect hend (unreadBits_afterDc hbits)
  have hpred : b[0] = wrap32 (s.pred[c].toInt + text.delta) := by simp [acEffect_zero (by omega) heffect]
  have hlen : text.bits.length = text.dc.len + (sizeField text.dc.sym).val +
      ((text.items.flatMap AcItem.bits).length + (endBits text.eob).length) := by
    rw [BlockText.bits_eq, List.length_append, List.length_append, List.length_append, length_codeBits, length_bitsOf, Nat.add_assoc]
  rw [decodeBlock, if_pos (blockTablesValid_iff.2 ⟨hdc, hac⟩), dcStep_afterDc hdc hdcCodes hmem hsym hfield hbits, Res.bind_ok,
    hloop, hpred, hlen, ← advance_advance _ _ s]
  rfl

end

/-- Settles O48: outside FAULT the command is `decodeBlock`, which takes the text. -/
theorem decodeBlockDecodesItsText : Obligations.DecodeBlockDecodesItsText := by
  intro s c text b rest hmode hdc hac hdcCodes hacCodes hb hbits
  have hexec : exec (.decodeBlock c) s = finish (decodeBlock c s) := command_any hmode
  rw [hexec, decodeBlock_text hdc hac hdcCodes hacCodes hb hbits, finish_ok]
  rfl

end Sys2Proof.Machine
end

section
/-! ### What an append leaves -/

namespace Sys2Proof.Machine

/-- An append that has room (R111). -/
theorem append_fits {bs : List Byte} {s : State} (h : tail s + bs.length ≤ s.params.capMax) :
    append bs s = .ok () (setCursor (s.curData.drop (s.curPos / 8) ++ bs) (s.curPos % 8) s) :=
  ((append_cases bs s).resolve_right fun hfull => Nat.not_le_of_lt hfull.1 h).2

/-- An append that has none (R111). -/
theorem append_full {bs : List Byte} {s : State} (h : s.params.capMax < tail s + bs.length) :
    append bs s = .raised .allocFailure s :=
  ((append_cases bs s).resolve_left fun hfits => Nat.not_le_of_lt h hfits.1).2

/-- The state an append that succeeds leaves. -/
theorem append_eq_ok {bs : List Byte} {s t : State} (h : append bs s = .ok () t) :
    t = setCursor (s.curData.drop (s.curPos / 8) ++ bs) (s.curPos % 8) s := by
  rcases append_cases bs s with ⟨-, hok⟩ | ⟨-, hraised⟩
  · exact (Res.ok.inj (h.symm.trans hok)).2
  · cases h.symm.trans hraised

/-- Settles O21: outside FAULT the command is `append([x])`. -/
theorem appendPutsByteAfterUnreadTail : Obligations.AppendPutsByteAfterUnreadTail := by
  intro s x hmode
  have hexec : exec (.append x) s = finish (append [x] s) := command_any hmode
  refine ⟨fun hfits => ?_, fun hfull => ?_⟩
  · rw [hexec, append_fits (bs := [x]) hfits]
    rfl
  · rw [hexec, append_full (bs := [x]) hfull, finish_raised]

/-- Settles O22: `EOF` is 0 because the unread bits end in the new ones. -/
theorem appendExtendsUnreadBits : Obligations.AppendExtendsUnreadBits := by
  intro s t bs hpos hne h
  have hbits := unreadBits_append hpos h
  have heof : eof t ≠ true := by
    intro hempty
    rw [eof_iff, hbits] at hempty
    have hlen := congrArg List.length (List.append_eq_nil_iff.1 hempty).2
    rw [length_byteBits] at hlen
    exact hne (List.length_eq_zero_iff.1 (by simpa using hlen))
  obtain rfl := append_eq_ok h
  exact ⟨hbits, Bool.eq_false_iff.2 heof, rfl, rfl⟩

end Sys2Proof.Machine
end

section
/-! ### Reads, steps back, alignment and CLEAR -/

namespace Sys2Proof.Machine

/-- A step back outside the rewind window (R116). -/
theorem backBits_raised {s : State} {n : Nat} (h : s.curBackable < n) : backBits n s = .raised .badCommand s := by
  simp [backBits, Nat.not_le.2 h]

/-- Settles O23: a legal count is a read, whose bits are those `take_bits` says. -/
theorem nextbitsReadsMostSignificantFirst : Obligations.NextbitsReadsMostSignificantFirst := by
  refine ⟨fun _ => rfl, fun s n hmode => ?_⟩
  have hexec : exec (.nextbits n) s = finish (if 1 ≤ n ∧ n ≤ nbitsMax then
      (nextBits n s).bind fun v s1 => .ok () (setResult v s1) else .raised .badCommand s) := by
    rw [exec, execNextbits, command_any hmode]
  refine ⟨fun h1 h25 havail => ?read, fun h1 h25 hshort => ?exhausted, fun hcount => ?illegal⟩
  case read =>
    obtain ⟨v, hv, hbits, hread⟩ := take_bits havail
    refine ⟨v, hv, hbits, ?_⟩
    rw [hexec, if_pos ⟨h1, h25⟩, hread]
    rfl
  case exhausted => rw [hexec, if_pos ⟨h1, h25⟩, nextBits_raised hshort, Res.bind_raised, finish_raised]
  case illegal => rw [hexec, if_neg (by unfold nbitsMax; omega), finish_raised]

/-- The position pair steps back as the position in bits does (R116). -/
theorem pairBack_eq {pos n : Nat} (h : n ≤ pos) : ((pos - n) / 8, (pos - n) % 8) = pairBack (pos / 8) (pos % 8) n := by
  unfold pairBack
  refine Prod.ext ?_ ?_
  · show (pos - n) / 8 = if pos % 8 < n then pos / 8 - (n - pos % 8 + 7) / 8 else pos / 8
    split <;> omega
  · show (pos - n) % 8 = (((pos % 8 : Nat) - (n : Int)) % 8).toNat
    omega

/-- Settles O25: the count is checked first, then the rewind window. -/
theorem backbitsRewindsInsideTheWindow : Obligations.BackbitsRewindsInsideTheWindow := by
  refine ⟨fun _ => rfl, fun s n hmode => ?_⟩
  have hexec : exec (.backbits n) s = finish (if n ≤ nbitsMax then backBits n s else .raised .badCommand s) := by
    rw [exec, execBackbits, command_any hmode]
  refine ⟨fun h25 hwin => ?inside, fun hout => ?outside, pairBack_eq⟩
  case inside =>
    rw [hexec, if_pos (show n ≤ nbitsMax from h25), backBits_ok hwin]
    rfl
  case outside =>
    rw [hexec]
    split
    · next h25 => rw [backBits_raised (hout.resolve_left (Nat.not_lt.2 h25)), finish_raised]
    · exact finish_raised _ _

/-- Alignment is by 0 to 7 bits (R119). -/
theorem padding_lt (s : State) : padding s < 8 := Nat.mod_lt _ (by decide)

/-- Alignment ends at a byte boundary (R119). -/
theorem padding_aligns (s : State) : (s.curPos + padding s) % 8 = 0 := by
  unfold padding
  omega

/-- At a byte boundary there is nothing to align (R119). -/
theorem padding_eq_zero {s : State} (h : s.curPos % 8 = 0) : padding s = 0 := by simp [padding, h]

/-- Settles O26: the write end is a byte boundary, and no multiple of 8 lies between a position and the next one. -/
theorem alignMovesToByteBoundary : Obligations.AlignMovesToByteBoundary := by
  intro s hmode
  have hexec : exec .align s = .next (alignCursor s) := by rw [exec, execAlign, command_any hmode, finish_ok]
  have hlt := padding_lt s
  have haligned := padding_aligns s
  refine ⟨padding s, hlt, haligned, hexec, fun hpos => by omega, fun hboundary => ?_⟩
  rw [hexec, alignCursor, padding_eq_zero hboundary, advance_zero]

/-- Settles O27: outside FAULT the command is `clear()`. -/
theorem clearEmptiesTheCursor : Obligations.ClearEmptiesTheCursor := by
  refine ⟨by decide, fun s hmode => ⟨?_, rfl⟩⟩
  rw [exec, execClear, command_any hmode]
  rfl

end Sys2Proof.Machine
end

section
/-! ### The laws of the cursor (spec/40_bitcursor.md R122) -/

namespace Sys2Proof.Machine

/-- Settles O28: an empty cursor has no unread bits before the appended ones. -/
theorem readChunksRebuildAppendedBytes : Obligations.ReadChunksRebuildAppendedBytes := by
  intro ops s t bits hdata hpos h
  have hempty : unreadBits s = [] := by rw [unreadBits, hdata, byteBits_nil, List.drop_nil]
  rw [runOps_unread ops s t bits (by rw [hpos]; exact Nat.zero_le _) h, hempty, List.nil_append]

/-- A read may be taken back at once (R122 (b)). -/
theorem backBits_advance (n : Nat) (s : State) : backBits n (advance n s) = .ok () s := by
  rw [backBits_ok (Nat.le_add_left n s.curBackable), rewind_advance]

/-- A read of a sum is the read of its parts, joined (R122 (c)). -/
theorem peek_add (s : State) (n m : Nat) : peek s (n + m) = peek s n * 2 ^ m + peek (advance n s) m := by
  rw [peek_advance, peek, bitsAt_add, peek]

/-- Settles O29: both parts from what a read that has its bits answers. -/
theorem readsInvertAndSplit : Obligations.ReadsInvertAndSplit := by
  intro s n m
  refine ⟨fun h => ?_, fun h => ?_⟩
  · exact ⟨_, _, nextBits_ok h, backBits_advance n s, nextBits_ok h⟩
  · have hn : n ≤ avail s := Nat.le_of_add_right_le h
    have hm : m ≤ avail (advance n s) := by rw [avail_advance]; omega
    exact ⟨_, _, _, _, nextBits_ok hn, nextBits_ok hm, by rw [nextBits_ok h, peek_add, advance_advance]⟩

end Sys2Proof.Machine
end

section
/-! ### The physical buffer (spec/40_bitcursor.md R121) -/

namespace Sys2Proof.Machine

/-- The whole bytes an append drops are those below the read offset (R111, R121). -/
theorem PhysCursor.drop_data {p : PhysCursor} (hp : p.ok) : p.data.drop (p.pos / 8) = p.tailBytes := by
  obtain ⟨hfirst, hbit, -, -⟩ := hp
  have hread : p.first + p.pos / 8 = p.readByte := by unfold PhysCursor.pos; omega
  rw [PhysCursor.data, List.drop_drop, hread, PhysCursor.tailBytes]

/-- The bit offset is the position inside its byte. -/
theorem PhysCursor.pos_mod {p : PhysCursor} (hp : p.ok) : p.pos % 8 = p.readBit := by
  obtain ⟨-, hbit, -, -⟩ := hp
  unfold PhysCursor.pos
  omega

theorem PhysCursor.length_tailBytes {p : PhysCursor} (hp : p.ok) : p.tailBytes.length = p.writeEnd - p.readByte := by
  obtain ⟨-, -, -, hend⟩ := hp
  rw [PhysCursor.tailBytes, List.length_drop, List.length_take, Nat.min_eq_left hend]

/-- A buffer that holds a tail at offset 0, new bytes behind it, and spare bytes behind those. -/
theorem PhysCursor.ok_of_moved {tail bs spare : List Byte} {bit : Nat} (hbit : bit < 8) (hle : bit ≤ 8 * tail.length) :
    (⟨tail ++ bs ++ spare, 0, 0, bit, tail.length + bs.length⟩ : PhysCursor).ok := by
  refine ⟨Nat.le_refl _, hbit, ?_, ?_⟩
  · show 8 * 0 + bit ≤ 8 * (tail.length + bs.length)
    omega
  · simp

theorem PhysCursor.data_of_moved (tail bs spare : List Byte) (bit : Nat) :
    (⟨tail ++ bs ++ spare, 0, 0, bit, tail.length + bs.length⟩ : PhysCursor).data = tail ++ bs := by
  rw [PhysCursor.data, List.drop_zero]
  exact List.take_left' List.length_append

/-- Every placement keeps the invariants, and its bytes are the unread tail and then the new ones (R121). -/
theorem PhysCursor.append_eq_some {p q : PhysCursor} {how : Placement} {bs : List Byte} (hp : p.ok)
    (h : p.append how bs = some q) : q.ok ∧ q.data = p.tailBytes ++ bs ∧ q.pos = p.readBit := by
  have hlen := PhysCursor.length_tailBytes hp
  obtain ⟨hfirst, hbit, hread, hend⟩ := hp
  have hfit : p.readBit ≤ 8 * p.tailBytes.length := by omega
  cases how with
  | inPlace =>
    simp only [PhysCursor.append, Option.ite_none_right_eq_some, Option.some.injEq] at h
    obtain ⟨hroom, rfl⟩ := h
    have htake : (p.bytes.take p.writeEnd).length = p.writeEnd := List.length_take_of_le hend
    refine ⟨⟨Nat.le_refl _, hbit, ?_, ?_⟩, ?_, ?_⟩
    · show 8 * p.readByte + p.readBit ≤ 8 * (p.writeEnd + bs.length)
      omega
    · simp only [List.length_append, htake]
      omega
    · rw [PhysCursor.data, PhysCursor.tailBytes, List.take_left' (by rw [List.length_append, htake]),
        List.drop_append_of_le_length (by show p.readByte ≤ _; rw [htake]; omega)]
    · show 8 * (p.readByte - p.readByte) + p.readBit = p.readBit
      omega
  | compact =>
    simp only [PhysCursor.append, Option.ite_none_right_eq_some, Option.some.injEq] at h
    obtain ⟨-, rfl⟩ := h
    exact ⟨PhysCursor.ok_of_moved hbit hfit, PhysCursor.data_of_moved .., Nat.zero_add _⟩
  | grow spare =>
    cases h
    exact ⟨PhysCursor.ok_of_moved hbit hfit, PhysCursor.data_of_moved .., Nat.zero_add _⟩

/-- Settles O30: both sides put the new bytes behind the same tail. -/
theorem physicalBufferRefinesTheCursor : Obligations.PhysicalBufferRefinesTheCursor := by
  intro p q how bs s t hp hdata hpos hphys harch
  obtain ⟨hok, hqdata, hqpos⟩ := PhysCursor.append_eq_some hp hphys
  obtain rfl := append_eq_ok harch
  refine ⟨hok, ?_, ?_⟩
  · rw [setCursor_curData, hdata, hpos, PhysCursor.drop_data hp, hqdata]
  · rw [setCursor_curPos, hpos, PhysCursor.pos_mod hp, hqpos]

end Sys2Proof.Machine
end

section
/-! ### REFILL (spec/42_refiller.md R172, R178) -/

namespace Sys2Proof.Machine

/-- A batch reaches a malformed pair: the destuffed sequence ends in one at an index that may be examined (R176). -/
def malformedReached (s : State) : Prop :=
  (destuff s).2.2 = .malformed ∧ (destuff s).2.1 < s.srcPos.toNat + s.params.chunk

/-- A batch ends without a fault (R172, R173). -/
def batchEnds (s t : State) (D : List Byte) : Prop :=
  refilled D s t ∧ D.length ≤ s.params.chunk ∧ destuff s = (D ++ (destuff t).1, (destuff t).2) ∧
  s.srcPos.toNat ≤ t.srcPos.toNat ∧ t.srcPos.toNat ≤ s.srcPos.toNat + s.params.chunk + 1 ∧
  (t.eoe = false → s.srcPos.toNat + s.params.chunk ≤ t.srcPos.toNat) ∧
  (t.eoe = true → D = (destuff s).1 ∧ t.srcPos.toNat = (destuff s).2.1 ∧ (destuff s).2.2 ≠ .malformed)

/-- A batch breaks on a malformed pair (R176). -/
def batchBreaks (s u : State) : Prop :=
  refilled (destuff s).1 s u ∧ u.srcPos.toNat = (destuff s).2.1 ∧ u.eoe = false

/-- A batch finds no room for the byte `x` after the bytes `D` (R182). -/
def batchOverflows (s u : State) (D : List Byte) (x : Byte) : Prop :=
  refilled D s u ∧ u.eoe = false ∧ D.length < s.params.chunk ∧ s.params.capMax < tail u + 1 ∧
  destuff s = (D ++ x :: (destuff u).1, (destuff u).2)

section
variable {D : List Byte} {k : Nat} {s t u : State}

/-- Where the entropy data end is the same before and after some of them are fed (R181). -/
theorem Fed.stuff_rest (h : Fed D k s t) (hle : s.srcPos ≤ s.srcLen) : (destuff s).2 = (destuff t).2 := by rw [h.stuff hle]

/-- What was fed up to the end of the entropy data is all of them (R181). -/
theorem Fed.ended (h : Fed D k s t) (hle : s.srcPos ≤ s.srcLen) (hend : endedAt t) :
    D = (destuff s).1 ∧ t.srcPos.toNat = (destuff s).2.1 ∧ (destuff s).2.2 ≠ .malformed := by
  obtain ⟨hnil, hpos, hgood⟩ := hend
  refine ⟨by rw [h.stuff hle, hnil, List.append_nil], ?_, ?_⟩
  · rw [h.stuff_rest hle, hpos]
  · rw [h.stuff_rest hle]
    exact hgood

/-- What was fed up to a malformed pair is all that is before it (R176, R181). -/
theorem Fed.malformed (h : Fed D k s u) (hle : s.srcPos ≤ s.srcLen) (hmal : malformedAt u) :
    destuff s = (D, u.srcPos.toNat, .malformed) := by
  rw [h.stuff hle, hmal, List.append_nil]

/-- A batch that ends, ends in order; and a malformed pair is not among the bytes it reaches. -/
theorem Fed.batchEnds (h : Fed D k s t) (hle : s.srcPos ≤ s.srcLen) (hD : D.length ≤ s.params.chunk)
    (hk : k ≤ s.params.chunk + 1) (hend : t.eoe = true → endedAt t) (hgo : t.eoe = false → s.params.chunk ≤ k) :
    batchEnds s t D ∧ ¬ malformedReached s := by
  have hsrc := h.src
  refine ⟨⟨h.refilled, hD, h.stuff hle, by omega, by omega, fun heoe => ?_, fun heoe => h.ended hle (hend heoe)⟩,
    fun ⟨hmal, hnear⟩ => ?_⟩
  · have := hgo heoe
    omega
  · cases heoe : t.eoe with
    | true => exact (h.ended hle (hend heoe)).2.2 hmal
    | false =>
      have hfar := le_destuff t
      rw [← h.stuff_rest hle] at hfar
      have := hgo heoe
      omega

/-- A batch that stands on a malformed pair it reaches has fed all the bytes before the pair. -/
theorem Fed.batchBreaks (h : Fed D k s u) (hle : s.srcPos ≤ s.srcLen) (heoe : u.eoe = false) (hmal : malformedAt u)
    (hk : k < s.params.chunk) : batchBreaks s u ∧ malformedReached s := by
  unfold Machine.batchBreaks malformedReached
  rw [h.malformed hle hmal]
  exact ⟨⟨h.refilled, rfl, heoe⟩, rfl, h.src.trans_lt (Nat.add_lt_add_left hk _)⟩

/-- The source position may move without the cursor (R182). -/
theorem refilled_skipSource (h : refilled D s u) (j : Nat) : refilled D s (skipSource j u) := by
  obtain ⟨htail, hstate⟩ := h
  refine ⟨htail, ?_⟩
  rw [hstate]
  rfl

/-- A batch without room has moved the source position past the byte that does not fit. -/
theorem Fed.batchOverflows {x : Byte} {j : Nat} (h : Fed D k s u) (hle : s.srcPos ≤ s.srcLen) (heoe : u.eoe = false)
    (hD : D.length < s.params.chunk) (hfull : s.params.capMax < Machine.tail u + 1)
    (hx : destuff u = (x :: (destuff (skipSource j u)).1, (destuff (skipSource j u)).2)) :
    batchOverflows s (skipSource j u) D x :=
  ⟨refilled_skipSource h.refilled j, heoe, hD, hfull, by rw [h.stuff hle, hx]⟩

/-- The tail after a refill. -/
theorem tail_of_refilled (h : refilled D s u) : Machine.tail u = Machine.tail s + D.length := by
  rw [← length_tailBytes, h.1, List.length_append, length_tailBytes]

/-- A batch that has room for `CHUNK` bytes does not overflow. -/
theorem not_batchOverflows_of_room {x : Byte} (hroom : Machine.tail s + s.params.chunk ≤ s.params.capMax) :
    ¬ batchOverflows s u D x := by
  rintro ⟨hrefilled, -, hD, hfull, -⟩
  rw [tail_of_refilled hrefilled] at hfull
  omega

end

/-- The three ways a batch can go (R172, R176, R182). -/
theorem refill_cases {s : State} (heoe : s.eoe = false) (hle : s.srcPos ≤ s.srcLen) :
    (¬ malformedReached s ∧ ∃ t D, refill s = .ok () t ∧ batchEnds s t D) ∨
    (malformedReached s ∧ ∃ u, refill s = .raised .malformedByteStuffing u ∧ batchBreaks s u) ∨
    (∃ u D x, refill s = .raised .allocFailure u ∧ batchOverflows s u D x) := by
  have hsat := refill_sat heoe hle
  cases hr : refill s with
  | ok a t =>
    rw [hr] at hsat
    obtain ⟨D, k, hfed, hD, hk, hend, hgo⟩ := hsat
    obtain ⟨hends, hgood⟩ := hfed.batchEnds hle hD hk hend fun he => (hgo he).1
    exact .inl ⟨hgood, t, D, rfl, hends⟩
  | raised e t =>
    rw [hr] at hsat
    obtain ⟨D, k, u, hfed, hue, (⟨rfl, rfl, hmal, hk⟩ | ⟨rfl, hD, hfull, x, j, rfl, hx⟩)⟩ := hsat
    · obtain ⟨hbreaks, hreached⟩ := hfed.batchBreaks hle (hue.trans heoe) hmal hk
      exact .inr (.inl ⟨hreached, t, rfl, hbreaks⟩)
    · exact .inr (.inr ⟨_, D, x, rfl, hfed.batchOverflows hle (hue.trans heoe) hD hfull hx⟩)

/-- A full cursor overflows at the first byte (R182). -/
theorem refill_full {s : State} (heoe : s.eoe = false) (hlt : s.srcPos < s.srcLen) (hx : srcByte s s.srcPos ≠ 0xFF#8)
    (hchunk : 1 ≤ s.params.chunk) (hfull : s.params.capMax < Machine.tail s + 1) :
    refill s = .raised .allocFailure (skipSource 1 s) := by
  obtain ⟨n, hn⟩ : ∃ n, s.params.chunk = n + 1 := ⟨s.params.chunk - 1, by omega⟩
  have happend : append [srcByte s s.srcPos] (skipSource 1 s) = .raised .allocFailure (skipSource 1 s) :=
    append_full (bs := [srcByte s s.srcPos]) (s := skipSource 1 s) hfull
  rw [refill_batch heoe (BitVec.le_of_lt hlt), hn, refillBatch, refillTurn, if_neg (BitVec.ne_of_lt hlt), if_pos hx, happend]
  rfl

/-- Settles O37: outside FAULT the command is `refill`, which goes one of the three ways of `refill_cases`. -/
theorem refillRunsOneBatch : Obligations.RefillRunsOneBatch := by
  intro s hmode
  have hexec : exec .refill s = finish (refill s) := command_any hmode
  refine ⟨fun heoe => ?ended, fun heoe hpast => ?past, fun heoe hle => ?batch, fun heoe hlt hx hchunk hfull => ?full⟩
  case ended => rw [hexec, refill_eoe heoe, finish_ok]
  case past => rw [hexec, refill_bad heoe hpast, finish_raised]
  case batch =>
    intro malformed runs breaks overflows
    have hcases : (¬ malformed ∧ runs) ∨ (malformed ∧ breaks) ∨ overflows := by
      rcases refill_cases heoe hle with ⟨hgood, t, D, hr, hends⟩ | ⟨hmal, u, hr, hbreaks⟩ | ⟨u, D, x, hr, hover⟩
      · exact .inl ⟨hgood, t, D, by rw [hexec, hr, finish_ok], hends⟩
      · exact .inr (.inl ⟨hmal, u, by rw [hexec, hr, finish_raised], hbreaks⟩)
      · exact .inr (.inr ⟨u, D, x, by rw [hexec, hr, finish_raised], hover⟩)
    have hroom : tail s + s.params.chunk ≤ s.params.capMax → ¬ overflows :=
      fun hroom ⟨_, _, _, _, hover⟩ => not_batchOverflows_of_room hroom hover
    have hfit : tail s + s.params.chunk ≤ s.params.capMax → (¬ malformed ∧ runs) ∨ (malformed ∧ breaks) :=
      fun hr => hcases.imp_right fun h => h.resolve_right (hroom hr)
    exact ⟨fun hr hgood => ((hfit hr).resolve_right fun h => hgood h.1).2,
      fun hr hmal => ((hfit hr).resolve_left fun h => h.1 hmal).2, hcases⟩
  case full =>
    rw [hexec, refill_full heoe hlt hx hchunk hfull, finish_raised]
    rfl

end Sys2Proof.Machine
end

section
/-! ### Refills in a row and `topUp` (spec/42_refiller.md R177, R181) -/

namespace Sys2Proof.Machine

/-- Settles O38: what several batches feed is followed, in the destuffed sequence, by what is still ahead. -/
theorem refillsAppendTheDestuffedBytes : Obligations.RefillsAppendTheDestuffedBytes := by
  intro n s heoe hle
  have hsat := refills_sat n s heoe hle
  refine ⟨fun t ht => ?ends, fun t ht => ?breaks⟩
  case ends =>
    obtain ⟨D, k, hfed, hend⟩ := hsat.of_ok ht
    refine ⟨D, ?_, hfed.refilled, fun hte => hfed.ended hle (hend hte)⟩
    rw [hfed.stuff hle]
    exact List.prefix_append ..
  case breaks =>
    obtain ⟨D, k, hfed, hmal, hte⟩ := hsat.of_raised ht rfl
    rw [hfed.malformed hle hmal]
    exact ⟨rfl, hfed.refilled, rfl, hte⟩

/-- What `topUp` answers, wherever the source position stands: it feeds up to `LOW_WATER` or the end, or finds a malformed pair or
a source position past the source's end (R172, R177). -/
theorem topUp_fed {s : State} (hok : s.params.ok) :
    (topUp s).Sat (fun _ t => (t.eoe = true ∨ s.params.lowWater ≤ tail t) ∧ ∃ D k, Fed D k s t)
      (fun e t => e ≠ .allocFailure ∧ ∃ D k, Fed D k s t) := by
  by_cases hle : s.eoe = true ∨ s.srcPos ≤ s.srcLen
  · refine (topUp_sat hok hle).mono ?_ ?_
    · rintro - t ⟨D, k, hfed, hwater, -⟩
      exact ⟨hwater, D, k, hfed⟩
    · rintro e t ⟨D, k, hfed, rfl, -⟩
      exact ⟨by decide, D, k, hfed⟩
  · rw [not_or, Bool.not_eq_true, BitVec.not_le] at hle
    rw [topUp_bad hle.1 hle.2]
    split
    · exact ⟨by decide, [], 0, Fed.refl s⟩
    · next hwater => exact ⟨.inr (Nat.not_lt.1 hwater), [], 0, Fed.refl s⟩

/-- Settles O39: `topUp` only feeds the cursor, and fails for other reasons than want of room. -/
theorem topUpReachesLowWaterOrEnd : Obligations.TopUpReachesLowWaterOrEnd := by
  intro s hok _
  have hsat := topUp_fed hok
  refine ⟨fun t ht => ?_, fun t ht => ?_, fun e t ht => ?_⟩
  · obtain ⟨hwater, D, k, hfed⟩ := hsat.of_ok ht
    exact ⟨hwater, D, hfed.refilled⟩
  · exact (hsat.of_raised ht).1 rfl
  · obtain ⟨-, D, k, hfed⟩ := hsat.of_raised ht
    exact ⟨D, hfed.refilled⟩

end Sys2Proof.Machine
end

section
/-! ### LOAD_TABLE and DECODE_SYM -/

namespace Sys2Proof.Machine

/-- An accepted definition becomes the table: its codes are legal, so a tree for them exists (R142, R143). -/
theorem loadTable_accepted {sel : Fin 8} {s : State} (hb : 1 ≤ s.params.aryLog2) (hsum : (stagedCounts s).sum ≤ nSymMax)
    (hfit : countsFit 1 0 (stagedCounts s) = true) :
    ∃ tree, insertAll s.params.aryLog2 (stagedCodes s) = some tree ∧
      loadTable sel s = .ok () (setTable sel { valid := true, codes := stagedCodes s, tree := tree } s) := by
  obtain ⟨tree, htree, -⟩ := insertAll_ok hb (codesOk_assign s.tblSym.toList (length_stagedCounts s).le hsum hfit)
  exact ⟨tree, htree, by simp only [loadTable, if_pos (And.intro hsum hfit), stagedCodes, htree]⟩

/-- A definition that fails check (a) or (b) of R142 leaves an invalid table. -/
theorem loadTable_rejected {sel : Fin 8} {s : State}
    (h : nSymMax < (stagedCounts s).sum ∨ countsFit 1 0 (stagedCounts s) = false) :
    loadTable sel s = .raised .tableConstructionError (setTable sel Table.empty s) := by
  have hnot : ¬ ((stagedCounts s).sum ≤ nSymMax ∧ countsFit 1 0 (stagedCounts s) = true) := by
    rintro ⟨hsum, hfit⟩
    exact h.elim (Nat.not_lt.2 hsum) (Bool.eq_false_iff.1 · hfit)
  rw [loadTable, if_neg hnot]

/-- Settles O31: outside FAULT the command is `loadTable`, which accepts or rejects. -/
theorem loadTableBuildsOrInvalidates : Obligations.LoadTableBuildsOrInvalidates := by
  refine ⟨fun _ => rfl, fun s sel hmode hb => ?_⟩
  have hexec : exec (.loadTable sel) s = finish (loadTable sel s) := command_any hmode
  refine ⟨fun hsum hfit => ?accepted, fun hbad => ?rejected⟩
  case accepted =>
    obtain ⟨tree, htree, hload⟩ := loadTable_accepted (sel := sel) hb hsum hfit
    exact ⟨tree, htree, hexec.trans (congrArg finish hload)⟩
  case rejected => exact ⟨Table.empty, rfl, hexec.trans (congrArg finish (loadTable_rejected hbad))⟩

/-- Settles O33, by the four outcomes of the decode contract. -/
theorem decodeSymMatchesOneCodeword : Obligations.DecodeSymMatchesOneCodeword := by
  refine ⟨fun _ => rfl, fun s sel hmode => ?_⟩
  have hexec : exec (.decodeSym sel) s =
      finish ((decodeSymbol sel s).bind fun sym s1 => .ok () (setResult sym.toNat s1)) := by
    rw [exec, execDecodeSym, command_any hmode]
  refine ⟨fun hinvalid => ?invalid, fun hv hc => ⟨fun e he hbegins => ?found, fun hnone => ⟨?exhausted, fun hno => ?failed⟩⟩⟩
  case invalid => rw [hexec, decodeSymbol_invalid hinvalid, Res.bind_raised, finish_raised]
  case found =>
    rw [hexec, decodeSymbol_match hv hc he hbegins]
    rfl
  case exhausted =>
    rintro ⟨e, he, hbegun⟩
    rw [hexec, decodeSymbol_exhausted hv hc hnone he hbegun, Res.bind_raised, finish_raised]
  case failed => rw [hexec, decodeSymbol_failed hv hc hnone hno, Res.bind_raised, finish_raised]

end Sys2Proof.Machine
end

section
/-! ### The implementations of the decode contract -/

namespace Sys2Proof.Machine

/-- Settles O34: the walk begins at the root, to which the empty path leads. -/
theorem treeWalkEqualsContract : Obligations.TreeWalkEqualsContract := by
  intro s sel hb _ hok
  unfold walkSymbol
  split
  · next hv =>
    obtain ⟨hc, hinsert⟩ := hok hv
    obtain ⟨tree, htree, hT⟩ := insertAll_ok hb hc
    obtain rfl : tree = s.tbl[sel].tree := Option.some.inj (htree.symm.trans hinsert)
    simpa using walkFrom_eq hv hc lenMax (lenMax + 1) 0 _ hT (Nat.le_succ _) (Nat.zero_le _)
  · next hv => exact (decodeSymbol_invalid (Bool.eq_false_iff.2 hv)).symm

/-- The first `n` of the `m` bits peeked (R113). -/
theorem peek_div (s : State) {n m : Nat} (h : n ≤ m) : peek s m / 2 ^ (m - n) = peek s n := by
  obtain ⟨k, rfl⟩ := Nat.exists_eq_add_of_le h
  rw [Nat.add_sub_cancel_left]
  exact bitsAt_div s.curData s.curPos n k

/-- Pulling no bits is a read of no bits (R155). -/
theorem pull_eq {s : State} {m : Nat} (h : m ≤ avail s) :
    (if m = 0 then Res.ok 0 s else nextBits m s) = .ok (peek s m) (advance m s) := by
  split
  · next h0 => rw [h0, advance_zero]; rfl
  · exact nextBits_ok h

section
variable {s : State} {e : CodeEntry} {m : Nat} (hm : m = min nbitsMax (avail s)) (he : entryOk e)
include hm he

/-- A read-ahead pulls all the unread bits, or no fewer than any codeword has (R155). -/
theorem pulled_cases : m = avail s ∨ e.len ≤ m ∧ e.len ≤ avail s := by
  have hlen : e.len ≤ 16 := he.2.1
  unfold nbitsMax at hm
  omega

/-- A codeword is found among the bits pulled when it begins the unread bits (R155). -/
theorem matchesAhead_eq :
    (decide (e.len ≤ m) && decide (peek s m / 2 ^ (m - e.len) = e.code)) = matchesUnread s e := by
  unfold matchesUnread
  rcases pulled_cases hm he with hall | ⟨hlen, havail⟩
  · rw [← hall]
    by_cases h : e.len ≤ m
    · rw [peek_div s h]
    · rw [decide_eq_false h, Bool.false_and, Bool.false_and]
  · rw [peek_div s hlen, decide_eq_true hlen, decide_eq_true havail]

/-- The bits pulled are a proper beginning of a codeword when all the unread bits are (R155). -/
theorem extendsAhead_eq :
    (decide (m < e.len) && decide (peek s m = e.code / 2 ^ (e.len - m))) = extendsUnread s e := by
  unfold extendsUnread
  rcases pulled_cases hm he with hall | ⟨hlen, havail⟩
  · rw [hall]
  · rw [decide_eq_false (Nat.not_lt.2 hlen), decide_eq_false (Nat.not_lt.2 havail), Bool.false_and, Bool.false_and]

end

/-- Settles O35: among the bits pulled the same codewords are found, and giving back leaves the length consumed. -/
theorem readAheadEqualsContract : Obligations.ReadAheadEqualsContract := by
  intro s sel hcodes
  unfold decodeAhead decodeSymbol
  split
  · next hv =>
    have hok := (hcodes hv).2.1
    simp only [pull_eq (Nat.min_le_right nbitsMax (avail s)), Res.bind_ok]
    rw [List.find?_congr (p₂ := matchesUnread s) fun e he => matchesAhead_eq rfl (hok e he)]
    cases hfind : s.tbl[sel].codes.find? (matchesUnread s) with
    | some e =>
      have hm := List.find?_some hfind
      rw [← matchesAhead_eq rfl (hok e (List.mem_of_find?_eq_some hfind)), Bool.and_eq_true, decide_eq_true_eq] at hm
      obtain ⟨hlen, -⟩ := hm
      have hback := rewind_advance_add e.len (min nbitsMax (avail s) - e.len) s
      rw [Nat.add_sub_cancel' hlen] at hback
      simp only
      rw [backBits_ok (by rw [advance_curBackable]; omega), Res.bind_ok, hback]
    | none =>
      refine if_congr ?_ rfl rfl
      simp only [List.any_eq_true]
      exact exists_congr fun e => and_congr_right fun he => by rw [extendsAhead_eq rfl (hok e he)]
  · rfl

/-- Settles O36: a legal list has at most 256 codes, and each takes at most one node for each level below the root. -/
theorem treeFitsTheArena : Obligations.TreeFitsTheArena := by
  intro b codes tree hb hc htree
  obtain ⟨hlength, hentries, -⟩ := hc
  have hnodes := insertCodes_nodes hb codes _ tree (fun e he => (hentries e he).2.1) htree
  rw [Slots.nodes_fresh, Nat.zero_add] at hnodes
  exact Nat.add_le_add_left (hnodes.trans (Nat.mul_le_mul_right _ hlength)) 1

end Sys2Proof.Machine
end

section
/-! ### The stream codes one by one and the whole commands -/

namespace Sys2Proof.Machine

/-- The turns of a block from its DC symbol on are the DC step, then the AC loop (R191, R193, R194). -/
theorem unitTurns_dc (c : Fin 4) {s : State} (hu : s.unit = .idle) :
    unitTurns 64 (withUnit (.dc c) s) = finish ((dcStep c s).bind fun _ t => acLoop c 63 1 t) := by
  rw [unitTurns, if_neg (by simp), unitTurn_dc]
  have hdc := dcStep_sat c s
  cases hr : dcStep c s with
  | raised e t =>
    rw [Res.bind_raised, Res.bind_raised, finish_raised]
    exact unitTurns_idle 63 rfl
  | ok _ t =>
    rw [hr] at hdc
    obtain ⟨m, v, rfl, -, -⟩ := hdc
    rw [Res.bind_ok, Res.bind_ok, finish_ok]
    exact unitTurns_ac c 63 1 _ hu (by omega) (by omega) (by omega)

/-- Settles O51: from the zeroed block the turns are `decodeBlock`, and from the start of a batch they are `refill`. -/
theorem streamCodesMakeUpTheirCommands : Obligations.StreamCodesMakeUpTheirCommands := by
  intro s hmode hu
  refine ⟨fun c hdc hac => ?block, fun heoe hle => ?batch⟩
  case block =>
    have hexec : exec (.decodeBlock c) s = finish (decodeBlock c s) := command_any hmode
    rw [hexec, decodeBlock, if_pos (blockTablesValid_iff.2 ⟨hdc, hac⟩)]
    exact unitTurns_dc c (s := zeroCoef s) hu
  case batch =>
    have hexec : exec .refill s = finish (refill s) := command_any hmode
    rw [hexec, refill_batch heoe hle]
    exact unitTurns_refill _ _ _ s hu (Nat.le_refl _) (Nat.lt_succ_self _) hle

end Sys2Proof.Machine
end

section
/-! ### The escape pairs of the refiller at work -/

namespace Sys2Proof.Machine

/-- How the refiller at work acts upon an escape pair: what the pair does, then the batch goes on or ends. -/
theorem onRefiller_of_refill {s : State} {left : Nat} (hu : s.unit = .refill left) (goesOn : Bool) (op : State → Res Unit) :
    onRefiller goesOn op s = finish ((op s).bind fun _ t =>
      .ok () (withUnit (if goesOn && decide (2 < left) then .refill (left - 2) else .idle) t)) := by
  rw [onRefiller, hu]

/-- A marker ends the batch with `EOE` set, whichever marker it is (R175). -/
theorem onRefiller_markerOp {s : State} {left : Nat} (hu : s.unit = .refill left) :
    onRefiller false markerOp s = .next { s with eoe := true, unit := .idle } :=
  onRefiller_of_refill hu false markerOp

/-- Settles O40: behind the two bytes consumed, the append of one byte fits or it does not. -/
theorem stuffAppendsOneByte : Obligations.StuffAppendsOneByte := by
  intro s left hu
  have hexec : exec .stuff s = _ := onRefiller_of_refill hu true stuffOp
  refine ⟨fun hfits => ?fits, fun hfull => ?full⟩
  case fits =>
    rw [hexec, stuffOp, append_fits (bs := [0xFF#8]) (s := skipSource 2 s) hfits, Res.bind_ok, finish_ok,
      Bool.true_and]
    simp only [decide_eq_true_eq]
    rfl
  case full =>
    rw [hexec, stuffOp, append_full (bs := [0xFF#8]) (s := skipSource 2 s) hfull, Res.bind_raised, finish_raised]
    rfl

/-- Settles O41: EOI and MARKER do the same, with no premise on which marker it is. -/
theorem markerEndsTheEntropyData : Obligations.MarkerEndsTheEntropyData := fun _ _ hu =>
  ⟨onRefiller_markerOp hu, fun _ _ => onRefiller_markerOp hu⟩

/-- Between stuffing (`0x00`) and the markers (`0x01` to `0xFE`) only `0xFF` is left as a second byte (R171, R175, R176). -/
theorem decodeEscByte_eq_badesc_iff (x : Byte) : decodeEscByte x = .badesc ↔ x = 0xFF#8 := by
  constructor
  · intro h
    unfold decodeEscByte escCases at h
    split at h
    · cases h
    split at h
    · cases h
    split at h
    · cases h
    · next hzero _ hmarker =>
      simp only [isMarker, Bool.and_eq_true, decide_eq_true_eq] at hmarker
      bv_omega
  · rintro rfl
    rfl

/-- Settles O42: the pair raises where the refiller stands. -/
theorem badEscapeIsMalformedStuffing : Obligations.BadEscapeIsMalformedStuffing :=
  ⟨fun _ _ hu => onRefiller_of_refill hu false badescOp, decodeEscByte_eq_badesc_iff⟩

end Sys2Proof.Machine
end

section
/-! ### The sign conversion and the length of a block (spec/43_block.md R190, R202) -/

namespace Sys2Proof.Machine

/-- A magnitude field whose first bit is 1 stands for itself (R190). -/
theorem extend_of_high {f S : Nat} (h : 2 ^ (S - 1) ≤ f) : extend f S = f := if_pos h

/-- A magnitude field whose first bit is 0 stands for a negative value (R190). -/
theorem extend_of_low {f S : Nat} (h : f < 2 ^ (S - 1)) : extend f S = (f : Int) - (2 ^ S - 1) := if_neg (Nat.not_le.2 h)

/-- The two intervals a converted magnitude lies in, one for each value of the first bit (R190). -/
theorem extend_intervals {f S : Nat} (hS : 1 ≤ S) (hf : f < 2 ^ S) :
    (-(2 ^ S - 1) ≤ extend f S ∧ extend f S ≤ -2 ^ (S - 1)) ∨
      ((2 ^ (S - 1) : Int) ≤ extend f S ∧ extend f S ≤ 2 ^ S - 1) := by
  have hdouble : (2 : Int) * 2 ^ (S - 1) = 2 ^ S := mul_pow_sub_one (by omega) 2
  have hmax : (f : Int) < 2 ^ S := by exact_mod_cast hf
  rcases Nat.lt_or_ge f (2 ^ (S - 1)) with hlow | hhigh
  · have hlow' : (f : Int) < 2 ^ (S - 1) := by exact_mod_cast hlow
    rw [extend_of_low hlow]
    exact .inl (by omega)
  · have hhigh' : (2 : Int) ^ (S - 1) ≤ f := by exact_mod_cast hhigh
    rw [extend_of_high hhigh]
    exact .inr (by omega)

/-- Settles O43: EXTEND's second case is the negative case with the parentheses taken off. -/
theorem extendIsTheSignConversion : Obligations.ExtendIsTheSignConversion := by
  intro f S hS hS15 hf
  obtain ⟨hmin, hmax⟩ := extend_range hS15 hf
  exact ⟨extend_of_high, extend_of_low, extend_intervals hS hf, hmin, hmax, fun hlow => by rw [extend_of_low hlow]; ring⟩

/-- Settles O50: one symbol takes at most 16 + 15 bits, and a block has at most 64 symbols, of which the DC symbol and the first
AC symbol take one bit at least. -/
theorem blockTakesAtMost1984Bits : Obligations.BlockTakesAtMost1984Bits := by
  intro s c hdc hac
  have hsat := decodeBlock_sat c s
  refine ⟨fun t ht => ?ends, fun havail t ht => ?exhausted⟩
  case ends =>
    obtain ⟨m, v, coef, rfl, -, hlen, -⟩ := hsat.of_ok ht
    obtain ⟨h2, h1984⟩ := hlen (lensOk_of_codesOk hdc) (lensOk_of_codesOk hac)
    exact ⟨Nat.add_le_add_left h2 _, Nat.add_le_add_left h1984 _⟩
  case exhausted =>
    rcases hsat.of_raised ht with ⟨-, hbad, -⟩ | ⟨-, -, m, v, coef, -, -, -, hshort⟩
    · cases hbad
    · exact Nat.not_lt.2 havail (hshort (lensOk_of_codesOk hdc) (lensOk_of_codesOk hac) rfl)

end Sys2Proof.Machine
end

section
/-! ### The symbols of the block decoder at work (spec/43_block.md R193 to R199) -/

namespace Sys2Proof.Machine

section
variable {s t : State} {c : Fin 4} {k : Nat}

/-- A DC symbol that is done leaves the decoder waiting for the first AC symbol (R193, R194). -/
theorem onDc_ok {op : Fin 4 → State → Res Unit} (hu : s.unit = .dc c) (h : op c s = .ok () t) :
    onDc op s = .next (withUnit (.ac c 1) t) := by
  rw [onDc, hu]
  simp only [h, Res.bind_ok, finish_ok]

/-- A DC symbol that raises ends in the fault entry (R270). -/
theorem onDc_raised {op : Fin 4 → State → Res Unit} {e : Err} (hu : s.unit = .dc c) (h : op c s = .raised e t) :
    onDc op s = .next (raise e t) := by
  rw [onDc, hu]
  simp only [h, Res.bind_raised, finish_raised]

/-- An AC symbol that is done leaves the decoder waiting for the next one, or the block ended (R194). -/
theorem onAc_ok {op : Nat → State → Res Nat} {k' : Nat} (hu : s.unit = .ac c k) (h : op k s = .ok k' t) :
    onAc op s = .next (withUnit (if k' ≤ 63 then .ac c k' else .idle) t) := by
  rw [onAc, hu]
  simp only [h, Res.bind_ok, finish_ok]

/-- An AC symbol that raises ends in the fault entry (R270). -/
theorem onAc_raised {op : Nat → State → Res Nat} {e : Err} (hu : s.unit = .ac c k) (h : op k s = .raised e t) :
    onAc op s = .next (raise e t) := by
  rw [onAc, hu]
  simp only [h, Res.bind_raised, finish_raised]

/-- A DC difference of 0 leaves the predictor as it is (R193). -/
theorem storeDc_zero (c : Fin 4) (s : State) : storeDc c 0 s = { s with coef := s.coef.set 0 s.pred[c] } := by
  have hwrap : wrap32 (s.pred[c].toInt + 0) = s.pred[c] := by rw [Int.add_zero, wrap32, BitVec.ofInt_toInt]
  have hpred : s.pred.set c s.pred[c] = s.pred := by simp
  rw [storeDc_eq, hwrap, hpred, coef_set0]

/-- A DC size other than 0 whose magnitude field is there (R193). -/
theorem dcsizeOp_read {S : Fin 16} {f : Nat} (hS : S ≠ 0) (h : nextBits S.val s = .ok f t) :
    dcsizeOp c S s = .ok () (storeDc c (extend f S.val) t) := by
  rw [dcsizeOp, if_neg hS, h, Res.bind_ok]

/-- A DC size whose magnitude field is cut short (R193). -/
theorem dcsizeOp_short {S : Fin 16} (h : avail s < S.val) : dcsizeOp c S s = .raised .streamExhausted s := by
  have hS : S ≠ 0 := fun h0 => Nat.not_lt_zero _ (h0 ▸ h)
  rw [dcsizeOp, if_neg hS, nextBits_raised h, Res.bind_raised]

/-- ZRL up to index 64 (R196). -/
theorem zrlOp_fits (s : State) (h : k ≤ 48) : zrlOp k s = .ok (k + 16) s := if_pos (by omega)

/-- ZRL past index 64 (R199). -/
theorem zrlOp_overflow (s : State) (h : 48 < k) : zrlOp k s = .raised .coefIndexOverflow s := if_neg (by omega)

/-- RUNSIZE inside the block whose magnitude field is there (R197). -/
theorem runsizeOp_read {R S : Fin 16} {f : Nat} (hk : k + R.val ≤ 63) (h : nextBits S.val s = .ok f t) :
    runsizeOp k R S s = .ok (k + R.val + 1) (setCoef (k + R.val) (wrap32 (extend f S.val)) t) := by
  rw [runsizeOp, if_pos hk, h, Res.bind_ok]

/-- RUNSIZE inside the block whose magnitude field is cut short (R197). -/
theorem runsizeOp_short {R S : Fin 16} (hk : k + R.val ≤ 63) (h : avail s < S.val) :
    runsizeOp k R S s = .raised .streamExhausted s := by
  rw [runsizeOp, if_pos hk, nextBits_raised h, Res.bind_raised]

/-- RUNSIZE past the block (R199). -/
theorem runsizeOp_overflow (R S : Fin 16) (s : State) (hk : 63 < k + R.val) :
    runsizeOp k R S s = .raised .coefIndexOverflow s := if_neg (Nat.not_le.2 hk)

end

/-- Settles O44, by the size: 0, a field that is there, a field cut short, a symbol above 15. -/
theorem dcStepAddsTheDifference : Obligations.DcStepAddsTheDifference := by
  intro s c hu
  refine ⟨?zero, fun S hS havail => ?read, fun S hshort => ?short, fun sym hsym => ⟨?decoded, ?reserved⟩⟩
  case zero =>
    have hexec : exec (.dcsize 0) s = .next (withUnit (.ac c 1) (storeDc c 0 s)) := onDc_ok hu (if_pos rfl)
    rw [hexec, storeDc_zero]
  case read =>
    obtain ⟨f, hf, hbits, hread⟩ := take_bits havail
    have hexec : exec (.dcsize S) s = .next (withUnit (.ac c 1) (storeDc c (extend f S.val) (advance S.val s))) :=
      onDc_ok hu (dcsizeOp_read hS hread)
    refine ⟨f, hf, hbits, ?_⟩
    rw [hexec, storeDc_eq, coef_set0]
    rfl
  case short => exact onDc_raised hu (dcsizeOp_short hshort)
  case decoded => exact Except.ok.inj (decode_encode (.dcrsvd sym) (decide_eq_true hsym))
  case reserved => exact onDc_raised hu rfl

/-- Settles O45: EOB moves the index to 64, ZRL by 16. -/
theorem eobAndZrlMoveOnlyTheIndex : Obligations.EobAndZrlMoveOnlyTheIndex := by
  intro s c k hu
  have hzrl (hk : k ≤ 48) : exec .zrl s = .next (withUnit (if k + 16 ≤ 63 then .ac c (k + 16) else .idle) s) :=
    onAc_ok hu (zrlOp_fits s hk)
  refine ⟨onAc_ok (op := fun _ s => eobOp s) hu rfl, fun hk => ?inside, fun hk => ?ends,
    fun hk => onAc_raised hu (zrlOp_overflow s hk)⟩
  case inside => rw [hzrl (Nat.le_of_lt hk), if_pos (by omega)]
  case ends => rw [hzrl (Nat.le_of_eq hk), if_neg (by omega)]

/-- Settles O46, by where the run ends and whether the field is there; the index ends the block when the run ends at 63. -/
theorem runsizeStoresOneCoefficient : Obligations.RunsizeStoresOneCoefficient := by
  intro s c k R S hu _
  refine ⟨fun hk havail => ?read, fun hk => ?overflow, fun hk hshort => ?short⟩
  case read =>
    obtain ⟨f, hf, hbits, hread⟩ := take_bits havail
    have hexec : exec (.runsize R S) s = _ := onAc_ok hu (runsizeOp_read hk hread)
    have hunit : (if k + R.val + 1 ≤ 63 then Activity.ac c (k + R.val + 1) else .idle) =
        if k + R.val = 63 then .idle else .ac c (k + R.val + 1) := by
      by_cases hlast : k + R.val = 63
      · rw [if_neg (by omega), if_pos hlast]
      · rw [if_pos (by omega), if_neg hlast]
    refine ⟨f, hf, hbits, ?_⟩
    rw [hexec, hunit]
    rfl
  case overflow => exact onAc_raised hu (runsizeOp_overflow R S s hk)
  case short => exact onAc_raised hu (runsizeOp_short hk hshort)

/-- The number of a symbol with a magnitude length of 0 (R87). -/
theorem toNat_symbol_zero (R : Fin 16) : (symbol R 0).toNat = 16 * R.val := by revert R; decide

/-- An AC symbol is reserved just when it is the code of a well-formed ACRSVD (R88). -/
theorem decodeAc_eq_acrsvd_iff (sym : Byte) (R : Fin 16) :
    decodeAc sym = .acrsvd R ↔ (1 ≤ R.val ∧ R.val ≤ 14) ∧ symbol R 0 = sym := by
  have hwf : (Instr.acrsvd R).wf = true ↔ 1 ≤ R.val ∧ R.val ≤ 14 := by simp [Instr.wf]
  constructor
  · intro h
    obtain ⟨hrange, hcode⟩ := h ▸ decodeAc_isCodeOf sym
    exact ⟨hwf.1 hrange, Code.acSym.inj hcode⟩
  · rintro ⟨hrange, rfl⟩
    exact Except.ok.inj (decode_encode (.acrsvd R) (hwf.2 hrange))

/-- Settles O47: the reserved symbols are the codes of ACRSVD, whose number is 16 times the run. -/
theorem reservedAcSymbolsFault : Obligations.ReservedAcSymbolsFault := by
  refine ⟨fun s c k R hu => onAc_raised hu rfl, fun sym => ?_⟩
  simp only [decodeAc_eq_acrsvd_iff]
  constructor
  · rintro ⟨R, hrange, rfl⟩
    rw [toNat_symbol_zero]
    omega
  · rintro ⟨hsize, hlo, hhi⟩
    refine ⟨⟨sym.toNat / 16, by omega⟩, ⟨hlo, hhi⟩, BitVec.eq_of_toNat_eq ?_⟩
    rw [toNat_symbol_zero]
    exact Nat.mul_div_cancel' (Nat.dvd_of_mod_eq_zero hsize)

end Sys2Proof.Machine
end

section
/-! ### NOP, START_SCAN, PRED_RESET and RESYNC (spec/44_loop_commands.md R221, R223, R226, R227) -/

namespace Sys2Proof.Machine

/-- A command outside FAULT in a state it is not for (R220). -/
theorem command_refused {ok : Mode → Bool} {effect : State → Res Unit} {s : State} (hm : s.mode ≠ .fault)
    (hok : ok s.mode = false) : command ok effect s = .next (raise .badCommand s) := by
  simp [command, hm, hok]

/-- A NOP word has no argument (R82, R221). -/
theorem decodeCmd_nop_argument {arg : Byte} (h : arg ≠ 0#8) : decodeCmd (cmdWord 0x00#8 arg) = .error .badArgument := by
  rw [decodeCmd_cmdWord]
  exact if_neg h

/-- Settles O20: in FAULT the command is ignored, else its effect is to do nothing. -/
theorem nopWritesNothing : Obligations.NopWritesNothing := by
  refine ⟨rfl, fun s => ?_, fun s arg harg => ?_⟩
  · by_cases hm : s.mode = .fault
    · exact command_fault hm
    · exact command_any hm
  · rw [executeWord_illegal (decodeCmd_nop_argument harg)]
    by_cases hm : s.mode = .fault
    · rw [command_fault hm, if_pos hm]
    · rw [command_any hm, if_neg hm, finish_raised]

/-- `BLOCKS` is the low byte of a channel's configuration (R29). -/
theorem chBlocks_eq_mod (cfg : BitVec 12) : chBlocks cfg = cfg.toNat % 256 := by simp [chBlocks]

/-- `B` as R223 writes it. -/
theorem blocksPerMcu_eq_sum (s : State) :
    blocksPerMcu s = ((List.range s.numCh.toNat).map fun c => (s.chCfg[Fin.ofNat 4 c]).toNat % 256).sum := by
  show ((List.range s.numCh.toNat).map fun c => chBlocks s.chCfg[Fin.ofNat 4 c]).sum = _
  simp only [chBlocks_eq_mod]

/-- Settles O52: outside FAULT the command is `startScan`, whose checks pass or fail. -/
theorem startScanBeginsAtTheFirstBlock : Obligations.StartScanBeginsAtTheFirstBlock := by
  refine ⟨by decide, fun s hmode => ?_⟩
  intro B
  have hexec : exec .startScan s = finish (startScan s) := command_any hmode
  have hB : blocksPerMcu s = B := blocksPerMcu_eq_sum s
  rw [hexec, startScan, hB]
  refine ⟨fun hlo hhi hcount => ?_, fun hbad => ?_⟩
  · rw [if_pos ⟨⟨hlo, hhi⟩, hcount⟩]
    rfl
  · rw [if_neg (and_assoc.not.2 hbad), finish_raised]

/-- Settles O53: outside FAULT each command is its one update. -/
theorem restartHooksWriteOnlyTheirState : Obligations.RestartHooksWriteOnlyTheirState :=
  ⟨by decide, by decide, fun _ hmode => ⟨command_any (effect := fun s => .ok () (zeroPred s)) hmode,
    command_any (effect := fun s => .ok () (resyncCursor s)) hmode⟩⟩

end Sys2Proof.Machine
end

section
/-! ### RUN as MCUs in order, and a RUN with nothing to decode (spec/44_loop_commands.md R224, R228) -/

namespace Sys2Proof.Machine

/-- RUN from the first block of an MCU on, when its checks pass: the MCUs in order, then the end of RUN (R224, R228). -/
theorem exec_run_eq_runMcus {s : State} (hmode : s.mode = .active) (h : s.mcuStop ≤ s.mcuCount ∧ numChLegal s)
    (hch : s.chIdx = 0) (hblk : s.blkIdx = 0) :
    exec .run s = finish ((runMcus (s.mcuStop.toNat - s.mcuIdx.toNat) s).bind fun _ t => .ok () (endRun t)) := by
  rw [exec_run_active hmode, runScan_eq h hch hblk]

/-- Settles O56: the loop of RUN is the nest, by `runScan_eq`. -/
theorem runFollowsTheNestingOrder : Obligations.RunFollowsTheNestingOrder := fun _ hmode hstop hlo hhi hch hblk =>
  exec_run_eq_runMcus hmode ⟨hstop, hlo, hhi⟩ hch hblk

/-- The end of a RUN in ACTIVE: DONE or a pause (R228). -/
theorem endRun_active {s : State} (hmode : s.mode = .active) :
    endRun s = { s with mode := if s.mcuIdx = s.mcuCount then .done else .active } := by
  unfold endRun
  split
  · rfl
  · rw [← hmode]

/-- RUN whose MCUs are all decoded, in DONE or in a pause (R228). -/
theorem exec_run_of_runMcus_ok {s t : State} (hmode : s.mode = .active) (hok : s.mcuStop ≤ s.mcuCount ∧ numChLegal s)
    (hch : s.chIdx = 0) (hblk : s.blkIdx = 0) (h : runMcus (s.mcuStop.toNat - s.mcuIdx.toNat) s = .ok () t)
    (ht : t.mode = .active) : exec .run s = .next { t with mode := if t.mcuIdx = t.mcuCount then .done else .active } := by
  rw [exec_run_eq_runMcus hmode hok hch hblk, h, Res.bind_ok, finish_ok, endRun_active ht]

/-- The next MCU is due where this one's first block was (R228). -/
theorem nextMcu_of_first {s : State} (hch : s.chIdx = 0) (hblk : s.blkIdx = 0) : nextMcu s = { s with mcuIdx := s.mcuIdx + 1#32 } := by
  rw [nextMcu, ← hch]
  congr 1
  rw [hch, hblk]

/-- An MCU without blocks has none in any channel. -/
theorem mcuBlocks_eq_nil {s : State} (h : blocksPerMcu s = 0) : mcuBlocks s = [] := by
  rw [mcuBlocks, List.flatMap_eq_nil_iff]
  intro c hc
  have hzero : blocksOf s c = 0 := List.sum_eq_zero_iff.1 h _ (List.mem_map_of_mem hc)
  rw [hzero]
  rfl

/-- MCUs without blocks are stepped over (R228). -/
theorem runMcus_empty : ∀ (n : Nat) {s : State}, blocksPerMcu s = 0 → s.chIdx = 0 → s.blkIdx = 0 →
    runMcus n s = .ok () { s with mcuIdx := s.mcuIdx + BitVec.ofNat 32 n }
  | 0, s, _, _, _ => by simp [runMcus]
  | n + 1, s, hB, hch, hblk => by
    have hsum : s.mcuIdx + 1#32 + BitVec.ofNat 32 n = s.mcuIdx + BitVec.ofNat 32 (n + 1) := by
      rw [BitVec.add_assoc, Nat.add_comm n 1, BitVec.ofNat_add]
    rw [runMcus, mcuBlocks_eq_nil hB]
    show runMcus n (nextMcu s) = _
    rw [runMcus_empty n (s := nextMcu s) hB rfl rfl, nextMcu_of_first hch hblk, hsum]

/-- The MCU index the distance to a later one further. -/
theorem add_ofNat_distance {x y : Word} (h : x ≤ y) : x + BitVec.ofNat 32 (y.toNat - x.toNat) = y := by
  bv_omega

/-- Settles O54: the checks fail, or the loop stands at the stop, or the MCUs up to it are without blocks. -/
theorem runChecksAndEmptyRuns : Obligations.RunChecksAndEmptyRuns := by
  intro s
  refine ⟨fun hmode => ?refused, fun hmode hbad => ?checks, fun hmode hstop hlo hhi => ⟨fun hdone => ?stop, ?empty⟩⟩
  case refused =>
    have hnot : s.mode ≠ .fault ∧ activeOnly s.mode = false := by rcases hmode with h | h <;> simp [h, activeOnly]
    exact command_refused hnot.1 hnot.2
  case checks => rw [exec_run_active hmode, runScan_bad hbad, finish_raised]
  case stop =>
    rw [exec_run_active hmode, runScan, if_pos ⟨hstop, hlo, hhi⟩, runLoop_stop (BitVec.not_lt.2 hdone), Res.bind_ok, finish_ok,
      endRun_active hmode]
  case empty =>
    intro hlt hch hblk hB
    have hmcus := runMcus_empty (s.mcuStop.toNat - s.mcuIdx.toNat) hB hch hblk
    rw [add_ofNat_distance (BitVec.le_of_lt hlt)] at hmcus
    exact exec_run_of_runMcus_ok hmode ⟨hstop, hlo, hhi⟩ hch hblk hmcus hmode

end Sys2Proof.Machine
end

section
/-! ### A RUN at a block (spec/44_loop_commands.md R225, R229, R231) -/

namespace Sys2Proof.Machine

/-- Before the stop the loop of RUN has a turn to take (R303). -/
theorem runBound_pos {s : State} (h : s.mcuIdx < s.mcuStop) : 0 < runBound s := by
  rw [BitVec.lt_def] at h
  exact Nat.mul_pos (Nat.sub_pos_of_lt h) (Nat.succ_pos _)

/-- A fault of the block that is due is the fault of RUN (R229). -/
theorem exec_run_of_blockStep_raised {s t : State} {e : Err} (hmode : s.mode = .active)
    (hok : s.mcuStop ≤ s.mcuCount ∧ numChLegal s) (hmcu : s.mcuIdx < s.mcuStop) (hch : s.chIdx < s.numCh.toNat)
    (hblk : s.blkIdx < blocksOf s s.chIdx) (h : blockStep s = .raised e t) : exec .run s = .next (raise e t) := by
  obtain ⟨n, hn⟩ := Nat.exists_eq_add_one.2 (runBound_pos hmcu)
  rw [exec_run_active hmode, runScan, if_pos hok, hn, runLoop, if_pos hmcu, if_neg (Nat.not_le.2 hch), if_neg (Nat.not_le.2 hblk), h]
  rfl

/-- A block step at the cursor's end (R225, R229). -/
theorem blockStep_exhausted {s t : State} (htop : topUp s = .ok () t) (heof : eof t = true) :
    blockStep s = .raised .streamExhausted t := by
  rw [blockStep, htop, Res.bind_ok, if_pos heof]

/-- With `EOE = 1`, or `LOW_WATER` bytes buffered, no refill is due (R177). -/
theorem topUp_notDue {s : State} (h : s.eoe = true ∨ s.params.lowWater ≤ tail s) : topUp s = .ok () s := by
  rcases h with heoe | hfull
  · exact topUp_eoe heoe
  · rw [topUp, Nat.sub_eq_zero_of_le hfull]
    rfl

/-- The text of a block has a bit at least: its DC codeword (R37, R91). -/
theorem BlockText.bits_ne_nil {text : BlockText} {dcCodes acCodes : List CodeEntry} {p : Word} {b : Block} (hc : codesOk dcCodes)
    (hb : text.meaning dcCodes acCodes p = some b) : text.bits ≠ [] := by
  obtain ⟨⟨hmem, -⟩, -⟩ := BlockText.meaning_eq_some hb
  obtain ⟨hlen, -⟩ := hc.2.1 _ hmem
  intro hnil
  have hzero := congrArg List.length hnil
  rw [BlockText.bits_eq, List.length_append, List.length_append, List.length_append, length_codeBits] at hzero
  simp at hzero
  omega

/-- The block step on the text of a block, with no refill due (R225, R231). -/
theorem blockStep_text {s : State} {c : Fin 4} {text : BlockText} {b : Block} {rest : List Bool} (hch : Fin.ofNat 4 s.chIdx = c)
    (hdue : s.eoe = true ∨ s.params.lowWater ≤ tail s)
    (hdc : s.tbl[dcSel s c].valid = true) (hac : s.tbl[acSel s c].valid = true)
    (hdcCodes : codesOk s.tbl[dcSel s c].codes) (hacCodes : codesOk s.tbl[acSel s c].codes)
    (hb : text.meaning s.tbl[dcSel s c].codes s.tbl[acSel s c].codes s.pred[c] = some b)
    (hbits : unreadBits s = text.bits ++ rest) :
    blockStep s = .ok () (appendBlock { advance text.bits.length s with coef := b, pred := s.pred.set c b[0] }) := by
  have heof : ¬ eof s = true := by
    rw [eof_iff, hbits, List.append_eq_nil_iff]
    exact fun h => BlockText.bits_ne_nil hdcCodes hb h.1
  rw [blockStep, topUp_notDue hdue, Res.bind_ok, if_neg heof, hch, decodeBlock_text hdc hac hdcCodes hacCodes hb hbits, Res.bind_ok]

/-- One channel of one block. -/
theorem mcuBlocks_single {s : State} (hnum : s.numCh = 1#3) (hblocks : blocksOf s 0 = 1) : mcuBlocks s = [(0, 0)] := by
  simp [mcuBlocks, hnum, hblocks]

/-- The loop stands at the block it stands at. -/
theorem atBlock_self {c j : Nat} {s : State} (hch : s.chIdx = c) (hblk : s.blkIdx = j) : atBlock c j s = s := by
  subst hch hblk
  rfl

/-- One MCU of one block. -/
theorem runMcus_one_single {s : State} (hnum : s.numCh = 1#3) (hblocks : blocksOf s 0 = 1) (hch : s.chIdx = 0) (hblk : s.blkIdx = 0) :
    runMcus 1 s = (blockStep s).bind fun _ t => .ok () (nextMcu t) := by
  rw [runMcus, mcuBlocks_single hnum hblocks]
  show ((blockStep (atBlock 0 0 s)).bind _).bind _ = _
  rw [atBlock_self hch hblk, Res.bind_assoc]
  rfl

/-- Settles O55: the fault of the block that is due ends RUN, and with one block RUN is its block step. -/
theorem runDecodesAndAppendsABlock : Obligations.RunDecodesAndAppendsABlock := by
  refine ⟨fun s t hmode hstop hlo hhi hmcu hch hblk => ?exhausted, ?block⟩
  case exhausted =>
    have hraised {u : State} (htop : topUp s = .ok () u) (heof : eof u = true) :=
      exec_run_of_blockStep_raised hmode ⟨hstop, hlo, hhi⟩ hmcu hch hblk (blockStep_exhausted htop heof)
    exact ⟨hraised, fun heoe havail => hraised (topUp_eoe heoe) (beq_iff_eq.2 havail)⟩
  case block =>
    intro s text b rest hmode hnum hblocks hch hblk hmcu hnext hstop hdue hdc hac hdcCodes hacCodes hb hbits
    have hlegal : numChLegal s := by simp [numChLegal, hnum]
    have hone : s.mcuStop.toNat - s.mcuIdx.toNat = 1 := by rw [← hnext, mcuIdx_add_one hmcu, Nat.add_sub_cancel_left]
    have hmcus := runMcus_one_single hnum hblocks hch hblk
    rw [← hone, blockStep_text (c := 0) (by rw [hch]; rfl) hdue hdc hac hdcCodes hacCodes hb hbits, Res.bind_ok] at hmcus
    rw [exec_run_of_runMcus_ok hmode ⟨hstop, hlegal⟩ hch hblk hmcus hmode]
    simp [nextMcu, appendBlock, hnext, hch, hblk]

end Sys2Proof.Machine
end

section
/-! ### How a RUN ends, and a RUN continued (spec/44_loop_commands.md R228, R229) -/

namespace Sys2Proof.Machine

/-- `OUT` has grown by some blocks, and `OUT_COUNT` with it (R231; modulo `2^32`, log entry 22). -/
def OutGrown (s t : State) : Prop := ∃ bs, t.out = s.out ++ bs ∧ t.outCount = s.outCount + BitVec.ofNat 32 bs.length

theorem OutGrown.refl (s : State) : OutGrown s s := ⟨[], by simp⟩

/-- One block more. -/
theorem OutGrown.append {s t : State} {b : Block} (h : OutGrown s t) {u : State} (hout : u.out = t.out ++ [b])
    (hcount : u.outCount = t.outCount + 1#32) : OutGrown s u := by
  obtain ⟨bs, hbs, hn⟩ := h
  refine ⟨bs ++ [b], by rw [hout, hbs, List.append_assoc], ?_⟩
  rw [hcount, hn, List.length_append, BitVec.ofNat_add, BitVec.add_assoc]
  rfl

/-- What a RUN keeps while it goes from `s` to `t`: what it was given, and the blocks it has put out (R228, R231). -/
structure InRun (s t : State) : Prop where
  numCh : t.numCh = s.numCh
  chCfg : t.chCfg = s.chCfg
  mcuStop : t.mcuStop = s.mcuStop
  mcuCount : t.mcuCount = s.mcuCount
  mode : t.mode = s.mode
  grown : OutGrown s t

theorem InRun.refl (s : State) : InRun s s := ⟨rfl, rfl, rfl, rfl, rfl, OutGrown.refl s⟩

/-- `t` stands at a block of the scan before the stop (R229). -/
def OnBlock (s t : State) : Prop := t.mcuIdx < s.mcuStop ∧ t.chIdx < s.numCh.toNat ∧ t.blkIdx < blocksOf s t.chIdx

/-- Refilling and decoding a block leave what a RUN keeps. -/
theorem InRun.frame {s t u : State} (h : InRun s t) (hf : BlockFrame t u) : InRun s u := by
  rw [hf]
  exact ⟨h.numCh, h.chCfg, h.mcuStop, h.mcuCount, h.mode, h.grown⟩

/-- So does the append of the block decoded. -/
theorem InRun.appended {s t : State} (h : InRun s t) : InRun s (appendBlock t) :=
  ⟨h.numCh, h.chCfg, h.mcuStop, h.mcuCount, h.mode, h.grown.append rfl rfl⟩

/-- A block step of a RUN at one of its blocks: it goes on, or faults on that block (R225, R229). -/
theorem InRun.stepped {s t : State} (h : InRun s t) (hon : OnBlock s t) :
    (blockStep t).Sat (fun _ u => InRun s u) (fun _ u => InRun s u ∧ OnBlock s u) := by
  refine (blockStep_frame t).mono ?_ ?_
  · rintro - u ⟨v, hv, rfl, -⟩
    exact (h.frame hv).appended
  · rintro e u ⟨hu, -⟩
    refine ⟨h.frame hu, ?_⟩
    rw [hu]
    exact hon

/-- How the MCUs of a RUN end: at the stop, or on the block that faulted (R228, R229). -/
theorem runMcus_ends {s : State} (hch : s.chIdx = 0) (hblk : s.blkIdx = 0) :
    (runMcus (s.mcuStop.toNat - s.mcuIdx.toNat) s).Sat
      (fun _ t => InRun s t ∧ t.mcuIdx = (if s.mcuIdx < s.mcuStop then s.mcuStop else s.mcuIdx) ∧ t.chIdx = 0 ∧ t.blkIdx = 0)
      (fun _ t => InRun s t ∧ OnBlock s t) := by
  refine (runMcus_sat (P := InRun s) (E := fun _ t => InRun s t ∧ OnBlock s t) ?block ?next _ s rfl (InRun.refl s)).mono
    ?ends (fun _ _ h => h)
  case block =>
    intro t c j ht hlt hc hj
    have hon : OnBlock s (atBlock c j t) := by
      refine ⟨ht.mcuStop ▸ hlt, ht.numCh ▸ hc, ?_⟩
      rw [← (blocksPerMcu_same ht.numCh ht.chCfg).2]
      exact hj
    exact InRun.stepped (t := atBlock c j t) ⟨ht.numCh, ht.chCfg, ht.mcuStop, ht.mcuCount, ht.mode, ht.grown⟩ hon
  case next => exact fun t ht _ => ⟨ht.numCh, ht.chCfg, ht.mcuStop, ht.mcuCount, ht.mode, ht.grown⟩
  case ends =>
    rintro - t ⟨ht, -, -, -, hmcu, hcoord⟩
    refine ⟨ht, hmcu, ?_⟩
    split at hcoord
    · exact hcoord
    · rw [hcoord]
      exact ⟨hch, hblk⟩

/-- Settles O57: the MCUs of the RUN end at the stop or on the block that faulted. -/
theorem runEndsAtStopOrFault : Obligations.RunEndsAtStopOrFault := by
  intro s hmode hstop hlo hhi hch hblk
  have hends := runMcus_ends hch hblk
  cases hr : runMcus (s.mcuStop.toNat - s.mcuIdx.toNat) s with
  | ok a t =>
    obtain ⟨ht, hmcu, hc, hb⟩ := hends.of_ok hr
    refine ⟨_, exec_run_of_runMcus_ok hmode ⟨hstop, hlo, hhi⟩ hch hblk hr (ht.mode.trans hmode), ht.grown,
      .inl ⟨hc, hb, hmcu, ?_⟩⟩
    rw [← ht.mcuCount]
  | raised e t =>
    obtain ⟨ht, hon⟩ := hends.of_raised hr
    refine ⟨raise e t, ?_, ht.grown, .inr ⟨rfl, hon⟩⟩
    rw [exec_run_eq_runMcus hmode ⟨hstop, hlo, hhi⟩ hch hblk, hr, Res.bind_raised, finish_raised]

/-- A RUN that ends in ACTIVE has passed its checks and its MCUs, and pauses as they leave it (R228). -/
theorem run_paused {s t : State} (hmode : s.mode = .active) (hch : s.chIdx = 0) (hblk : s.blkIdx = 0) (hrun : exec .run s = .next t)
    (ht : t.mode = .active) : numChLegal s ∧ runMcus (s.mcuStop.toNat - s.mcuIdx.toNat) s = .ok () t := by
  by_cases hok : s.mcuStop ≤ s.mcuCount ∧ numChLegal s
  · refine ⟨hok.2, ?_⟩
    rw [exec_run_eq_runMcus hmode hok hch hblk] at hrun
    cases hr : runMcus (s.mcuStop.toNat - s.mcuIdx.toNat) s with
    | ok a u =>
      rw [hr] at hrun
      cases hrun
      have hpause : endRun u = u := by
        unfold endRun at ht ⊢
        split at ht
        · cases ht
        · next hne => exact if_neg hne
      rw [hpause]
    | raised e u =>
      rw [hr] at hrun
      cases hrun
      cases ht
  · rw [exec_run_active hmode, runScan_bad hok] at hrun
    cases hrun
    cases ht

/-- The MCUs of a RUN do not read the stop (R228). -/
theorem runMcus_withStop {n : Nat} {s t : State} (stop : Word) (h : runMcus n s = .ok () t) :
    runMcus n { s with mcuStop := stop } = .ok () { t with mcuStop := stop } :=
  (runMcus_adjust (fun _ => stop) id n s).trans (congrArg _ h)

/-- Settles O58: the MCUs of the one RUN are those up to the pause, then those after it. -/
theorem pausedRunContinuesUnchanged : Obligations.PausedRunContinuesUnchanged := by
  intro s t stop hmode hidx hle hcount hch hblk hrun ht
  obtain ⟨hlegal, hmcus⟩ := run_paused hmode hch hblk hrun ht
  obtain ⟨hkept, hmcu, htch, htblk⟩ := (runMcus_ends hch hblk).of_ok hmcus
  have hat : t.mcuIdx = s.mcuStop := by
    rw [hmcu]
    split
    · rfl
    · next hge => exact BitVec.le_antisymm hidx (BitVec.not_lt.1 hge)
  have hlegal' : numChLegal t := by rw [numChLegal, hkept.numCh]; exact hlegal
  have hsplit : stop.toNat - s.mcuIdx.toNat = (s.mcuStop.toNat - s.mcuIdx.toNat) + (stop.toNat - t.mcuIdx.toNat) := by
    rw [hat]
    rw [BitVec.le_def] at hidx hle
    omega
  have hfirst := exec_run_eq_runMcus (s := { s with mcuStop := stop }) hmode ⟨hcount, hlegal⟩ hch hblk
  have hsecond := exec_run_eq_runMcus (s := { t with mcuStop := stop }) ht ⟨hkept.mcuCount ▸ hcount, hlegal'⟩ htch htblk
  rw [hfirst, hsecond, hsplit, runMcus_add, runMcus_withStop stop hmcus, Res.bind_ok]

end Sys2Proof.Machine
end

section
/-! ### The fault entry and the state FAULT (spec/60_exceptions.md R260, R270, R272, R273) -/

namespace Sys2Proof.Machine

/-- The fault entry with the code and the location word written out (R260, R270). -/
theorem raise_eq (e : Err) (s : State) :
    raise e s =
      { s with
        err := e.code
        errMcu := s.mcuIdx
        errLoc := BitVec.ofNat 10 (s.chIdx % 4 * 256 + s.blkIdx % 256)
        mode := .fault
        unit := .idle } := by
  rw [raise, locWord_eq]

/-- An instruction that enters FAULT does so through the fault entry; RESET never enters it (R270, R273). -/
theorem exec_enters_fault {i : Instr} {s t : State} (hs : s.mode ≠ .fault) (hi : exec i s = .next t) (ht : t.mode = .fault) :
    ∃ e u, t = raise e u := by
  by_cases hreset : i = .reset
  · subst hreset
    cases hi
    cases ht
  · exact ((exec_frame hreset hi).2 hs ht).1

/-- Settles O14: the entry is one update, and `exec` enters FAULT by it only. -/
theorem faultEntryRecordsCodeAndCoordinates : Obligations.FaultEntryRecordsCodeAndCoordinates := by
  refine ⟨fun e s => ?_, fun i s t hs hi ht => ?_⟩
  · rw [raise_eq]
    cases e <;> rfl
  · obtain ⟨e, u, rfl⟩ := exec_enters_fault hs hi ht
    obtain ⟨-, hlo, hhi⟩ := Err.code_bounds e
    exact ⟨rfl, locWord_eq _ _, hlo, hhi, rfl⟩

/-- `t` has the engine state and the fault registers of `s` (R26, R27). -/
structure SameFault (s t : State) : Prop where
  mode : t.mode = s.mode
  err : t.err = s.err
  errMcu : t.errMcu = s.errMcu
  errLoc : t.errLoc = s.errLoc

theorem SameFault.refl (s : State) : SameFault s s := ⟨rfl, rfl, rfl, rfl⟩

/-- A host write of a register other than `CMD` writes neither the engine state nor a fault register (R23). -/
theorem writeReg_sameFault (v : Word) (s : State) (r : Reg) : SameFault s (writeReg v s r) := by
  cases r <;> exact ⟨rfl, rfl, rfl, rfl⟩

/-- Settles O15: the commands are ignored but for RESET, and the register window does not look at the state. -/
theorem onlyResetActsInFault : Obligations.OnlyResetActsInFault := by
  intro s hs
  refine ⟨executeWord_reset s, fun w hw => executeWord_fault hs hw, fun i hi hreset => exec_fault hi hreset hs,
    fun r => hostRead_register r s, fun r v m hm => ?_⟩
  have hcmd : r ≠ .cmd := by rintro rfl; cases hm
  exact ⟨_, hostWrite_register hcmd v s, readReg_writeReg_same hm v s, (writeReg_sameFault v s r).mode.trans hs⟩

/-- Hardware reset and the write of the word of RESET reset the engine (R222, R290). -/
theorem perform_isReset {a : Access} (ha : isReset a = true) (s : State) : perform a s = .next (resetEngine s) := by
  cases a with
  | hardwareReset => rfl
  | write w offset v =>
    simp only [isReset, Bool.and_eq_true, decide_eq_true_eq] at ha
    obtain ⟨⟨rfl, rfl⟩, rfl⟩ := ha
    exact executeWord_reset s
  | _ => cases ha

/-- In FAULT a host write keeps the recorded fault, but for the write of the word of RESET to `CMD` (R272, R273). -/
theorem hostWrite_sameFault {w : Width} {offset : Nat} {v : Word} {s t : State} (hs : s.mode = .fault)
    (hne : isReset (.write w offset v) = false) (ht : hostWrite w offset v s = .next t) : SameFault s t := by
  unfold hostWrite at ht
  split at ht
  · next r hr =>
    split at ht
    · next hcmd =>
      have hoffset : offset = 0 := (regAt_cmd offset).1 (hcmd ▸ hr)
      have hv : v ≠ 0x00000001#32 := by
        rintro rfl
        subst hoffset
        cases hne
      rw [executeWord_fault hs hv] at ht
      cases ht
      exact .refl s
    · cases ht
      exact writeReg_sameFault v s r
  all_goals cases ht

/-- In FAULT every access but a reset keeps the recorded fault (R272). -/
theorem perform_sameFault {a : Access} {s t : State} (hs : s.mode = .fault) (hne : isReset a = false)
    (ht : perform a s = .next t) : SameFault s t := by
  cases a with
  | read w offset =>
    simp only [perform, hostRead] at ht
    split at ht <;> cases ht
    exact ⟨rfl, rfl, rfl, rfl⟩
  | write w offset v => exact hostWrite_sameFault hs hne ht
  | source bytes => cases ht; exact ⟨rfl, rfl, rfl, rfl⟩
  | poke i v => cases ht; exact ⟨rfl, rfl, rfl, rfl⟩
  | readOut i k =>
    simp only [perform] at ht
    split at ht
    · split at ht <;> cases ht
      exact ⟨rfl, rfl, rfl, rfl⟩
    · cases ht
  | hardwareReset => cases hne

/-- With an access left, the outside resets the engine exactly when that access does (R272). -/
theorem resets_cons {s : State} {a : Access} {rest : List Access} (h : s.script = a :: rest) : resets s ↔ isReset a = true := by
  simp [resets, h]

/-- Settles O16: in FAULT no unit is at work, so a step is the outside's next access, a reset or not. -/
theorem faultIsStickyUntilReset : Obligations.FaultIsStickyUntilReset := by
  intro s t hunit hs ht
  rw [step_of_idle (hunit.1 hs), hostTurn] at ht
  split at ht
  · next hnil =>
    cases ht
    exact ⟨fun _ => ⟨hs, rfl, rfl, rfl⟩, fun ⟨a, rest, hcons, _⟩ => by simp [hnil] at hcons⟩
  · next a rest hcons =>
    rw [resets_cons hcons]
    refine ⟨fun hne => ?_, fun ha => ?_⟩
    · have hkept : SameFault { s with script := rest } t := perform_sameFault hs (Bool.eq_false_iff.2 hne) ht
      exact ⟨hkept.mode.trans hs, hkept.err, hkept.errMcu, hkept.errLoc⟩
    · rw [perform_isReset ha] at ht
      cases ht
      exact ⟨rfl, rfl, rfl, rfl⟩

end Sys2Proof.Machine
end
